-- ==== Sys2Proof/Word.lean ====
section
/-! DEFINITION. The word types of the block (00_scope R12, 30_encoding R102): bytes, nibbles, 5-bit
codes, and the operand widths of the request port. -/

namespace Sys2Proof

/-- A byte: an unsigned integer in [0, 255] (R12). -/
abbrev Byte := BitVec 8

/-- A nibble: an unsigned integer in [0, 15] (R12). -/
abbrev Nibble := BitVec 4

/-- A GCR code: an unsigned integer in [0, 31] (R12). -/
abbrev Code := BitVec 5

/-- The `u16` operand type (R102). -/
abbrev U16 := BitVec 16

/-- The `u32` operand type (R102); an `i32` operand is the same 32 bits read as two's complement. -/
abbrev U32 := BitVec 32

/-- A host clock value, `CLK_BITS` = 32 bits, unsigned (R8, R102; decision D27). -/
abbrev Clk := BitVec 32

end Sys2Proof
end

