-- ==== Sys2Proof/Syntax.lean ====
section
/-! DEFINITION. The operations of the request port: one constructor per row of
spec/opcode_table.json (30_encoding R103), operands typed as R102 types them. -/

namespace Sys2Proof

/-- A raw group: 4 bytes `r[0..3]` (30_encoding R93). -/
structure RawGroup where
  r0 : Byte
  r1 : Byte
  r2 : Byte
  r3 : Byte
  deriving DecidableEq, Repr

/-- A GCR group: 5 bytes `g[0..4]` (30_encoding R93). -/
structure GcrGroup where
  g0 : Byte
  g1 : Byte
  g2 : Byte
  g3 : Byte
  g4 : Byte
  deriving DecidableEq, Repr

/-- The operations of the block (30_encoding R103, 47_semantic_laws R245). -/
inductive Instr where
  /-- `GCR_ENC4`: encode one group (R120). -/
  | gcrEnc4 (raw : RawGroup)
  /-- `GCR_DEC5`: decode one group (R121). -/
  | gcrDec5 (gcr : GcrGroup)
  /-- `ENCODE_SECTOR`: build the on-track image of one sector (R122). -/
  | encodeSector (track sector id1 id2 : Byte) (payload : List Byte)
  /-- `DECODE_SECTOR`: decode the data block at an offset of the current track (R123). -/
  | decodeSector (offset : U32)
  /-- `SET_HALF_TRACK`: position the head; the operand is an `i32` (R140). -/
  | setHalfTrack (n : U32)
  /-- `READ_BYTE_AT` (R141). -/
  | readByteAt (offset : U32)
  /-- `WRITE_BYTE_AT` (R142). -/
  | writeByteAt (offset : U32) (value : Byte)
  /-- `TS_LOAD_TRACK`: fill one track slot (R145). -/
  | tsLoadTrack (t : Byte) (size : U16) (data zones : List Byte)
  /-- `TS_CLEAR`: zero the Track Store (R146). -/
  | tsClear
  /-- `CLEAR_DIRTY` (R147). -/
  | clearDirty
  /-- `GET_DIRTY` (R148). -/
  | getDirty
  /-- `TS_READ_TRACK`: return one slot (R149). -/
  | tsReadTrack (t : Byte)
  /-- `ADVANCE`: run the rotation core over a clock delta (R161). -/
  | advance (delta : U32) (modeChanged : Bool)
  /-- `SYNC_FOUND` (R169). -/
  | syncFound (clk : Clk)
  /-- `CLK_REBASE`: lower every clock-stamped field (R170). -/
  | clkRebase (clk : Clk)
  /-- `FIND_SECTOR_HEADER` (R190). -/
  | findSectorHeader (track sector : Byte)
  /-- `FIND_SECTOR_DATA` (R191). -/
  | findSectorData (offset : U32)
  /-- `READ_DISK_BYTE` (R222). -/
  | readDiskByte (clk : Clk)
  /-- `WRITE_GCR` (R223). -/
  | writeGcr (clk : Clk) (value : Byte)
  /-- `BYTE_READY` (R224). -/
  | byteReady (clk : Clk)
  /-- `SET_BYTE_READY` (R225). -/
  | setByteReady (flag : Bool)
  /-- `MOVE_HEAD`: step the head; the operand is an `i32` (R226). -/
  | moveHead (step : U32)
  /-- `UPDATE_ZONE_BITS` (R227). -/
  | updateZoneBits (clk : Clk) (v : Byte)
  /-- `MOTOR_CONTROL` (R228). -/
  | motorControl (clk : Clk) (flag : Bool)
  /-- `UPDATE_PCR` (R229). -/
  | updatePcr (clk : Clk) (v : Byte)
  /-- `NOTE_ATTACH` (R231). -/
  | noteAttach (clk : Clk)
  /-- `NOTE_DETACH` (R232). -/
  | noteDetach (clk : Clk)
  /-- `RESET`: re-home the head (R271). -/
  | reset
  deriving DecidableEq, Repr

end Sys2Proof
end

