-- ==== Sys2Proof/WellFormed.lean ====
section
/-! DEFINITION. Which terms of `Instr` are requests the port can carry: the byte-sequence operands
have the lengths their formats give them (30_encoding R103). Operand VALUES are never checked here:
no operand value is reserved, and the values an operation refuses it refuses itself (R105). -/

namespace Sys2Proof

/-- `PAYLOAD_LEN`, the length of `ENCODE_SECTOR`'s last operand (00_scope R7). -/
abbrev payloadLen : Nat := 256

/-- The operand lengths of formats ES and LT (30_encoding R103); every other format has fixed
operands only. -/
abbrev WellFormed : Instr → Prop
  | .encodeSector _ _ _ _ payload => payload.length = payloadLen
  | .tsLoadTrack _ size data zones => data.length = size.toNat ∧ zones.length = size.toNat
  | .gcrEnc4 _ => True
  | .gcrDec5 _ => True
  | .decodeSector _ => True
  | .setHalfTrack _ => True
  | .readByteAt _ => True
  | .writeByteAt _ _ => True
  | .tsClear => True
  | .clearDirty => True
  | .getDirty => True
  | .tsReadTrack _ => True
  | .advance _ _ => True
  | .syncFound _ => True
  | .clkRebase _ => True
  | .findSectorHeader _ _ => True
  | .findSectorData _ => True
  | .readDiskByte _ => True
  | .writeGcr _ _ => True
  | .byteReady _ => True
  | .setByteReady _ => True
  | .moveHead _ => True
  | .updateZoneBits _ _ => True
  | .motorControl _ _ => True
  | .updatePcr _ _ => True
  | .noteAttach _ => True
  | .noteDetach _ => True
  | .reset => True

end Sys2Proof
end

