-- ==== Sys2Proof/Decode.lean ====
section
/-! DEFINITION. The request port's encoding (30_encoding part B, R101 to R106): the decoder, total on
any byte string and rejecting by name, then the encoder. -/

namespace Sys2Proof

/-- Why a byte string is no request (R105). Every one of them is the refusal `BadRequest` of
60_exceptions R252. -/
inductive DecodeError where
  /-- No opcode byte at all. -/
  | emptyRequest
  /-- The opcode byte is not in the map of R103. -/
  | reservedOpcode (op : Byte)
  /-- Shorter or longer than the opcode's format. -/
  | wrongLength (op : Byte)
  deriving DecidableEq, Repr

/-! ## Operand types (R102) -/

/-- `u16`, little-endian: the first byte is the low one. -/
def le16 (b0 b1 : Byte) : U16 := b1 ++ b0

/-- `u32`, `i32` and `clk`, little-endian. -/
def le32 (b0 b1 b2 b3 : Byte) : U32 := b3 ++ b2 ++ b1 ++ b0

/-- `bool`: false if the byte is 0, true otherwise. -/
def boolOfByte (b : Byte) : Bool := b != 0

/-- Byte `k` of a `u16`, byte 0 the least significant. -/
def byte16 (x : U16) (k : Nat) : Byte := x.extractLsb' (8 * k) 8

/-- Byte `k` of a `u32`, byte 0 the least significant. -/
def byte32 (x : U32) (k : Nat) : Byte := x.extractLsb' (8 * k) 8

/-- The two bytes of a `u16` in request order (R104). -/
def bytesOf16 (x : U16) : List Byte := [byte16 x 0, byte16 x 1]

/-- The four bytes of a `u32`, `i32` or `clk` in request order (R104). -/
def bytesOf32 (x : U32) : List Byte := [byte32 x 0, byte32 x 1, byte32 x 2, byte32 x 3]

/-- The byte the encoder writes for a `bool`; any non-zero byte would decode the same (R102;
notes/assumptions/18.md). -/
def byteOfBool (b : Bool) : Byte := if b then 1 else 0

/-! ## Formats (R103): the operand bytes after the opcode byte -/

/-- Format Z: no operand. -/
def formZ (op : Byte) (i : Instr) : List Byte → Except DecodeError Instr
  | [] => .ok i
  | _ => .error (.wrongLength op)

/-- Format B: one byte. -/
def formB (op : Byte) (k : Byte → Instr) : List Byte → Except DecodeError Instr
  | [b0] => .ok (k b0)
  | _ => .error (.wrongLength op)

/-- Format BB: two bytes. -/
def formBB (op : Byte) (k : Byte → Byte → Instr) : List Byte → Except DecodeError Instr
  | [b0, b1] => .ok (k b0 b1)
  | _ => .error (.wrongLength op)

/-- Formats I, O and C: one 32-bit operand. -/
def form32 (op : Byte) (k : U32 → Instr) : List Byte → Except DecodeError Instr
  | [b0, b1, b2, b3] => .ok (k (le32 b0 b1 b2 b3))
  | _ => .error (.wrongLength op)

/-- Formats OB, CB and A: one 32-bit operand and one byte. -/
def form32B (op : Byte) (k : U32 → Byte → Instr) : List Byte → Except DecodeError Instr
  | [b0, b1, b2, b3, v] => .ok (k (le32 b0 b1 b2 b3) v)
  | _ => .error (.wrongLength op)

/-- Format G4: a raw group. -/
def formG4 (op : Byte) (k : RawGroup → Instr) : List Byte → Except DecodeError Instr
  | [b0, b1, b2, b3] => .ok (k ⟨b0, b1, b2, b3⟩)
  | _ => .error (.wrongLength op)

/-- Format G5: a GCR group. -/
def formG5 (op : Byte) (k : GcrGroup → Instr) : List Byte → Except DecodeError Instr
  | [b0, b1, b2, b3, b4] => .ok (k ⟨b0, b1, b2, b3, b4⟩)
  | _ => .error (.wrongLength op)

/-- Format ES: four bytes and a payload of 256. -/
def formES (op : Byte) (k : Byte → Byte → Byte → Byte → List Byte → Instr) :
    List Byte → Except DecodeError Instr
  | b0 :: b1 :: b2 :: b3 :: payload =>
    if payload.length = payloadLen then .ok (k b0 b1 b2 b3 payload) else .error (.wrongLength op)
  | _ => .error (.wrongLength op)

/-- Format LT: a byte, a `u16` size, `size` data bytes and `size` zone bytes (R106). -/
def formLT (op : Byte) (k : Byte → U16 → List Byte → List Byte → Instr) :
    List Byte → Except DecodeError Instr
  | b0 :: s0 :: s1 :: rest =>
    if rest.length = 2 * (le16 s0 s1).toNat then
      .ok (k b0 (le16 s0 s1) (rest.take (le16 s0 s1).toNat) (rest.drop (le16 s0 s1).toNat))
    else .error (.wrongLength op)
  | _ => .error (.wrongLength op)

/-! ## The decoder -/

/-- The request decoder: the opcode byte alone selects the operation and its format (R101, R103); a
reserved opcode or a request of another length than its format is rejected (R105). -/
def decode : List Byte → Except DecodeError Instr
  | [] => .error .emptyRequest
  | op :: args =>
    if op = 0x10#8 then formG4 op .gcrEnc4 args
    else if op = 0x11#8 then formG5 op .gcrDec5 args
    else if op = 0x12#8 then formES op .encodeSector args
    else if op = 0x13#8 then form32 op .decodeSector args
    else if op = 0x20#8 then form32 op .setHalfTrack args
    else if op = 0x21#8 then form32 op .readByteAt args
    else if op = 0x22#8 then form32B op .writeByteAt args
    else if op = 0x23#8 then formLT op .tsLoadTrack args
    else if op = 0x24#8 then formZ op .tsClear args
    else if op = 0x25#8 then formZ op .clearDirty args
    else if op = 0x26#8 then formZ op .getDirty args
    else if op = 0x27#8 then formB op .tsReadTrack args
    else if op = 0x30#8 then form32B op (fun d b => .advance d (boolOfByte b)) args
    else if op = 0x31#8 then form32 op .syncFound args
    else if op = 0x32#8 then form32 op .clkRebase args
    else if op = 0x40#8 then formBB op .findSectorHeader args
    else if op = 0x41#8 then form32 op .findSectorData args
    else if op = 0x50#8 then form32 op .readDiskByte args
    else if op = 0x51#8 then form32B op .writeGcr args
    else if op = 0x52#8 then form32 op .byteReady args
    else if op = 0x53#8 then formB op (fun b => .setByteReady (boolOfByte b)) args
    else if op = 0x54#8 then form32 op .moveHead args
    else if op = 0x55#8 then form32B op .updateZoneBits args
    else if op = 0x56#8 then form32B op (fun c b => .motorControl c (boolOfByte b)) args
    else if op = 0x57#8 then form32B op .updatePcr args
    else if op = 0x58#8 then form32 op .noteAttach args
    else if op = 0x59#8 then form32 op .noteDetach args
    else if op = 0x5F#8 then formZ op .reset args
    else .error (.reservedOpcode op)

/-! ## The encoder -/

/-- The request bytes of an operation, written from the opcode map and the format layouts of R103. -/
def encode : Instr → List Byte
  | .gcrEnc4 r => [0x10#8, r.r0, r.r1, r.r2, r.r3]
  | .gcrDec5 g => [0x11#8, g.g0, g.g1, g.g2, g.g3, g.g4]
  | .encodeSector track sector id1 id2 payload =>
    0x12#8 :: track :: sector :: id1 :: id2 :: payload
  | .decodeSector offset => 0x13#8 :: bytesOf32 offset
  | .setHalfTrack n => 0x20#8 :: bytesOf32 n
  | .readByteAt offset => 0x21#8 :: bytesOf32 offset
  | .writeByteAt offset value => 0x22#8 :: (bytesOf32 offset ++ [value])
  | .tsLoadTrack t size data zones => 0x23#8 :: t :: (bytesOf16 size ++ (data ++ zones))
  | .tsClear => [0x24#8]
  | .clearDirty => [0x25#8]
  | .getDirty => [0x26#8]
  | .tsReadTrack t => [0x27#8, t]
  | .advance delta modeChanged => 0x30#8 :: (bytesOf32 delta ++ [byteOfBool modeChanged])
  | .syncFound clk => 0x31#8 :: bytesOf32 clk
  | .clkRebase clk => 0x32#8 :: bytesOf32 clk
  | .findSectorHeader track sector => [0x40#8, track, sector]
  | .findSectorData offset => 0x41#8 :: bytesOf32 offset
  | .readDiskByte clk => 0x50#8 :: bytesOf32 clk
  | .writeGcr clk value => 0x51#8 :: (bytesOf32 clk ++ [value])
  | .byteReady clk => 0x52#8 :: bytesOf32 clk
  | .setByteReady flag => [0x53#8, byteOfBool flag]
  | .moveHead step => 0x54#8 :: bytesOf32 step
  | .updateZoneBits clk v => 0x55#8 :: (bytesOf32 clk ++ [v])
  | .motorControl clk flag => 0x56#8 :: (bytesOf32 clk ++ [byteOfBool flag])
  | .updatePcr clk v => 0x57#8 :: (bytesOf32 clk ++ [v])
  | .noteAttach clk => 0x58#8 :: bytesOf32 clk
  | .noteDetach clk => 0x59#8 :: bytesOf32 clk
  | .reset => [0x5F#8]

/-! ## Request lengths, and requests written as numbers -/

/-- The length in bytes of a request with this opcode, for every format but LT (R103, R106): 0 for a
reserved opcode, 4 for the fixed part of LT. -/
def fixedLength (op : Byte) : Nat :=
  if op ∈ [0x24#8, 0x25#8, 0x26#8, 0x5F#8] then 1
  else if op ∈ [0x27#8, 0x53#8] then 2
  else if op = 0x40#8 then 3
  else if op = 0x23#8 then 4
  else if op ∈ [0x10#8, 0x13#8, 0x20#8, 0x21#8, 0x31#8, 0x32#8, 0x41#8, 0x50#8, 0x52#8, 0x54#8,
      0x58#8, 0x59#8] then 5
  else if op ∈ [0x11#8, 0x22#8, 0x30#8, 0x51#8, 0x55#8, 0x56#8, 0x57#8] then 6
  else if op = 0x12#8 then 261
  else 0

/-- The length a request must have, told from its opcode byte and, for `TS_LOAD_TRACK`, from its
`size` field at bytes 2..3: `4 + 2 * size` (R106). -/
def requestLength : List Byte → Nat
  | [] => 0
  | op :: args =>
    if op = 0x23#8 then 4 + 2 * (le16 (args.getD 1 0) (args.getD 2 0)).toNat else fixedLength op

/-- Zero bytes appended up to length `n`. -/
def padTo (n : Nat) (bs : List Byte) : List Byte := bs ++ List.replicate (n - bs.length) 0

/-- A request whose bytes beyond those given are all zero. -/
def padRequest (bs : List Byte) : List Byte :=
  padTo (requestLength (padTo 4 bs)) bs

/-- The first `k` bytes of a number, byte 0 the least significant. -/
def wordBytes : Nat → Nat → List Byte
  | 0, _ => []
  | k + 1, w => BitVec.ofNat 8 w :: wordBytes k (w / 256)

/-- The request of which spec/opcode_table.json numbers the bits `w` (bit 0 the least significant of
the opcode byte), `nbits` of them given, every later bit 0. -/
def wordRequest (nbits w : Nat) : List Byte := padRequest (wordBytes ((nbits + 7) / 8) w)

/-- The operation the decoder reads from such a request. -/
def decodeTableWord (nbits w : Nat) : Option Instr :=
  match decode (wordRequest nbits w) with
  | .ok i => some i
  | .error _ => none

end Sys2Proof
end

