-- ==== Sys2Proof/Config.lean ====
section
/-! DEFINITION. The parameters of the block that the spec leaves OPEN or forbids a model to fix
(00_scope R8; 30_encoding R95; decisions D13, D19, D20). Each is a constant without a body: no
proof can see its value. The parameters for which the spec decides a default stand in
Sys2Proof/Machine/Params.lean. -/

namespace Sys2Proof.Config

/-- `INV_NIB`: the nibble the decoder returns for a 5-bit code that is not in the code table, a
function of the code only (R95, 93_implementation_defined U1; notes/assumptions/5.md). -/
opaque invNib : Code → Nibble

/-- `REBASE_AMOUNT`, OPEN: what `CLK_REBASE` subtracts from every clock-stamped field (R8, R170;
decision D20). A clock quantity, so 32 bits (DEDUCED, notes/assumptions/6.md). -/
opaque rebaseAmount : Clk

/-- `ATTACH_SETTLE_CLKS`, OPEN: the length in ticks of the attach-settling window (R8, R222;
decision D19; notes/assumptions/6.md). -/
opaque attachSettleClks : Nat

/-- `DETACH_SETTLE_CLKS`, OPEN: the length of the detach-settling window. Only the host's
write-protect sense uses it; no operation of the block reads it (R8, R238; decision D19). -/
opaque detachSettleClks : Nat

end Sys2Proof.Config
end

