-- ==== Sys2Proof/Machine/Params.lean ====
section
/-! DEFINITION. The parameters of the block that have a value: those the source fixes (00_scope R7),
those the spec decides a default for (R8), and the quantities that follow from them (R9). -/

namespace Sys2Proof.Machine

open Sys2Proof

/-! ## Fixed by the source (R7) -/

/-- `MAX_HALF_TRACKS`: head positions. -/
def maxHalfTracks : Nat := 84

/-- `MAX_TRACKS`: physical tracks, numbered from 1. -/
def maxTracks : Nat := 42

/-- `MAX_BYTES_PER_TRACK`: capacity of one track slot. -/
def maxBytesPerTrack : Nat := 7928

/-- `TABLE_SIZE`: entries per zone of the rotation table. -/
def tableSize : Nat := 4096

/-- `CLOCK_HZ`: divisor of the table formula. -/
def clockHz : Nat := 1000000

/-- `HDR_MARKER`: first raw byte of a header block. -/
def hdrMarker : Byte := 0x08

/-- `DATA_MARKER`: first raw byte of a data block. -/
def dataMarker : Byte := 0x07

/-- `SYNC_BYTE`: the sync pattern as a byte. -/
def syncByte : Byte := 0xFF

/-- `RAW_BLOCK_LEN`: raw data block bytes. -/
def rawBlockLen : Nat := 260

/-- `GCR_BLOCK_LEN`: GCR data block bytes. -/
def gcrBlockLen : Nat := 325

/-- `DATA_SEARCH_GUARD`: non-sync bytes `find_sector_data` may skip. -/
def dataSearchGuard : Nat := 500

/-! ## Defaults the spec decides (R8): its own choice, not the source's -/

/-- `ACCUM_MAX` (D5; notes/assumptions/4.md). -/
def accumMax : Nat := 65536

/-- `ZONE_BPS[z]` (D6; notes/assumptions/4.md). -/
def zoneBps (z : BitVec 2) : Nat :=
  if z = 0 then 250000 else if z = 1 then 266667 else if z = 2 then 285714 else 307692

/-- `SYNC_LEN` (D16; notes/assumptions/9.md). -/
def syncLen : Nat := 5

/-- `HDR_GAP_LEN` (D16; notes/assumptions/9.md). -/
def hdrGapLen : Nat := 9

/-- `TAIL_GAP_LEN` (D16; notes/assumptions/9.md). -/
def tailGapLen : Nat := 6

/-- `GAP_BYTE` (D16; notes/assumptions/9.md). -/
def gapByte : Byte := 0x55

/-- `HDR_PAD` (D14; notes/assumptions/8.md). -/
def hdrPad : Byte := 0x0F

/-- `PCR_MODE_BIT`: 1 = Read, 0 = Write (D17; notes/assumptions/10.md). -/
def pcrModeBit : Nat := 5

/-- `PCR_BRE_BIT`: 1 = byte-ready enabled (D17; notes/assumptions/10.md). -/
def pcrBreBit : Nat := 1

/-- `DIR_TRACK`: the directory track (D21; notes/assumptions/11.md). -/
def dirTrack : Nat := 18

/-- `BYTE_READY_WRITE_GATED` (D9; notes/assumptions/12.md). -/
def byteReadyWriteGated : Bool := false

/-- The power-on value of `write_value` (10_state R45; notes/assumptions/3.md). -/
def powerOnWriteValue : Byte := 0x55

/-- `REBASE_AMOUNT`, OPEN (D20). -/
def rebaseAmount : Clk := Config.rebaseAmount

/-- `ATTACH_SETTLE_CLKS`, OPEN (D19). -/
def attachSettleClks : Nat := Config.attachSettleClks

/-! ## Quantities that follow (R9) -/

/-- `STORE_BYTES`: the capacity of `gcr_data` and of `speed_zone`. -/
def storeBytes : Nat := maxHalfTracks * maxBytesPerTrack

/-- `REACHABLE_BYTES`: the part of the store any rule can address (20_memory R62). -/
def reachableBytes : Nat := maxTracks * maxBytesPerTrack

/-- `HDR_GCR_LEN`: the GCR bytes of a header block. -/
def hdrGcrLen : Nat := 10

/-- `SECTOR_GCR_LEN`: the length of `ENCODE_SECTOR`'s result. -/
def sectorGcrLen : Nat := syncLen + hdrGcrLen + hdrGapLen + syncLen + gcrBlockLen + tailGapLen

end Sys2Proof.Machine
end

