-- ==== Sys2Proof/Machine/State.lean ====
section
/-! DEFINITION. The state of one GCR-RTC block: exactly the fields of 10_state R20, and the two ends
of its request port (notes/assumptions/1.md). -/

namespace Sys2Proof.Machine

open Sys2Proof

/-- A byte space of the Track Store (20_memory R60) as its non-zero bytes: (flat index, byte) pairs,
indices strictly rising, no byte 0x00. An unlisted index reads 0x00, the content of the store at
power-on and after `TS_CLEAR` (10_state R45, 41_track_store R146; notes/assumptions/16.md). -/
abbrev Memory := List Host.Cell

/-- What an unlisted index reads as. -/
abbrev unlistedByte : Byte := 0

/-- The transfer direction, `enum {Read, Write}` (10_state R31). -/
inductive Mode where
  | read
  | write
  deriving DecidableEq, Repr

/-- The closed set of reasons a request is refused for (60_exceptions R252). A refusal leaves the
block's state as it was and the run goes on, so it is a next state that shows the reason
(notes/assumptions/2.md). -/
inductive RefuseReason where
  /-- Raised by the request decoder: reserved opcode or wrong length. -/
  | badRequest
  /-- Raised by `TS_LOAD_TRACK` and `TS_READ_TRACK`: track outside 1..42. -/
  | badTrack
  /-- Raised by `TS_LOAD_TRACK`: size above 7928. -/
  | badSize
  /-- Raised by `TS_LOAD_TRACK`: a zone id above 3. -/
  | badZone
  /-- Raised by `CLK_REBASE`: a clock below `REBASE_AMOUNT`. -/
  | rebaseTooEarly
  /-- Raised by `SYNC_TO`: a clock below `rotation_last_clk`. -/
  | clockWentBack
  deriving DecidableEq, Repr

/-- The value an operation returns to the host (30_encoding R103, column "result"). -/
inductive Result where
  /-- The operation returns nothing. -/
  | noValue
  /-- A `u8`. -/
  | u8 (v : Byte)
  /-- A `bool`. -/
  | bool (b : Bool)
  /-- `bytes[k]`. -/
  | bytes (bs : List Byte)
  /-- `Option<u32>`: a byte offset on the track, or not found. -/
  | offset (o : Option Nat)
  /-- `TS_READ_TRACK`'s size, data and zones. -/
  | track (size : Nat) (data zones : List Byte)
  deriving DecidableEq, Repr

/-- The outcome of the last operation as the host sees it (00_scope R11). -/
inductive Response where
  /-- No operation has been served since power-on. -/
  | noneYet
  /-- Outcome `ok` with its result. -/
  | ok (r : Result)
  /-- Outcome `refuse(reason)`. -/
  | refused (why : RefuseReason)
  deriving DecidableEq, Repr

/-- Faults: none. "The block raises no exception, takes no trap" (60_exceptions R250; 00_scope R11:
"There is no fault outcome"). -/
inductive Fault where
  deriving DecidableEq, Repr

/-- Refusals of the MODEL. The spec's own refusals are next states (`RefuseReason`). -/
inductive Refusal where
  /-- Raised by an arm of `exec` whose operation has no meaning yet; no arm does. Safe: the model
  stops and claims nothing. -/
  | notModelled (mnemonic : String)
  deriving DecidableEq, Repr

/-- The state record `S` of 10_state R20, field for field, and the request port. -/
@[ext]
structure State where
  /-- `gcr_data` (R21). -/
  gcrData : Memory
  /-- `speed_zone` (R22). -/
  speedZone : Memory
  /-- `track_size`: element `t - 1` is track `t` (R23). -/
  trackSize : Vector Nat 42
  /-- `dirty` (R24). -/
  dirty : Bool
  /-- `current_half_track`, in [2, 84] (R25). -/
  currentHalfTrack : Nat
  /-- `head_offset` (R26). -/
  headOffset : Nat
  /-- `current_track_size`, the cache (R27). -/
  currentTrackSize : Nat
  /-- `bits_moved` (R29). -/
  bitsMoved : Nat
  /-- `accum`, in units of 1/`ACCUM_MAX` bit (R30). -/
  accum : Nat
  /-- `read_write_mode` (R31). -/
  readWriteMode : Mode
  /-- `finish_byte` (R32). -/
  finishByte : Bool
  /-- `last_mode` (R33). -/
  lastMode : Mode
  /-- `rotation_last_clk` (R34). -/
  rotationLastClk : Clk
  /-- `gcr_read`, the read latch (R35). -/
  gcrRead : Byte
  /-- `write_value`, the write latch (R36). -/
  writeValue : Byte
  /-- `byte_ready` (R37). -/
  byteReady : Bool
  /-- `motor_on` (R38). -/
  motorOn : Bool
  /-- `byte_ready_enable` (R38). -/
  byteReadyEnable : Bool
  /-- `zone` (R39). -/
  zone : BitVec 2
  /-- `attach_clk` (R40). -/
  attachClk : Clk
  /-- `attach_valid` (R40). -/
  attachValid : Bool
  /-- `detach_clk` (R40). -/
  detachClk : Clk
  /-- `detach_valid` (R40). -/
  detachValid : Bool
  /-- The model's own: requests the host has presented and the block has not yet taken, oldest first
  (30_encoding R101; notes/assumptions/1.md). -/
  requests : List (List Byte)
  /-- The model's own: the outcome of the last operation (00_scope R11; notes/assumptions/1.md). -/
  response : Response
  deriving DecidableEq, Repr

/-- What one step or one meaning answers. -/
abbrev StepOutcome := Host.Outcome State Fault Refusal

/-- Power-on (10_state R45, 70_reset_and_hazards R270; notes/assumptions/3.md). The `RESET`
operation is another thing (R46). -/
def State.reset : State where
  gcrData := []
  speedZone := []
  trackSize := Vector.replicate 42 0
  dirty := false
  currentHalfTrack := 2 * dirTrack
  headOffset := 0
  currentTrackSize := 0
  bitsMoved := 0
  accum := 0
  readWriteMode := .read
  finishByte := false
  lastMode := .read
  rotationLastClk := 0
  gcrRead := 0x00
  writeValue := powerOnWriteValue
  byteReady := false
  motorOn := false
  byteReadyEnable := false
  zone := 0
  attachClk := 0
  attachValid := false
  detachClk := 0
  detachValid := false
  requests := []
  response := .noneYet

end Sys2Proof.Machine
end

