-- ==== Sys2Proof/Machine/Ops.lean ====
section
/-! DEFINITION. The named operations the meanings are written over: the byte spaces of the Track
Store, the current track window, the head position, and the two ways an operation ends. -/

namespace Sys2Proof.Machine

open Sys2Proof

/-! ## A byte space -/

/-- `MemRead(a, 1)`: the byte at flat index `a` (00_scope R14). -/
def memRead : Memory → Nat → Byte
  | [], _ => unlistedByte
  | c :: m, a => if a = c.1 then c.2 else memRead m a

/-- A listed byte put before `m`, or nothing when it is what an unlisted index reads as. -/
def memCons (a : Nat) (v : Byte) (m : Memory) : Memory :=
  if v = unlistedByte then m else (a, v) :: m

/-- `MemWrite(a, 1, v)` (00_scope R14), keeping the canonical form. -/
def memWrite : Memory → Nat → Byte → Memory
  | [], a, v => memCons a v []
  | c :: m, a, v =>
    if a < c.1 then memCons a v (c :: m)
    else if a = c.1 then memCons a v m
    else c :: memWrite m a v

/-- The cells of the bytes `bs` laid from flat index `a` on. -/
def memCells : Nat → List Byte → Memory
  | _, [] => []
  | a, b :: bs => memCons a b (memCells (a + 1) bs)

/-- The slot of 7928 bytes at base `b` filled with `bs` and, beyond them, with 0x00 (R145). -/
def memLoadSlot (m : Memory) (b : Nat) (bs : List Byte) : Memory :=
  m.filter (fun c => decide (c.1 < b)) ++
    (memCells b bs ++ m.filter (fun c => decide (b + maxBytesPerTrack ≤ c.1)))

/-- The `k` bytes from flat index `a` on. -/
def memReadN (m : Memory) (a k : Nat) : List Byte :=
  (List.range k).map (fun i => memRead m (a + i))

/-- The canonical form of a byte space: indices strictly rising, no byte listed that an unlisted
index would read as. -/
def Memory.wf : Memory → Bool
  | [] => true
  | c :: m => c.2 != unlistedByte && (m.all (fun d => decide (c.1 < d.1)) && Memory.wf m)

/-! ## Slots and the current track window (20_memory R61 to R67) -/

/-- `Base(t)`, the flat index of track `t`'s slot (R61). -/
def slotBase (t : Nat) : Nat := (t - 1) * maxBytesPerTrack

/-- `Flat(h, o)`, the flat index of offset `o` on half-track `h` (R61). -/
def flatIndex (h o : Nat) : Nat := (h / 2 - 1) * maxBytesPerTrack + o

/-- `cur_track(S)`: an odd half-track names the track of the even one below it (10_state R25). -/
def curTrack (s : State) : Nat := s.currentHalfTrack / 2

/-- `CurBase(S)` (R61). -/
def curBase (s : State) : Nat := slotBase (curTrack s)

/-- `track_size[t]` (10_state R23). -/
def trackSizeOf (s : State) (t : Nat) : Nat := s.trackSize.getD (t - 1) 0

/-- `TrkRead(o)` (R64): the one helper every head-relative or track-absolute read goes through. -/
def trkRead (s : State) (o : Nat) : Byte :=
  if s.currentTrackSize = 0 then syncByte
  else memRead s.gcrData (curBase s + o % s.currentTrackSize)

/-- `TrkWrite(o, v)` (R65): `dirty` is set even where the byte is discarded. -/
def trkWrite (o : Nat) (v : Byte) (s : State) : State :=
  { s with
    dirty := true
    gcrData :=
      if s.currentTrackSize = 0 then s.gcrData
      else memWrite s.gcrData (curBase s + o % s.currentTrackSize) v }

/-- `NextOff(o)` (R66). -/
def nextOff (s : State) (o : Nat) : Nat :=
  if s.currentTrackSize = 0 then 0 else (o + 1) % s.currentTrackSize

/-- `PrevOff(o)` (R66). -/
def prevOff (s : State) (o : Nat) : Nat :=
  if s.currentTrackSize = 0 then 0
  else (o + s.currentTrackSize - 1) % s.currentTrackSize

/-- `TrkReadN(o, k)` (R67). -/
def trkReadN (s : State) (o k : Nat) : List Byte :=
  (List.range k).map (fun i => trkRead s (o + i))

/-! ## The head position (41_track_store R140) -/

/-- The clamp of an unbounded integer to [2, 84] (R140, 47_semantic_laws R240). -/
def clampHalfTrack (n : Int) : Nat :=
  if n < 2 then 2 else if 84 < n then 84 else n.toNat

/-- The three fields a head movement writes: `SET_HALF_TRACK`'s pseudocode (R140). -/
def positionHead (n : Int) (s : State) : State :=
  { s with
    currentHalfTrack := clampHalfTrack n
    headOffset := 0
    currentTrackSize := trackSizeOf s (clampHalfTrack n / 2) }

/-! ## How an operation ends (00_scope R11)

The block has no exception to take and none to return from (60_exceptions R250, R258). What stands
in their place is the refusal. -/

/-- Outcome `ok` with a result. -/
def respond (r : Result) (s : State) : State := { s with response := .ok r }

/-- Outcome `refuse(reason)`: the state is unchanged, nothing is recorded, no result is returned
(60_exceptions R252); the host sees the reason. -/
def refuse (why : RefuseReason) (s : State) : State := { s with response := .refused why }

/-- A result as the bytes the port returns: multi-byte values little-endian, `None` as 0xFFFFFFFF
(30_encoding R104, D38); a `bool` as one byte, 1 or 0 (notes/assumptions/18.md). -/
def resultBytes : Result → List Byte
  | .noValue => []
  | .u8 v => [v]
  | .bool b => [byteOfBool b]
  | .bytes bs => bs
  | .offset none => bytesOf32 0xFFFFFFFF#32
  | .offset (some p) => bytesOf32 (BitVec.ofNat 32 p)
  | .track size data zones => bytesOf16 (BitVec.ofNat 16 size) ++ (data ++ zones)

end Sys2Proof.Machine
end

