-- ==== Sys2Proof/Machine/Codec.lean ====
section
/-! DEFINITION. The GCR codec: the code table, groups, blocks and sectors of 30_encoding part A, and
the meanings of `GCR_ENC4`, `GCR_DEC5`, `ENCODE_SECTOR`, `DECODE_SECTOR` (40_gcr_codec). -/

namespace Sys2Proof.Machine

open Sys2Proof

/-! ## The code table (R91, R92) -/

/-- `GcrEnc` as a list indexed by nibble (R91; D12; notes/assumptions/7.md). -/
def gcrEncTable : List Code :=
  [0x0A, 0x0B, 0x12, 0x13, 0x0E, 0x0F, 0x16, 0x17, 0x09, 0x19, 0x1A, 0x1B, 0x0D, 0x1D, 0x1E, 0x15]

/-- `GcrEnc : nibble -> code`. -/
def gcrEnc (n : Nibble) : Code := gcrEncTable.getD n.toNat 0

/-- `GcrDec` as a list indexed by code, `none` for a reserved code (R92, R95). -/
def gcrDecTable : List (Option Nibble) :=
  [none, none, none, none, none, none, none, none,
   none, some 0x8, some 0x0, some 0x1, none, some 0xC, some 0x4, some 0x5,
   none, none, some 0x2, some 0x3, none, some 0xF, some 0x6, some 0x7,
   none, some 0x9, some 0xA, some 0xB, none, some 0xD, some 0xE, none]

/-- `GcrDec : code -> nibble`, total: a reserved code gives `INV_NIB` of it, a free value
(R92, R95; notes/assumptions/5.md). -/
def gcrDec (c : Code) : Nibble :=
  match gcrDecTable.getD c.toNat none with
  | some n => n
  | none => Config.invNib c

/-! ## The group (R93, R124, R125) -/

/-- `hi(b) = b[7:4]`. -/
def hiNibble (b : Byte) : Nibble := b.extractLsb' 4 4

/-- `lo(b) = b[3:0]`. -/
def loNibble (b : Byte) : Nibble := b.extractLsb' 0 4

/-- The 40-bit string of a raw group: the eight codes, high nibble first, the first code in the most
significant place (R93). -/
def groupCodes (r : RawGroup) : BitVec 40 :=
  gcrEnc (hiNibble r.r0) ++ gcrEnc (loNibble r.r0) ++ gcrEnc (hiNibble r.r1) ++
    gcrEnc (loNibble r.r1) ++ gcrEnc (hiNibble r.r2) ++ gcrEnc (loNibble r.r2) ++
    gcrEnc (hiNibble r.r3) ++ gcrEnc (loNibble r.r3)

/-- `Enc4`: `g[k] = G[39 - 8k : 32 - 8k]` (R93, R124). -/
def enc4 (r : RawGroup) : GcrGroup where
  g0 := (groupCodes r).extractLsb' 32 8
  g1 := (groupCodes r).extractLsb' 24 8
  g2 := (groupCodes r).extractLsb' 16 8
  g3 := (groupCodes r).extractLsb' 8 8
  g4 := (groupCodes r).extractLsb' 0 8

/-- The 40-bit string of a GCR group, `g[0]` most significant (R125). -/
def groupBits (g : GcrGroup) : BitVec 40 := g.g0 ++ g.g1 ++ g.g2 ++ g.g3 ++ g.g4

/-- Nibble `i` of a GCR group: `GcrDec(G[39 - 5i : 35 - 5i])` (R125). -/
def groupNibble (g : GcrGroup) (i : Nat) : Nibble :=
  gcrDec ((groupBits g).extractLsb' (35 - 5 * i) 5)

/-- `Dec5`: `r[k] = n[2k] ++ n[2k+1]` (R125). -/
def dec5 (g : GcrGroup) : RawGroup where
  r0 := groupNibble g 0 ++ groupNibble g 1
  r1 := groupNibble g 2 ++ groupNibble g 3
  r2 := groupNibble g 4 ++ groupNibble g 5
  r3 := groupNibble g 6 ++ groupNibble g 7

/-- The bytes of a raw group in index order. -/
def rawBytes (r : RawGroup) : List Byte := [r.r0, r.r1, r.r2, r.r3]

/-- The bytes of a GCR group in index order. -/
def gcrBytes (g : GcrGroup) : List Byte := [g.g0, g.g1, g.g2, g.g3, g.g4]

/-- `Enc`: every 4 raw bytes into 5 GCR bytes; whole groups only (R124). -/
def encBytes : List Byte → List Byte
  | a :: b :: c :: d :: rest => gcrBytes (enc4 ⟨a, b, c, d⟩) ++ encBytes rest
  | _ => []

/-- `Dec`: every 5 GCR bytes into 4 raw bytes; whole groups only (R125). -/
def decBytes : List Byte → List Byte
  | a :: b :: c :: d :: e :: rest => rawBytes (dec5 ⟨a, b, c, d, e⟩) ++ decBytes rest
  | _ => []

/-! ## Blocks and the sector (R97 to R100) -/

/-- `DataCk(payload)`: the exclusive-or of the payload bytes (R100). -/
def dataCk (payload : List Byte) : Byte := payload.foldl (· ^^^ ·) 0

/-- `HdrCk` (R100; D14; notes/assumptions/8.md). -/
def hdrCk (track sector id1 id2 : Byte) : Byte := sector ^^^ track ^^^ id1 ^^^ id2

/-- `HdrRaw`: the 8 raw bytes of a header block (R97; D14). -/
def hdrRaw (track sector id1 id2 : Byte) : List Byte :=
  [hdrMarker, hdrCk track sector id1 id2, sector, track, id1, id2, hdrPad, hdrPad]

/-- `DataRaw`: the raw bytes of a data block (R98; D15). -/
def dataRaw (payload : List Byte) : List Byte :=
  dataMarker :: (payload ++ [dataCk payload, 0x00, 0x00])

/-- The on-track image of a sector (R99, R122). -/
def sectorImage (track sector id1 id2 : Byte) (payload : List Byte) : List Byte :=
  List.replicate syncLen syncByte ++ (encBytes (hdrRaw track sector id1 id2) ++
    (List.replicate hdrGapLen gapByte ++ (List.replicate syncLen syncByte ++
      (encBytes (dataRaw payload) ++ List.replicate tailGapLen gapByte))))

/-! ## The operations -/

/-- `GCR_ENC4` (R120). -/
def execGcrEnc4 (raw : RawGroup) (s : State) : StepOutcome :=
  .next (respond (.bytes (gcrBytes (enc4 raw))) s)

/-- `GCR_DEC5` (R121): an invalid code is not reported. -/
def execGcrDec5 (gcr : GcrGroup) (s : State) : StepOutcome :=
  .next (respond (.bytes (rawBytes (dec5 gcr))) s)

/-- `ENCODE_SECTOR` (R122): no operand is range-checked. -/
def execEncodeSector (track sector id1 id2 : Byte) (payload : List Byte) (s : State) :
    StepOutcome :=
  .next (respond (.bytes (sectorImage track sector id1 id2 payload)) s)

/-- `DECODE_SECTOR` (R123): the 325 bytes from the offset, wrapping, decoded and not checked. -/
def execDecodeSector (offset : U32) (s : State) : StepOutcome :=
  .next (respond (.bytes (decBytes (trkReadN s offset.toNat gcrBlockLen))) s)

end Sys2Proof.Machine
end

