-- ==== Sys2Proof/Machine/Locator.lean ====
section
/-! DEFINITION. The Sector Locator: the scans of 43_sector_locator and the meanings of
`FIND_SECTOR_HEADER` and `FIND_SECTOR_DATA` (R190, R191). It reads the current track window only and
writes no state. The counters called `fuel` bound the loops; none ever runs out before the rule's
own guard ends the loop. -/

namespace Sys2Proof.Machine

open Sys2Proof

/-! ## FIND_SECTOR_HEADER (R190; details decided in D23, notes/assumptions/15.md) -/

/-- Step (a): skip non-sync bytes from `p`; the scan does not wrap, reaching the end is "not
found". -/
def skipToSync (s : State) : Nat → Nat → Option Nat
  | 0, _ => none
  | fuel + 1, p =>
    if trkRead s p = syncByte then some p
    else if s.currentTrackSize ≤ p + 1 then none
    else skipToSync s fuel (p + 1)

/-- Where the header scan stands: the offset, whether it has wrapped, and the sync bytes skipped in
the whole call. -/
structure ScanPoint where
  p : Nat
  wrapped : Bool
  syncCount : Nat
  deriving DecidableEq, Repr

/-- One offset further, wrapping at the track end and remembering it. -/
def scanNext (s : State) (a : ScanPoint) : ScanPoint :=
  if s.currentTrackSize ≤ a.p + 1 then { a with p := 0, wrapped := true }
  else { a with p := a.p + 1 }

/-- Step (b): skip the sync run; the killer-track guard gives up when the call has skipped as many
sync bytes as the track has bytes. -/
def skipSyncRun (s : State) : Nat → ScanPoint → Option ScanPoint
  | 0, _ => none
  | fuel + 1, a =>
    if trkRead s a.p ≠ syncByte then some a
    else if s.currentTrackSize ≤ a.syncCount + 1 then none
    else skipSyncRun s fuel { scanNext s a with syncCount := a.syncCount + 1 }

/-- Step (c): the 5 bytes of a group from the scan point on, wrapping. -/
def scanGroup (s : State) (a : ScanPoint) : GcrGroup × ScanPoint :=
  let a1 := scanNext s a
  let a2 := scanNext s a1
  let a3 := scanNext s a2
  let a4 := scanNext s a3
  (⟨trkRead s a.p, trkRead s a1.p, trkRead s a2.p, trkRead s a3.p, trkRead s a4.p⟩, scanNext s a4)

/-- Step (d): the decoded marker, sector and track match; the checksum is not looked at. -/
def headerMatches (track sector : Byte) (r : RawGroup) : Bool :=
  r.r0 == hdrMarker && (r.r2 == sector && r.r3 == track)

/-- The outer loop: one candidate per round until a match, the end of the scan, or one full wrap. -/
def headerScan (s : State) (track sector : Byte) : Nat → ScanPoint → Option Nat
  | 0, _ => none
  | fuel + 1, a =>
    if s.currentTrackSize ≤ a.p ∨ a.wrapped then none
    else
      match skipToSync s (s.currentTrackSize - a.p) a.p with
      | none => none
      | some p =>
        match skipSyncRun s (s.currentTrackSize + 1) { a with p := p } with
        | none => none
        | some b =>
          if headerMatches track sector (dec5 (scanGroup s b).1) then some (scanGroup s b).2.p
          else headerScan s track sector fuel (scanGroup s b).2

/-- The result of `FIND_SECTOR_HEADER`: the offset just after the matching header group. -/
def findHeader (s : State) (track sector : Byte) : Option Nat :=
  headerScan s track sector (s.currentTrackSize + 1) ⟨0, false, 0⟩

/-! ## FIND_SECTOR_DATA (R191; D22, D35) -/

/-- Step (a): skip non-sync bytes, wrapping; the 500th one skipped is "not found". -/
def skipGap (s : State) : Nat → Nat → Option Nat
  | 0, _ => none
  | fuel + 1, p => if trkRead s p = syncByte then some p else skipGap s fuel (nextOff s p)

/-- Step (b): skip the sync run, wrapping; `currentTrackSize` sync bytes skipped is "not found". -/
def skipDataSync (s : State) : Nat → Nat → Option Nat
  | 0, _ => none
  | fuel + 1, p => if trkRead s p ≠ syncByte then some p else skipDataSync s fuel (nextOff s p)

/-- The result of `FIND_SECTOR_DATA`: the first offset after the next sync run. -/
def findData (s : State) (offset : Nat) : Option Nat :=
  if s.currentTrackSize = 0 then none
  else
    match skipGap s dataSearchGuard (offset % s.currentTrackSize) with
    | none => none
    | some p => skipDataSync s s.currentTrackSize p

/-! ## The operations -/

/-- `FIND_SECTOR_HEADER` (R190). -/
def execFindSectorHeader (track sector : Byte) (s : State) : StepOutcome :=
  .next (respond (.offset (findHeader s track sector)) s)

/-- `FIND_SECTOR_DATA` (R191). -/
def execFindSectorData (offset : U32) (s : State) : StepOutcome :=
  .next (respond (.offset (findData s offset.toNat)) s)

end Sys2Proof.Machine
end

