-- ==== Sys2Proof/Machine/Operands.lean ====
section
/-! DEFINITION. How the operations narrow their operands after decoding (30_encoding R102: "operands
are narrowed by the operation, never by the format"). -/

namespace Sys2Proof.Machine

open Sys2Proof

/-- An `i32` operand as an integer: two's complement (R102). -/
def intOf32 (x : U32) : Int := x.toInt

/-- `UPDATE_ZONE_BITS` keeps `v[1:0]` (10_state R42; D18; notes/assumptions/10.md). -/
def zoneOfOperand (v : Byte) : BitVec 2 := v.extractLsb' 0 2

/-- The mode `UPDATE_PCR` derives: Read if bit `PCR_MODE_BIT` is 1, else Write (10_state R42). -/
def pcrMode (v : Byte) : Mode := if v.getLsbD pcrModeBit then .read else .write

/-- The byte-ready enable `UPDATE_PCR` derives (10_state R42). -/
def pcrEnable (v : Byte) : Bool := v.getLsbD pcrBreBit

/-- A track number operand that names a track, `1 <= t <= 42` (41_track_store R145, R149). -/
def isTrack (t : Byte) : Bool := decide (1 ≤ t.toNat ∧ t.toNat ≤ maxTracks)

/-- Some of the zone ids is above 3 (41_track_store R145). -/
def someBadZone (zones : List Byte) : Bool := zones.any (fun z => decide (3 < z.toNat))

end Sys2Proof.Machine
end

