-- ==== Sys2Proof/Machine/Flags.lean ====
section
/-! DEFINITION. The flags of the block (10_state R41): how `byte_ready` is re-armed and shown, the
computed sync condition, and the enable both depend on. No flag is set by arithmetic. -/

namespace Sys2Proof.Machine

open Sys2Proof

/-- `rotating(S)`: motor on and byte-ready enabled (10_state R38). -/
def rotating (s : State) : Bool := s.motorOn && s.byteReadyEnable

/-- The engine state, a function of three control bits (10_state R38, 42_rotation_engine R171). -/
inductive EngineState where
  | idle
  | rotatingRead
  | rotatingWrite
  deriving DecidableEq, Repr

/-- Which engine state the control bits give. -/
def engineState (s : State) : EngineState :=
  if rotating s then
    match s.readWriteMode with
    | .read => .rotatingRead
    | .write => .rotatingWrite
  else .idle

/-- `SyncNow(S)`: the byte at the head and the one before it are sync bytes, in Read mode only
(42_rotation_engine R168). -/
def syncNow (s : State) : Bool :=
  s.readWriteMode == .read && (trkRead s s.headOffset == syncByte &&
    trkRead s (prevOff s s.headOffset) == syncByte)

/-- Whether step 6 of `ADVANCE` arms the flag (R166). -/
def armsByteReady (s : State) : Bool :=
  (s.readWriteMode == .write && !byteReadyWriteGated) || trkRead s s.headOffset != syncByte

/-- `ReArm()`: step 6; it never clears the flag (R166). -/
def reArm (s : State) : State := { s with byteReady := s.byteReady || armsByteReady s }

/-- The byte-ready line the host polls (60_exceptions R254). -/
def byteReadyLine (s : State) : Bool := rotating s && s.byteReady

end Sys2Proof.Machine
end

