-- ==== Sys2Proof/Machine/Engine.lean ====
section
/-! DEFINITION. The Rotation Engine's shared operations: the speed-zone table, `Integrate`, `Commit`,
the `ADVANCE` core and the micro-operation `SYNC_TO` (42_rotation_engine R160 to R167). -/

namespace Sys2Proof.Machine

open Sys2Proof

/-! ## The rotation table (R160), a pure function -/

/-- `TBITS(z, j)`: whole bits in `j` ticks. -/
def tBits (z : BitVec 2) (j : Nat) : Nat := j * zoneBps z / clockHz

/-- `TFRAC(z, j)`: the fraction of a bit that remains, in units of 1/`ACCUM_MAX`. -/
def tFrac (z : BitVec 2) (j : Nat) : Nat := j * zoneBps z % clockHz * accumMax / clockHz

/-! ## Integration (R162) -/

/-- One table application on (bits, accum), with its carries: while `accum >= ACCUM_MAX`, subtract
`ACCUM_MAX` and count one bit more, which is quotient and remainder. -/
def applyEntry (z : BitVec 2) (j : Nat) (r : Nat × Nat) : Nat × Nat :=
  (r.1 + tBits z j + (r.2 + tFrac z j) / accumMax, (r.2 + tFrac z j) % accumMax)

/-- The chunk applied when `d` ticks remain: the last entry while at least a table span remains
(D7; notes/assumptions/13.md). -/
def chunk (d : Nat) : Nat := if tableSize ≤ d then tableSize - 1 else d

/-- The loop of `Integrate`, at most `fuel` table applications. -/
def integrateLoop (z : BitVec 2) : Nat → Nat → Nat × Nat → Nat × Nat
  | 0, _, r => r
  | fuel + 1, d, r =>
    if d = 0 then r else integrateLoop z fuel (d - chunk d) (applyEntry z (chunk d) r)

/-- `Integrate(delta)` from an accumulator: the new bits and the accumulator after. It runs at most
`delta div 4095 + 1` iterations (R161). -/
def integrate (z : BitVec 2) (delta accum : Nat) : Nat × Nat :=
  integrateLoop z (delta / (tableSize - 1) + 1) delta (0, accum)

/-! ## Commits (R164, R165) -/

/-- `Commit(m)`: a write stores at the head and then moves it; a read moves the head and latches the
byte at the new position. -/
def commit (m : Mode) (s : State) : State :=
  match m with
  | .write =>
    { trkWrite s.headOffset s.writeValue s with
      headOffset := nextOff s s.headOffset
      bitsMoved := s.bitsMoved - 8 }
  | .read =>
    { s with
      headOffset := nextOff s s.headOffset
      gcrRead := trkRead s (nextOff s s.headOffset)
      bitsMoved := s.bitsMoved - 8 }

/-- Commits under the current mode while at least 8 bits are there, at most `fuel` of them. -/
def commitLoop : Nat → State → State
  | 0, s => s
  | fuel + 1, s => if 8 ≤ s.bitsMoved then commitLoop fuel (commit s.readWriteMode s) else s

/-- A pending mode flip: exactly one byte under the previous mode, and the flip is done (R165). -/
def finishPending (s : State) : State :=
  if s.finishByte then
    { commit s.lastMode s with finishByte := false, lastMode := s.readWriteMode }
  else s

/-- Steps 5 and 6 of `ADVANCE`: nothing below 8 bits; otherwise the pending byte, the rest under the
current mode, and the re-arm. -/
def commitBytes (s : State) : State :=
  if 8 ≤ s.bitsMoved then
    reArm (commitLoop ((finishPending s).bitsMoved / 8) (finishPending s))
  else s

/-- Steps 3 and 4 of `ADVANCE`: the new bits are counted once (R163). -/
def integrateInto (delta : Nat) (s : State) : State :=
  { s with
    bitsMoved := s.bitsMoved + (integrate s.zone delta s.accum).1
    accum := (integrate s.zone delta s.accum).2 }

/-- `ADVANCE(delta, mode_changed)` (R161), as the operation and every `SYNC_TO` run it. -/
def advanceCore (delta : Nat) (modeChanged : Bool) (s : State) : State :=
  if modeChanged then { s with finishByte := true }
  else if rotating s then commitBytes (integrateInto delta s)
  else s

/-! ## The host clock (R167) -/

/-- `SYNC_TO(clk)` for a clock that has not gone back: integrate up to `clk`; `rotation_last_clk`
follows also when the engine is Idle (D3). -/
def syncTo (clk : Clk) (s : State) : State :=
  { advanceCore (clk.toNat - s.rotationLastClk.toNat) false s with rotationLastClk := clk }

/-- The common prologue of the clocked operations (45_drive_session_api R221): refused with
`ClockWentBack` on a clock below `rotation_last_clk`, otherwise `SYNC_TO(clk)` and then the rest. -/
def clocked (clk : Clk) (rest : State → State) (s : State) : State :=
  if clk.toNat < s.rotationLastClk.toNat then refuse .clockWentBack s else rest (syncTo clk s)

end Sys2Proof.Machine
end

