-- ==== Sys2Proof/Machine/Rotation.lean ====
section
/-! DEFINITION. The meanings of the Rotation Engine's operations (42_rotation_engine R161, R169,
R170). -/

namespace Sys2Proof.Machine

open Sys2Proof

/-- `ADVANCE` (R161): test access to the core; `rotation_last_clk` is not written. -/
def execAdvance (delta : U32) (modeChanged : Bool) (s : State) : StepOutcome :=
  .next (respond .noValue (advanceCore delta.toNat modeChanged s))

/-- `SYNC_FOUND` (R169). -/
def execSyncFound (clk : Clk) (s : State) : StepOutcome :=
  .next (clocked clk (fun s1 => respond (.bool (syncNow s1)) s1) s)

/-- A recorded timestamp lowered by `REBASE_AMOUNT`, saturating at 0 (R170; D20). -/
def lowerClk (c : Clk) : Clk := BitVec.ofNat 32 (c.toNat - rebaseAmount.toNat)

/-- The three clock-stamped fields lowered, a timestamp only if it is recorded (R170). -/
def lowerClocks (clk : Clk) (s : State) : State :=
  { s with
    rotationLastClk := lowerClk clk
    attachClk := if s.attachValid then lowerClk s.attachClk else s.attachClk
    detachClk := if s.detachValid then lowerClk s.detachClk else s.detachClk }

/-- `CLK_REBASE` (R170): the test on `REBASE_AMOUNT` precedes `SYNC_TO` (60_exceptions R257). -/
def execClkRebase (clk : Clk) (s : State) : StepOutcome :=
  .next
    (if clk.toNat < rebaseAmount.toNat then refuse .rebaseTooEarly s
    else clocked clk (fun s1 => respond .noValue (lowerClocks clk s1)) s)

end Sys2Proof.Machine
end

