-- ==== Sys2Proof/Machine/Session.lean ====
section
/-! DEFINITION. The meanings of the byte-level interface (45_drive_session_api R222 to R232) and of
`RESET` (70_reset_and_hazards R271). -/

namespace Sys2Proof.Machine

open Sys2Proof

/-- The attach-settling window of `READ_DISK_BYTE`; the sum is unbounded (R222, 47_semantic_laws
R240; D19). -/
abbrev inAttachWindow (clk : Clk) (s : State) : Prop :=
  s.attachValid = true ∧ clk.toNat < s.attachClk.toNat + attachSettleClks

/-- `READ_DISK_BYTE` (R222): inside the window 0 and nothing else, not even the clock test. -/
def execReadDiskByte (clk : Clk) (s : State) : StepOutcome :=
  .next
    (if inAttachWindow clk s then respond (.u8 0x00) s
    else clocked clk (fun s1 => respond (.u8 s1.gcrRead) s1) s)

/-- `WRITE_GCR` (R223): bytes its own `SYNC_TO` commits still use the old value. -/
def execWriteGcr (clk : Clk) (value : Byte) (s : State) : StepOutcome :=
  .next (clocked clk (fun s1 => respond .noValue { s1 with writeValue := value }) s)

/-- `BYTE_READY` (R224): the line's value; reading clears nothing. -/
def execByteReady (clk : Clk) (s : State) : StepOutcome :=
  .next (clocked clk (fun s1 => respond (.bool (byteReadyLine s1)) s1) s)

/-- `SET_BYTE_READY` (R225): the only way the flag becomes false. -/
def execSetByteReady (flag : Bool) (s : State) : StepOutcome :=
  .next (respond .noValue { s with byteReady := flag })

/-- `MOVE_HEAD` (R226): the sum is an unbounded integer, then clamped. -/
def execMoveHead (step : U32) (s : State) : StepOutcome :=
  .next (respond .noValue (positionHead ((s.currentHalfTrack : Int) + intOf32 step) s))

/-- `UPDATE_ZONE_BITS` (R227): ticks up to `clk` are integrated at the old zone's rate. -/
def execUpdateZoneBits (clk : Clk) (v : Byte) (s : State) : StepOutcome :=
  .next (clocked clk (fun s1 => respond .noValue { s1 with zone := zoneOfOperand v }) s)

/-- `MOTOR_CONTROL` (R228). -/
def execMotorControl (clk : Clk) (flag : Bool) (s : State) : StepOutcome :=
  .next (clocked clk (fun s1 => respond .noValue { s1 with motorOn := flag }) s)

/-- The control write of `UPDATE_PCR` after its `SYNC_TO`: a mode that changes raises the mode-change
signal, `ADVANCE(0, true)` (R229). -/
def writePcr (v : Byte) (s : State) : State :=
  if pcrMode v = s.readWriteMode then { s with byteReadyEnable := pcrEnable v }
  else
    advanceCore 0 true { s with byteReadyEnable := pcrEnable v, readWriteMode := pcrMode v }

/-- `UPDATE_PCR` (R229). -/
def execUpdatePcr (clk : Clk) (v : Byte) (s : State) : StepOutcome :=
  .next (clocked clk (fun s1 => respond .noValue (writePcr v s1)) s)

/-- `NOTE_ATTACH` (R231): records only. -/
def execNoteAttach (clk : Clk) (s : State) : StepOutcome :=
  .next (respond .noValue { s with attachClk := clk, attachValid := true })

/-- `NOTE_DETACH` (R232): records only. -/
def execNoteDetach (clk : Clk) (s : State) : StepOutcome :=
  .next (respond .noValue { s with detachClk := clk, detachValid := true })

/-- `RESET` (R271): the head to the directory track, nothing else. -/
def execReset (s : State) : StepOutcome :=
  .next (respond .noValue (positionHead (2 * (dirTrack : Int)) s))

end Sys2Proof.Machine
end

