-- ==== Sys2Proof/Machine/TrackStore.lean ====
section
/-! DEFINITION. The meanings of the Track Store operations (41_track_store R140 to R149). -/

namespace Sys2Proof.Machine

open Sys2Proof

/-- `SET_HALF_TRACK` (R140). -/
def execSetHalfTrack (n : U32) (s : State) : StepOutcome :=
  .next (respond .noValue (positionHead (intOf32 n) s))

/-- `READ_BYTE_AT` (R141): the offset is absolute within the track. -/
def execReadByteAt (offset : U32) (s : State) : StepOutcome :=
  .next (respond (.u8 (trkRead s offset.toNat)) s)

/-- `WRITE_BYTE_AT` (R142). -/
def execWriteByteAt (offset : U32) (value : Byte) (s : State) : StepOutcome :=
  .next (respond .noValue (trkWrite offset.toNat value s))

/-- The slot, its zones and the size `TS_LOAD_TRACK` writes once accepted (R145); neither `dirty` nor
the cached size is touched. -/
def loadTrack (t size : Nat) (data zones : List Byte) (s : State) : State :=
  { s with
    gcrData := memLoadSlot s.gcrData (slotBase t) (data.take size)
    speedZone := memLoadSlot s.speedZone (slotBase t) (zones.take size)
    trackSize := s.trackSize.setIfInBounds (t - 1) size }

/-- `TS_LOAD_TRACK` (R145), its checks in the order of 60_exceptions R252. -/
def execTsLoadTrack (t : Byte) (size : U16) (data zones : List Byte) (s : State) : StepOutcome :=
  .next
    (if isTrack t = false then refuse .badTrack s
    else if maxBytesPerTrack < size.toNat then refuse .badSize s
    else if someBadZone (zones.take size.toNat) then refuse .badZone s
    else respond .noValue (loadTrack t.toNat size.toNat data zones s))

/-- `TS_CLEAR` (R146): the cache and all Rotation State stay. -/
def execTsClear (s : State) : StepOutcome :=
  .next (respond .noValue
    { s with gcrData := [], speedZone := [], trackSize := Vector.replicate 42 0, dirty := false })

/-- `CLEAR_DIRTY` (R147). -/
def execClearDirty (s : State) : StepOutcome :=
  .next (respond .noValue { s with dirty := false })

/-- `GET_DIRTY` (R148). -/
def execGetDirty (s : State) : StepOutcome :=
  .next (respond (.bool s.dirty) s)

/-- `TS_READ_TRACK` (R149): the whole slot, bytes beyond the size as stored
(notes/assumptions/17.md). -/
def execTsReadTrack (t : Byte) (s : State) : StepOutcome :=
  .next
    (if isTrack t = false then refuse .badTrack s
    else respond (.track (trackSizeOf s t.toNat)
      (memReadN s.gcrData (slotBase t.toNat) maxBytesPerTrack)
      (memReadN s.speedZone (slotBase t.toNat) maxBytesPerTrack)) s)

end Sys2Proof.Machine
end

