-- ==== Sys2Proof/Machine/Dispatch.lean ====
section
/-! DEFINITION. The dispatcher: one arm per operation of spec/opcode_table.json. -/

namespace Sys2Proof.Machine

open Sys2Proof

def exec (i : Instr) (s : State) : Host.Outcome State Fault Refusal :=
  match i with
  -- CODEC (40_gcr_codec)
  | .gcrEnc4 raw => Sys2Proof.Machine.execGcrEnc4 raw s
  | .gcrDec5 gcr => Sys2Proof.Machine.execGcrDec5 gcr s
  | .encodeSector track sector id1 id2 payload => Sys2Proof.Machine.execEncodeSector track sector id1 id2 payload s
  | .decodeSector offset => Sys2Proof.Machine.execDecodeSector offset s
  -- TSTORE (41_track_store)
  | .setHalfTrack n => Sys2Proof.Machine.execSetHalfTrack n s
  | .readByteAt offset => Sys2Proof.Machine.execReadByteAt offset s
  | .writeByteAt offset value => Sys2Proof.Machine.execWriteByteAt offset value s
  | .tsLoadTrack t size data zones => Sys2Proof.Machine.execTsLoadTrack t size data zones s
  | .tsClear => Sys2Proof.Machine.execTsClear s
  | .clearDirty => Sys2Proof.Machine.execClearDirty s
  | .getDirty => Sys2Proof.Machine.execGetDirty s
  | .tsReadTrack t => Sys2Proof.Machine.execTsReadTrack t s
  -- ROT (42_rotation_engine)
  | .advance delta modeChanged => Sys2Proof.Machine.execAdvance delta modeChanged s
  | .syncFound clk => Sys2Proof.Machine.execSyncFound clk s
  | .clkRebase clk => Sys2Proof.Machine.execClkRebase clk s
  -- LOC (43_sector_locator)
  | .findSectorHeader track sector => Sys2Proof.Machine.execFindSectorHeader track sector s
  | .findSectorData offset => Sys2Proof.Machine.execFindSectorData offset s
  -- The byte-level interface (45_drive_session_api) and RESET (70_reset_and_hazards)
  | .readDiskByte clk => Sys2Proof.Machine.execReadDiskByte clk s
  | .writeGcr clk value => Sys2Proof.Machine.execWriteGcr clk value s
  | .byteReady clk => Sys2Proof.Machine.execByteReady clk s
  | .setByteReady flag => Sys2Proof.Machine.execSetByteReady flag s
  | .moveHead step => Sys2Proof.Machine.execMoveHead step s
  | .updateZoneBits clk v => Sys2Proof.Machine.execUpdateZoneBits clk v s
  | .motorControl clk flag => Sys2Proof.Machine.execMotorControl clk flag s
  | .updatePcr clk v => Sys2Proof.Machine.execUpdatePcr clk v s
  | .noteAttach clk => Sys2Proof.Machine.execNoteAttach clk s
  | .noteDetach clk => Sys2Proof.Machine.execNoteDetach clk s
  | .reset => Sys2Proof.Machine.execReset s

end Sys2Proof.Machine
end

