-- ==== Sys2Proof/Machine/Port.lean ====
section
/-! DEFINITION. The request port's fetch: taking the next request off the queue (30_encoding R101;
notes/assumptions/1.md). -/

namespace Sys2Proof.Machine

open Sys2Proof

/-- The oldest pending request and the state with it taken; `none` when the host has presented
nothing. -/
def takeRequest (s : State) : Option (List Byte × State) :=
  match s.requests with
  | [] => none
  | r :: rest => some (r, { s with requests := rest })

/-- A request put where the next fetch takes it. -/
def presentFirst (r : List Byte) (s : State) : State := { s with requests := r :: s.requests }

end Sys2Proof.Machine
end

