-- ==== Sys2Proof/Machine/Step.lean ====
section
/-! DEFINITION. One step of the block: one request, to completion (00_scope R11, 20_memory R73). -/

namespace Sys2Proof.Machine

open Sys2Proof

/-- Take the oldest pending request, decode it and run it. A byte string that is no request is
refused with `BadRequest` before anything else (60_exceptions R252). With no request pending nothing
happens (60_exceptions R256; notes/assumptions/1.md). -/
def step (s : State) : Host.Outcome State Fault Refusal :=
  match takeRequest s with
  | none => .next s
  | some (r, s1) =>
    match decode r with
    | .ok i => exec i s1
    | .error _ => .next (refuse .badRequest s1)

/-- `s` with the request numbered `w` presented where the next step takes it. -/
def State.withFetchWord (s : State) (nbits w : Nat) : State := presentFirst (wordRequest nbits w) s

end Sys2Proof.Machine
end

