-- ==== Sys2Proof/Machine/Pseudo.lean ====
section
/-! DEFINITION. The pseudo-operations of 30_encoding R108: spellings that expand to operations of the
opcode map. `SYNC_TO` is not encodable on its own (R108); it is `syncTo` of Engine.lean. -/

namespace Sys2Proof.Machine

open Sys2Proof

/-- The pseudo-operations that have an expansion (R108). -/
inductive Pseudo where
  /-- `SEEK_TRACK t`. -/
  | seekTrack (t : Byte)
  /-- `STEP_IN`: towards higher track numbers. -/
  | stepIn
  /-- `STEP_OUT`. -/
  | stepOut
  /-- `WAIT @clk`. -/
  | wait (clk : Clk)
  /-- `SET_MODE m, e @clk`. -/
  | setMode (m : Mode) (e : Bool) (clk : Clk)
  /-- `READ_SECTOR t, s`. -/
  | readSector (t sector : Byte)
  deriving DecidableEq, Repr

/-- The `UPDATE_PCR` operand of `SET_MODE`: the two bits set as asked, the others 0 (R108). -/
def pcrOperand (m : Mode) (e : Bool) : Byte :=
  (if m = .read then 1#8 <<< pcrModeBit else 0#8) ||| (if e then 1#8 <<< pcrBreBit else 0#8)

/-- `READ_SECTOR`: locate the header, then the data block, then decode; a `None` of either locate
ends the expansion with `None` (R108, 43_sector_locator R192). -/
def runReadSector (t sector : Byte) (s : State) : StepOutcome :=
  match exec (.findSectorHeader t sector) s with
  | .next s1 =>
    match s1.response with
    | .ok (.offset (some h)) =>
      match exec (.findSectorData (BitVec.ofNat 32 h)) s1 with
      | .next s2 =>
        match s2.response with
        | .ok (.offset (some d)) => exec (.decodeSector (BitVec.ofNat 32 d)) s2
        | _ => .next s2
      | stopped => stopped
    | _ => .next s1
  | stopped => stopped

/-- A pseudo-operation run through its expansion. -/
def runPseudo (p : Pseudo) (s : State) : StepOutcome :=
  match p with
  | .seekTrack t => exec (.setHalfTrack (BitVec.ofNat 32 (2 * t.toNat))) s
  | .stepIn => exec (.moveHead 1#32) s
  | .stepOut => exec (.moveHead (-1#32)) s
  | .wait clk => exec (.byteReady clk) s
  | .setMode m e clk => exec (.updatePcr clk (pcrOperand m e)) s
  | .readSector t sector => runReadSector t sector s

end Sys2Proof.Machine
end

