-- ==== Sys2Proof/Machine/Trace.lean ====
section
/-! DEFINITION. The trace syntax of an operation and of its result (30_encoding R107): the mnemonic,
the operands separated by commas, a clock first as `@` and a decimal number, bytes in 0x hex,
booleans 0 or 1. How a byte sequence is spelled is read from the spec's examples
(notes/assumptions/20.md). -/

namespace Sys2Proof.Machine

open Sys2Proof

/-- One hexadecimal digit, capital. -/
def hexDigit (n : Nibble) : String :=
  ["0", "1", "2", "3", "4", "5", "6", "7", "8", "9", "A", "B", "C", "D", "E", "F"].getD n.toNat ""

/-- A byte as two hexadecimal digits. -/
def hexByte (b : Byte) : String := hexDigit (b.extractLsb' 4 4) ++ hexDigit (b.extractLsb' 0 4)

/-- A byte value operand. -/
def showByte (b : Byte) : String := "0x" ++ hexByte b

/-- An unsigned operand in decimal. -/
def showNat (n : Nat) : String := toString n

/-- A clock operand. -/
def showClk (c : Clk) : String := "@" ++ toString c.toNat

/-- A boolean. -/
def showBool (b : Bool) : String := if b then "1" else "0"

/-- A sequence of bytes. -/
def showBytes (bs : List Byte) : String := " ".intercalate (bs.map hexByte)

/-- A sequence operand. -/
def showSeq (bs : List Byte) : String := "[" ++ showBytes bs ++ "]"

/-- The mnemonic of an operation (R103). -/
def mnemonic : Instr → String
  | .gcrEnc4 _ => "GCR_ENC4"
  | .gcrDec5 _ => "GCR_DEC5"
  | .encodeSector _ _ _ _ _ => "ENCODE_SECTOR"
  | .decodeSector _ => "DECODE_SECTOR"
  | .setHalfTrack _ => "SET_HALF_TRACK"
  | .readByteAt _ => "READ_BYTE_AT"
  | .writeByteAt _ _ => "WRITE_BYTE_AT"
  | .tsLoadTrack _ _ _ _ => "TS_LOAD_TRACK"
  | .tsClear => "TS_CLEAR"
  | .clearDirty => "CLEAR_DIRTY"
  | .getDirty => "GET_DIRTY"
  | .tsReadTrack _ => "TS_READ_TRACK"
  | .advance _ _ => "ADVANCE"
  | .syncFound _ => "SYNC_FOUND"
  | .clkRebase _ => "CLK_REBASE"
  | .findSectorHeader _ _ => "FIND_SECTOR_HEADER"
  | .findSectorData _ => "FIND_SECTOR_DATA"
  | .readDiskByte _ => "READ_DISK_BYTE"
  | .writeGcr _ _ => "WRITE_GCR"
  | .byteReady _ => "BYTE_READY"
  | .setByteReady _ => "SET_BYTE_READY"
  | .moveHead _ => "MOVE_HEAD"
  | .updateZoneBits _ _ => "UPDATE_ZONE_BITS"
  | .motorControl _ _ => "MOTOR_CONTROL"
  | .updatePcr _ _ => "UPDATE_PCR"
  | .noteAttach _ => "NOTE_ATTACH"
  | .noteDetach _ => "NOTE_DETACH"
  | .reset => "RESET"

/-- The operands of an operation as they are spelled. -/
def operandStrings : Instr → List String
  | .gcrEnc4 r => [showByte r.r0, showByte r.r1, showByte r.r2, showByte r.r3]
  | .gcrDec5 g => [showByte g.g0, showByte g.g1, showByte g.g2, showByte g.g3, showByte g.g4]
  | .encodeSector track sector id1 id2 payload =>
    [showNat track.toNat, showNat sector.toNat, showByte id1, showByte id2, showSeq payload]
  | .decodeSector offset => [showNat offset.toNat]
  | .setHalfTrack n => [toString (intOf32 n)]
  | .readByteAt offset => [showNat offset.toNat]
  | .writeByteAt offset value => [showNat offset.toNat, showByte value]
  | .tsLoadTrack t size data zones =>
    [showNat t.toNat, showNat size.toNat, showSeq data, showSeq zones]
  | .tsClear => []
  | .clearDirty => []
  | .getDirty => []
  | .tsReadTrack t => [showNat t.toNat]
  | .advance delta modeChanged => [showNat delta.toNat, showBool modeChanged]
  | .syncFound clk => [showClk clk]
  | .clkRebase clk => [showClk clk]
  | .findSectorHeader track sector => [showNat track.toNat, showNat sector.toNat]
  | .findSectorData offset => [showNat offset.toNat]
  | .readDiskByte clk => [showClk clk]
  | .writeGcr clk value => [showClk clk, showByte value]
  | .byteReady clk => [showClk clk]
  | .setByteReady flag => [showBool flag]
  | .moveHead step => [toString (intOf32 step)]
  | .updateZoneBits clk v => [showClk clk, showByte v]
  | .motorControl clk flag => [showClk clk, showBool flag]
  | .updatePcr clk v => [showClk clk, showByte v]
  | .noteAttach clk => [showClk clk]
  | .noteDetach clk => [showClk clk]
  | .reset => []

/-- One line of an operation trace, without its expected result. -/
def showInstr (i : Instr) : String :=
  match operandStrings i with
  | [] => mnemonic i
  | operands => mnemonic i ++ " " ++ ", ".intercalate operands

/-- A result as the expected-result part of a trace line spells it. -/
def showResult : Result → String
  | .noValue => ""
  | .u8 v => showByte v
  | .bool b => showBool b
  | .bytes bs => showBytes bs
  | .offset none => "None"
  | .offset (some p) => "Some(" ++ showNat p ++ ")"
  | .track size data zones =>
    "(" ++ showNat size ++ ", " ++ showBytes data ++ ", " ++ showBytes zones ++ ")"

end Sys2Proof.Machine
end

