-- ==== Sys2Proof/Safety.lean ====
section
/-! DEFINITION. The terms claims about a run are stated in: the invariants of 10_state R44, what lies
on the current track, and when the host keeps the obligations the block checks. -/

namespace Sys2Proof.Machine

open Sys2Proof

/-! ## The invariants of 10_state R44 -/

/-- R44 (1): the head is on one of the 83 positions. -/
abbrev State.headInRange (s : State) : Prop :=
  2 ≤ s.currentHalfTrack ∧ s.currentHalfTrack ≤ maxHalfTracks

/-- R44 (2): every track fits its slot. -/
abbrev State.sizesFit (s : State) : Prop :=
  ∀ k < 42, trackSizeOf s (k + 1) ≤ maxBytesPerTrack

/-- R44 (3): the cached size fits, and the head offset lies inside it, or is 0 on an empty track. -/
abbrev State.offsetInTrack (s : State) : Prop :=
  s.currentTrackSize ≤ maxBytesPerTrack ∧
    (s.headOffset < s.currentTrackSize ∨ (s.currentTrackSize = 0 ∧ s.headOffset = 0))

/-- R44 (4): less than a byte of whole bits and less than one bit of fraction is pending. -/
abbrev State.subByte (s : State) : Prop := s.accum < accumMax ∧ s.bitsMoved ≤ 7

/-- R44 (5): with no mode flip pending, the byte in progress began under the current mode. -/
abbrev State.modesAgree (s : State) : Prop :=
  s.finishByte = false → s.lastMode = s.readWriteMode

/-- R44 (6): every zone id is in 0..3. -/
abbrev State.zonesLegal (s : State) : Prop :=
  s.speedZone.all (fun c => decide (c.2.toNat ≤ 3)) = true

/-- Both byte spaces are in canonical form and hold nothing beyond the 42 slots any rule can address
(20_memory R62). -/
abbrev State.storeCanonical (s : State) : Prop :=
  (Memory.wf s.gcrData = true ∧ s.gcrData.all (fun c => decide (c.1 < reachableBytes)) = true) ∧
    (Memory.wf s.speedZone = true ∧ s.speedZone.all (fun c => decide (c.1 < reachableBytes)) = true)

/-- The invariants of R44 that are about one state (its item 7 is about a history), and the canonical
form of the byte spaces. -/
abbrev State.Inv (s : State) : Prop :=
  s.headInRange ∧ s.sizesFit ∧ s.offsetInTrack ∧ s.subByte ∧ s.modesAgree ∧ s.zonesLegal ∧
    s.storeCanonical

/-! ## What lies on the current track -/

/-- The bytes `bs` lie on the current track at offsets `o, o + 1, ...` modulo its size (40_gcr_codec
R126). -/
def holdsAt (s : State) (o : Nat) (bs : List Byte) : Prop :=
  ∀ k < bs.length, trkRead s (o + k) = bs.getD k 0

/-- The group at offset `o`, modulo the track size, decodes to a header's first group for this track
and sector: marker, sector, track (43_sector_locator R190 (d)). -/
abbrev headerAt (s : State) (track sector : Byte) (o : Nat) : Prop :=
  (dec5 ⟨trkRead s o, trkRead s (o + 1), trkRead s (o + 2), trkRead s (o + 3),
      trkRead s (o + 4)⟩).r0 = 0x08 ∧
  (dec5 ⟨trkRead s o, trkRead s (o + 1), trkRead s (o + 2), trkRead s (o + 3),
      trkRead s (o + 4)⟩).r2 = sector ∧
  (dec5 ⟨trkRead s o, trkRead s (o + 1), trkRead s (o + 2), trkRead s (o + 3),
      trkRead s (o + 4)⟩).r3 = track

/-- Where the header search goes on for its candidate `i`: at the track start, and after a candidate
just after its group, `q j` being where the group of candidate `j` begins (R190). -/
def searchStart (q : Nat → Nat) : Nat → Nat
  | 0 => 0
  | i + 1 => q i + 5

/-- The sync bytes of the runs before the first `m` candidates, run `i` from `a i` up to `q i`: what the
search has counted after them (R190, one counter for the whole call). -/
def syncSkipped (a q : Nat → Nat) : Nat → Nat
  | 0 => 0
  | i + 1 => syncSkipped a q i + (q i - a i)

/-- The first `m` candidates of the header search on the current track: from where it goes on, the next
sync byte before the track end lies at `a i`, and the run from there ends at `q i`, an offset that
passes the track size where the run passes the track end (R190 (a), (b)). -/
abbrev candidates (s : State) (a q : Nat → Nat) (m : Nat) : Prop :=
  ∀ i < m, searchStart q i ≤ a i ∧ a i < s.currentTrackSize ∧ a i < q i ∧
    (∀ o, searchStart q i ≤ o → o < a i → trkRead s o ≠ 0xFF) ∧
    (∀ o, a i ≤ o → o < q i → trkRead s o = 0xFF) ∧ trkRead s (q i) ≠ 0xFF

/-! ## The host's obligations the block checks (70_reset_and_hazards R280, R284) -/

/-- The clock operand of the operations that begin with `SYNC_TO` (20_memory R74), `READ_DISK_BYTE`
only outside the settling window (R222). -/
def clockOf (i : Instr) (s : State) : Option Clk :=
  match i with
  | .syncFound clk => some clk
  | .clkRebase clk => some clk
  | .readDiskByte clk => if inAttachWindow clk s then none else some clk
  | .writeGcr clk _ => some clk
  | .byteReady clk => some clk
  | .updateZoneBits clk _ => some clk
  | .motorControl clk _ => some clk
  | .updatePcr clk _ => some clk
  | _ => none

/-- Why a request is refused, if it is: the first failing check (60_exceptions R252, R257). -/
def refusalOf (i : Instr) (s : State) : Option RefuseReason :=
  match i with
  | .tsLoadTrack t size _ zones =>
    if isTrack t = false then some .badTrack
    else if maxBytesPerTrack < size.toNat then some .badSize
    else if someBadZone (zones.take size.toNat) then some .badZone
    else none
  | .tsReadTrack t => if isTrack t = false then some .badTrack else none
  | .clkRebase clk =>
    if clk.toNat < rebaseAmount.toNat then some .rebaseTooEarly
    else if clk.toNat < s.rotationLastClk.toNat then some .clockWentBack
    else none
  | _ =>
    match clockOf i s with
    | some clk => if clk.toNat < s.rotationLastClk.toNat then some .clockWentBack else none
    | none => none

/-- A run of `k` steps in which the block refuses nothing the host asks. -/
def safeRun : Nat → State → Prop
  | 0, _ => True
  | k + 1, s =>
    ∃ t, step s = .next t ∧ (s.requests ≠ [] → ∀ why, t.response ≠ .refused why) ∧ safeRun k t

end Sys2Proof.Machine
end

