-- ==== Sys2Proof/Certificates/Slice0/Obligations.lean ====
section
/-! DEFINITION. What the provers are asked to prove of the model. Each statement's docstring names the
rule or the section of spec/ it formalises; where a clause is the spec's own decision or a default it
decides, the docstring says so. -/

open Sys2Proof Sys2Proof.Machine

/-! ## The request port (30_encoding part B) -/

/-- A step takes the oldest request, decodes it and runs exactly the decoded operation, from the
state with the request taken (00_scope section 5; the queue is the model's, notes/assumptions/1.md). -/
def Obligations.StepRunsDecodedRequest : Prop :=
  ∀ (s : State) (r : List Byte) (rest : List (List Byte)) (i : Instr),
    s.requests = r :: rest → decode r = .ok i → step s = exec i { s with requests := rest }

/-- A byte string that is no request is refused with BadRequest and changes nothing of the block; with
no request pending a step changes nothing (60_exceptions sections 1 and 2; the queue is the model's,
notes/assumptions/1.md). -/
def Obligations.MalformedRequestRefused : Prop :=
  (∀ (s : State) (r : List Byte) (rest : List (List Byte)) (e : DecodeError),
    s.requests = r :: rest → decode r = .error e →
      step s = .next { s with requests := rest, response := .refused .badRequest }) ∧
  (∀ s : State, s.requests = [] → step s = .next s)

/-- Decoding the encoding of a well-formed operation gives it back, every operand at every value
(30_encoding part B; the byte layout is the spec's decision D1). -/
def Obligations.DecodeEncodeAgree : Prop :=
  ∀ i : Instr, WellFormed i → decode (encode i) = .ok i

/-- What the decoder accepts is well-formed and has exactly the length of its format, and the encoder
writes it in that length (30_encoding part B, decision D1). -/
def Obligations.DecodedRequestsAreWellFormed : Prop :=
  ∀ (r : List Byte) (i : Instr), decode r = .ok i →
    WellFormed i ∧ r.length = requestLength r ∧ (encode i).length = r.length

/-- The opcode byte and the length alone decide acceptance: the 28 opcodes of the map, each at exactly
its format's length (5 bytes for C, 4 + 2 * size for TS_LOAD_TRACK, ...); every other opcode is
reserved (30_encoding part B, decision D1). -/
def Obligations.AcceptedExactlyAtFormatLength : Prop :=
  (∀ (op : Byte) (args : List Byte), op ∈
      [0x10#8, 0x11#8, 0x12#8, 0x13#8, 0x20#8, 0x21#8, 0x22#8, 0x23#8, 0x24#8, 0x25#8, 0x26#8,
       0x27#8, 0x30#8, 0x31#8, 0x32#8, 0x40#8, 0x41#8, 0x50#8, 0x51#8, 0x52#8, 0x53#8, 0x54#8,
       0x55#8, 0x56#8, 0x57#8, 0x58#8, 0x59#8, 0x5F#8] →
    ((∃ i, decode (op :: args) = .ok i) ↔ (op :: args).length = requestLength (op :: args)) ∧
    ((∃ i, decode (op :: args) = .ok i) ∨ decode (op :: args) = .error (.wrongLength op))) ∧
  (∀ (op : Byte) (args : List Byte), op ∉
      [0x10#8, 0x11#8, 0x12#8, 0x13#8, 0x20#8, 0x21#8, 0x22#8, 0x23#8, 0x24#8, 0x25#8, 0x26#8,
       0x27#8, 0x30#8, 0x31#8, 0x32#8, 0x40#8, 0x41#8, 0x50#8, 0x51#8, 0x52#8, 0x53#8, 0x54#8,
       0x55#8, 0x56#8, 0x57#8, 0x58#8, 0x59#8, 0x5F#8] →
    decode (op :: args) = .error (.reservedOpcode op)) ∧
  decode [] = .error .emptyRequest

/-- Request bytes of 95_test_vectors section 8, and of section 7's programs P1 (TS_LOAD_TRACK) and P3
(FIND_SECTOR_HEADER), decode to the operations written beside them there. -/
def Obligations.SpecRequestBytesDecode : Prop :=
  decode [0x20, 0xFB, 0xFF, 0xFF, 0xFF] = .ok (.setHalfTrack (BitVec.ofInt 32 (-5))) ∧
  decode [0x51, 0xB0, 0x04, 0x00, 0x00, 0x55] = .ok (.writeGcr 1200#32 0x55) ∧
  decode [0x30, 0x00, 0x00, 0x00, 0x00, 0x07] = .ok (.advance 0#32 true) ∧
  decode [0x11, 0x52, 0x54, 0xB5, 0x29, 0x72] =
    .ok (.gcrDec5 ⟨0x52, 0x54, 0xB5, 0x29, 0x72⟩) ∧
  decode [0x40, 0x12, 0x00] = .ok (.findSectorHeader 18 0) ∧
  decode [0x23, 0x12, 0x04, 0x00, 0xA0, 0xA1, 0xA2, 0xA3, 0x00, 0x00, 0x00, 0x00] =
    .ok (.tsLoadTrack 18 4#16 [0xA0, 0xA1, 0xA2, 0xA3] [0x00, 0x00, 0x00, 0x00])

/-! ## Outcomes (60_exceptions) -/

/-- Every operation of every state ends in a next state, and that state is either an `ok` outcome or
the old state with the refusal's reason shown and nothing else changed (60_exceptions section 1). -/
def Obligations.EveryOperationEndsOkOrRefused : Prop :=
  ∀ (i : Instr) (s : State), ∃ t : State, exec i s = .next t ∧
    ((∃ r : Result, t.response = .ok r) ∨
      ∃ why : RefuseReason, t = { s with response := .refused why })

/-- An operation is refused exactly when one of its checks fails, with the first failing check's
reason (60_exceptions sections 1 and 3: BadTrack before BadSize before BadZone, RebaseTooEarly before
ClockWentBack, no clock test inside the settling window; decisions D1 and D27). -/
def Obligations.RefusedExactlyWhen : Prop :=
  ∀ (i : Instr) (s : State) (why : RefuseReason),
    exec i s = .next { s with response := .refused why } ↔ refusalOf i s = some why

/-- The four codec operations always end in `ok` with bytes and change nothing of the block: no check
of a marker, a checksum or a code makes them fail (R128). -/
def Obligations.CodecHasNoErrorOutcome : Prop :=
  ∀ (s : State) (i : Instr),
    ((∃ raw, i = .gcrEnc4 raw) ∨ (∃ gcr, i = .gcrDec5 gcr) ∨ (∃ offset, i = .decodeSector offset) ∨
      ∃ track sector id1 id2 payload, i = .encodeSector track sector id1 id2 payload) →
    ∃ bs : List Byte, exec i s = .next { s with response := .ok (.bytes bs) }

/-! ## The codec (30_encoding part A, 40_gcr_codec) -/

/-- GCR_ENC4 returns the five bytes of 30_encoding's field table, each cut from the codes of the eight
nibbles, high nibble first, and changes nothing else; the codes of nibbles 0 to F are the sixteen of
the code table (30_encoding sections A.1 and A.2: table and bit order are decision D12,
notes/assumptions/7.md). -/
def Obligations.GcrEnc4ByFields : Prop :=
  (List.range 16).map (fun n => gcrEnc (BitVec.ofNat 4 n)) =
    [0x0A, 0x0B, 0x12, 0x13, 0x0E, 0x0F, 0x16, 0x17,
     0x09, 0x19, 0x1A, 0x1B, 0x0D, 0x1D, 0x1E, 0x15] ∧
  ∀ (r : RawGroup) (s : State),
    let c0 := gcrEnc (r.r0.extractLsb' 4 4)
    let c1 := gcrEnc (r.r0.extractLsb' 0 4)
    let c2 := gcrEnc (r.r1.extractLsb' 4 4)
    let c3 := gcrEnc (r.r1.extractLsb' 0 4)
    let c4 := gcrEnc (r.r2.extractLsb' 4 4)
    let c5 := gcrEnc (r.r2.extractLsb' 0 4)
    let c6 := gcrEnc (r.r3.extractLsb' 4 4)
    let c7 := gcrEnc (r.r3.extractLsb' 0 4)
    let g0 : Byte := c0 ++ c1.extractLsb' 2 3
    let g1 : Byte := c1.extractLsb' 0 2 ++ c2 ++ c3.extractLsb' 4 1
    let g2 : Byte := c3.extractLsb' 0 4 ++ c4.extractLsb' 1 4
    let g3 : Byte := c4.extractLsb' 0 1 ++ c5 ++ c6.extractLsb' 3 2
    let g4 : Byte := c6.extractLsb' 0 3 ++ c7
    exec (.gcrEnc4 r) s = .next { s with response := .ok (.bytes [g0, g1, g2, g3, g4]) }

/-- GCR_DEC5 returns four bytes whose nibbles are the decoded codes, each code cut from its place in
the five bytes, whatever the codes, and changes nothing else; a nibble's code decodes to the nibble,
and a code that is no nibble's to INV_NIB of it, a free value (40_gcr_codec section 1, 30_encoding
section A.1; table and bit order are decision D12, the free value decision D13,
notes/assumptions/5.md and 7.md). -/
def Obligations.GcrDec5ByFields : Prop :=
  (∀ n : Nibble, gcrDec (gcrEnc n) = n) ∧
  (∀ c : Code, (∀ n : Nibble, gcrEnc n ≠ c) → gcrDec c = Config.invNib c) ∧
  ∀ (g : GcrGroup) (s : State),
    let c0 : Code := g.g0.extractLsb' 3 5
    let c1 : Code := g.g0.extractLsb' 0 3 ++ g.g1.extractLsb' 6 2
    let c2 : Code := g.g1.extractLsb' 1 5
    let c3 : Code := g.g1.extractLsb' 0 1 ++ g.g2.extractLsb' 4 4
    let c4 : Code := g.g2.extractLsb' 0 4 ++ g.g3.extractLsb' 7 1
    let c5 : Code := g.g3.extractLsb' 2 5
    let c6 : Code := g.g3.extractLsb' 0 2 ++ g.g4.extractLsb' 5 3
    let c7 : Code := g.g4.extractLsb' 0 5
    exec (.gcrDec5 g) s = .next { s with response := .ok (.bytes
      [gcrDec c0 ++ gcrDec c1, gcrDec c2 ++ gcrDec c3, gcrDec c4 ++ gcrDec c5,
       gcrDec c6 ++ gcrDec c7]) }

/-- Decoding an encoded group gives it back, and re-encoding a decoded group gives it back exactly
when all its eight codes are in the code table (40_gcr_codec section 1, derived there). -/
def Obligations.GroupRoundTrip : Prop :=
  (∀ r : RawGroup, dec5 (enc4 r) = r) ∧
  (∀ g : GcrGroup, enc4 (dec5 g) = g ↔
    ∀ k < 8, ∃ n : Nibble, gcrEnc n = (groupBits g).extractLsb' (35 - 5 * k) 5)

/-- Only the third byte of an encoded group can be a sync byte, and it is one exactly when the low
nibble of raw byte 1 is 5 and the high nibble of raw byte 2 is 0xE (30_encoding section A.2, derived
there from the code table of decision D12). -/
def Obligations.SyncByteInsideGroup : Prop :=
  ∀ r : RawGroup,
    (enc4 r).g0 ≠ syncByte ∧ (enc4 r).g1 ≠ syncByte ∧ (enc4 r).g3 ≠ syncByte ∧
    (enc4 r).g4 ≠ syncByte ∧
    ((enc4 r).g2 = syncByte ↔ r.r1.extractLsb' 0 4 = 5#4 ∧ r.r2.extractLsb' 4 4 = 0xE#4)

/-- ENCODE_SECTOR returns SECTOR_GCR_LEN bytes: sync run, header block (marker, the exclusive-or of
its four fields, sector, track, the two id bytes, two padding bytes), gap, sync run, the 65 groups of
the data block (marker, payload, the payload's exclusive-or, two zero bytes), gap; nothing else
changes, whatever the operand bytes (30_encoding section A.4; lengths, padding and checksums are
decisions D14 to D16). -/
def Obligations.EncodeSectorLayout : Prop :=
  ∀ (track sector id1 id2 : Byte) (payload : List Byte) (s : State), payload.length = 256 →
    ∃ img : List Byte,
      exec (.encodeSector track sector id1 id2 payload) s =
        .next { s with response := .ok (.bytes img) } ∧
      img.length = 360 ∧
      img.take 5 = List.replicate 5 0xFF ∧
      (img.drop 5).take 10 =
        gcrBytes (enc4 ⟨0x08, sector ^^^ track ^^^ id1 ^^^ id2, sector, track⟩) ++
          gcrBytes (enc4 ⟨id1, id2, 0x0F, 0x0F⟩) ∧
      (img.drop 15).take 9 = List.replicate 9 0x55 ∧
      (img.drop 24).take 5 = List.replicate 5 0xFF ∧
      (img.drop 354) = List.replicate 6 0x55 ∧
      (∀ k < 65, ∀ raw : List Byte,
        raw = 0x07 :: (payload ++ [payload.foldl (· ^^^ ·) 0, 0x00, 0x00]) →
        (img.drop (29 + 5 * k)).take 5 =
          gcrBytes (enc4 ⟨raw.getD (4 * k) 0, raw.getD (4 * k + 1) 0, raw.getD (4 * k + 2) 0,
            raw.getD (4 * k + 3) 0⟩))

/-- DECODE_SECTOR returns 260 bytes, the decodings of the 65 groups read from the offset on modulo the
track size, checks nothing and changes nothing else (40_gcr_codec section 2). -/
def Obligations.DecodeSectorGroupByGroup : Prop :=
  ∀ (offset : U32) (s : State), ∃ bs : List Byte,
    exec (.decodeSector offset) s = .next { s with response := .ok (.bytes bs) } ∧
    bs.length = 260 ∧
    ∀ k < 65, (bs.drop (4 * k)).take 4 = rawBytes (dec5
      ⟨trkRead s (offset.toNat + 5 * k), trkRead s (offset.toNat + 5 * k + 1),
       trkRead s (offset.toNat + 5 * k + 2), trkRead s (offset.toNat + 5 * k + 3),
       trkRead s (offset.toNat + 5 * k + 4)⟩)

/-- The source's round-trip property: where the 325 encoded bytes of a data block lie on the current
track from an offset on, modulo its size (so also across its end), DECODE_SECTOR at that offset
returns the block: marker 0x07, the payload, its checksum, two zero bytes (40_gcr_codec section 1,
95_test_vectors S1; the code table is decision D12, notes/assumptions/7.md, the place of the checksum
and the zero bytes decision D15, notes/assumptions/8.md). -/
def Obligations.SectorRoundTripAcrossWrap : Prop :=
  ∀ (payload : List Byte) (offset : U32) (s : State), payload.length = 256 →
    holdsAt s offset.toNat (encBytes (dataRaw payload)) →
    exec (.decodeSector offset) s = .next { s with response := .ok (.bytes
      (0x07 :: (payload ++ [payload.foldl (· ^^^ ·) 0, 0x00, 0x00]))) }

/-! ## The Sector Locator (43_sector_locator) -/

/-- READ_SECTOR end to end: on a track that holds a sector image, also across the track end, and whose
header search reaches that image's header block with no candidate before it that matches (other
sectors, data blocks and lone sync bytes may come first) and fewer sync bytes skipped than the track
has bytes, FIND_SECTOR_HEADER returns the offset after the header's first group, FIND_SECTOR_DATA from there the first byte of the data block, and the whole
expansion the decoded block (30_encoding part C, 43_sector_locator; the code table is decision D12,
notes/assumptions/7.md, the layout decisions D14, D15 and D16, notes/assumptions/8.md and 9.md, the
searches' details decisions D23 and D35, notes/assumptions/15.md). -/
def Obligations.ReadSectorReturnsStoredSector : Prop :=
  ∀ (track sector id1 id2 : Byte) (payload : List Byte) (s : State) (b m : Nat) (a q : Nat → Nat),
    payload.length = 256 → 360 ≤ s.currentTrackSize → s.currentTrackSize ≤ 7928 →
    holdsAt s b (sectorImage track sector id1 id2 payload) →
    candidates s a q (m + 1) → syncSkipped a q (m + 1) < s.currentTrackSize →
    (∀ i < m, ¬ headerAt s track sector (q i)) →
    q m % s.currentTrackSize = (b + 5) % s.currentTrackSize →
    exec (.findSectorHeader track sector) s =
        .next { s with response := .ok (.offset (some ((b + 10) % s.currentTrackSize))) } ∧
    exec (.findSectorData (BitVec.ofNat 32 ((b + 10) % s.currentTrackSize))) s =
        .next { s with response := .ok (.offset (some ((b + 29) % s.currentTrackSize))) } ∧
    runPseudo (.readSector track sector) s =
        .next { s with response := .ok (.bytes (dataRaw payload)) }

/-- FIND_SECTOR_HEADER goes from candidate to candidate until one matches: where the groups after the
first `m` sync runs do not match and the one after the next run does (marker 0x08, the sector and the
track asked for), it returns the offset just after that group modulo the track size, also when that
run or that group straddles the track end or ends exactly there; nothing else changes
(43_sector_locator, 95_test_vectors S4; that the sync bytes of all runs are counted together, and must
stay below the track size, and where each candidate begins are decision D23). -/
def Obligations.HeaderFoundAcrossTrackEnd : Prop :=
  ∀ (track sector : Byte) (s : State) (a q : Nat → Nat) (m : Nat),
    candidates s a q (m + 1) → syncSkipped a q (m + 1) < s.currentTrackSize →
    (∀ i < m, ¬ headerAt s track sector (q i)) → headerAt s track sector (q m) →
    exec (.findSectorHeader track sector) s =
      .next { s with response := .ok (.offset (some ((q m + 5) % s.currentTrackSize))) }

/-- FIND_SECTOR_HEADER returns "not found", and changes nothing else, in each way its search ends after
`m` candidates of which none matches: the last one reached the track end or no sync byte is left
before it, or the next sync run brings the sync bytes of the whole search to the track size. With no
candidate that is an empty track, a track with no sync byte and a track that is all sync
(43_sector_locator, 60_exceptions section 1; the one counter and the end of the search at the track
end are decision D23, the empty track decision D10). -/
def Obligations.HeaderNotFoundOnKillerTracks : Prop :=
  ∀ (track sector : Byte) (s : State) (a q : Nat → Nat) (m : Nat),
    candidates s a q m → (0 < m → syncSkipped a q m < s.currentTrackSize) →
    (∀ i < m, ¬ headerAt s track sector (q i)) →
    (s.currentTrackSize ≤ searchStart q m ∨
      (∀ o, searchStart q m ≤ o → o < s.currentTrackSize → trkRead s o ≠ 0xFF) ∨
      (searchStart q m ≤ a m ∧ a m < s.currentTrackSize ∧
        (∀ o, searchStart q m ≤ o → o < a m → trkRead s o ≠ 0xFF) ∧
        (∀ o, a m ≤ o → o < a m + (s.currentTrackSize - syncSkipped a q m) →
          trkRead s o = 0xFF))) →
    exec (.findSectorHeader track sector) s = .next { s with response := .ok (.offset none) }

/-- Whatever the track holds, FIND_SECTOR_HEADER changes nothing, and an offset it returns lies on the
track, just after a group that follows a sync byte and decodes to marker 0x08, the sector and the
track asked for (43_sector_locator; search details are decision D23). -/
def Obligations.HeaderResultIsAfterMatchingGroup : Prop :=
  ∀ (track sector : Byte) (s : State), ∃ found : Option Nat,
    exec (.findSectorHeader track sector) s = .next { s with response := .ok (.offset found) } ∧
    ∀ p, found = some p → p < s.currentTrackSize ∧ ∃ q < s.currentTrackSize,
      p = (q + 5) % s.currentTrackSize ∧ trkRead s (prevOff s q) = 0xFF ∧
      (dec5 ⟨trkRead s q, trkRead s (q + 1), trkRead s (q + 2), trkRead s (q + 3),
        trkRead s (q + 4)⟩).r0 = 0x08 ∧
      (dec5 ⟨trkRead s q, trkRead s (q + 1), trkRead s (q + 2), trkRead s (q + 3),
        trkRead s (q + 4)⟩).r2 = sector ∧
      (dec5 ⟨trkRead s q, trkRead s (q + 1), trkRead s (q + 2), trkRead s (q + 3),
        trkRead s (q + 4)⟩).r3 = track

/-- FIND_SECTOR_DATA skips fewer than 500 non-sync bytes and then a sync run, both wrapping, and
returns the offset of the first byte after the run; nothing else changes (43_sector_locator; the
exact guard is decision D35). -/
def Obligations.FindDataReturnsEndOfSyncRun : Prop :=
  ∀ (offset : U32) (s : State) (gap run : Nat),
    0 < s.currentTrackSize → gap < 500 → 0 < run →
    (∀ k < gap, trkRead s (offset.toNat + k) ≠ 0xFF) →
    (∀ k < run, trkRead s (offset.toNat + gap + k) = 0xFF) →
    trkRead s (offset.toNat + gap + run) ≠ 0xFF →
    exec (.findSectorData offset) s = .next { s with
      response := .ok (.offset (some ((offset.toNat + gap + run) % s.currentTrackSize))) }

/-- FIND_SECTOR_DATA returns "not found" on an empty track, when the 500 bytes from the offset on hold
no sync byte, and on a track that is all sync; nothing else changes (43_sector_locator; decisions D22
and D35). -/
def Obligations.FindDataGuards : Prop :=
  ∀ (offset : U32) (s : State),
    (s.currentTrackSize = 0 ∨ (∀ k < 500, trkRead s (offset.toNat + k) ≠ 0xFF) ∨
      (∀ k < s.currentTrackSize, trkRead s k = 0xFF)) →
    exec (.findSectorData offset) s = .next { s with response := .ok (.offset none) }

/-! ## The Track Store (20_memory, 41_track_store) -/

/-- Offset stepping: one on and one back modulo the cached size, 0 on an empty track; the buffer is
circular in both directions (R66). -/
def Obligations.OffsetSteppingIsCircular : Prop :=
  ∀ s : State,
    (∀ o, 0 < s.currentTrackSize → nextOff s o = (o + 1) % s.currentTrackSize) ∧
    (∀ o, 0 < s.currentTrackSize →
      prevOff s o = (o + s.currentTrackSize - 1) % s.currentTrackSize) ∧
    (∀ o, s.currentTrackSize = 0 → nextOff s o = 0 ∧ prevOff s o = 0) ∧
    (0 < s.currentTrackSize → nextOff s (s.currentTrackSize - 1) = 0 ∧
      prevOff s 0 = s.currentTrackSize - 1) ∧
    (∀ o < s.currentTrackSize, prevOff s (nextOff s o) = o ∧ nextOff s (prevOff s o) = o)

/-- SET_HALF_TRACK, MOVE_HEAD and RESET put the head on the clamped half-track, at offset 0, with the
size of that track cached, and change nothing else: the clamp is to [2, 84] for any integer, and
MOVE_HEAD's sum is computed before it (41_track_store, 45_drive_session_api, 70_reset_and_hazards;
half-track 36 is DIR_TRACK 18 of decision D21, and that nothing else is written decisions D26 and
D31). -/
def Obligations.HeadMovementsClampAndCache : Prop :=
  (∀ (n : U32) (s : State), ∃ h : Nat, 2 ≤ h ∧ h ≤ 84 ∧ (h : Int) = max 2 (min 84 n.toInt) ∧
    exec (.setHalfTrack n) s = .next { s with
      currentHalfTrack := h, headOffset := 0, currentTrackSize := trackSizeOf s (h / 2),
      response := .ok .noValue }) ∧
  (∀ (step : U32) (s : State), ∃ h : Nat, 2 ≤ h ∧ h ≤ 84 ∧
    (h : Int) = max 2 (min 84 (s.currentHalfTrack + step.toInt)) ∧
    exec (.moveHead step) s = .next { s with
      currentHalfTrack := h, headOffset := 0, currentTrackSize := trackSizeOf s (h / 2),
      response := .ok .noValue }) ∧
  (∀ s : State, exec .reset s = .next { s with
      currentHalfTrack := 36, headOffset := 0, currentTrackSize := trackSizeOf s 18,
      response := .ok .noValue })

/-- READ_BYTE_AT returns the byte at the flat index of the current half-track and the offset modulo the
cached size, 0xFF on an empty track (decision D10), and changes nothing else (41_track_store,
20_memory section 2). -/
def Obligations.ReadByteAtReadsWindow : Prop :=
  ∀ (offset : U32) (s : State),
    (s.currentTrackSize = 0 →
      exec (.readByteAt offset) s = .next { s with response := .ok (.u8 0xFF) }) ∧
    (0 < s.currentTrackSize →
      exec (.readByteAt offset) s = .next { s with response := .ok (.u8 (memRead s.gcrData
        ((s.currentHalfTrack / 2 - 1) * 7928 + offset.toNat % s.currentTrackSize))) })

/-- WRITE_BYTE_AT stores its byte at the current half-track and the offset modulo the cached size (on
an empty track nowhere, decision D10), sets `dirty`, leaves every other byte and everything else as
it was (41_track_store, 20_memory section 2). -/
def Obligations.WriteByteAtFrame : Prop :=
  ∀ (offset : U32) (value : Byte) (s : State), Memory.wf s.gcrData = true →
    ∃ t : State, exec (.writeByteAt offset value) s = .next t ∧
      t = { s with gcrData := t.gcrData, dirty := true, response := .ok .noValue } ∧
      (0 < s.currentTrackSize →
        memRead t.gcrData (curBase s + offset.toNat % s.currentTrackSize) = value) ∧
      (∀ a, (s.currentTrackSize = 0 ∨ a ≠ curBase s + offset.toNat % s.currentTrackSize) →
        memRead t.gcrData a = memRead s.gcrData a)

/-- TS_LOAD_TRACK with a legal track, size and zones fills the track's slot with the data and zeros
beyond it, its zone slot likewise, and its size; every byte outside the slot, every other size, and
everything else (the cached size and `dirty` too) stays (41_track_store; padding and what is not
written are decision D30). -/
def Obligations.LoadTrackFillsSlot : Prop :=
  ∀ (t : Byte) (size : U16) (data zones : List Byte) (s : State),
    data.length = size.toNat → zones.length = size.toNat →
    1 ≤ t.toNat → t.toNat ≤ 42 → size.toNat ≤ 7928 → (∀ z ∈ zones, z.toNat ≤ 3) →
    ∃ u : State, exec (.tsLoadTrack t size data zones) s = .next u ∧
      u = { s with gcrData := u.gcrData, speedZone := u.speedZone, trackSize := u.trackSize,
                   response := .ok .noValue } ∧
      (∀ k < 7928, memRead u.gcrData ((t.toNat - 1) * 7928 + k) = data.getD k 0 ∧
        memRead u.speedZone ((t.toNat - 1) * 7928 + k) = zones.getD k 0) ∧
      (∀ a, (a < (t.toNat - 1) * 7928 ∨ t.toNat * 7928 ≤ a) →
        memRead u.gcrData a = memRead s.gcrData a ∧
        memRead u.speedZone a = memRead s.speedZone a) ∧
      trackSizeOf u t.toNat = size.toNat ∧
      (∀ k, 1 ≤ k → k ≤ 42 → k ≠ t.toNat → trackSizeOf u k = trackSizeOf s k)

/-- TS_LOAD_TRACK and TS_READ_TRACK turn a track outside 1..42 away, TS_LOAD_TRACK a size above 7928
and a zone above 3, checked in that order, with the state unchanged (41_track_store; decision D1). -/
def Obligations.TrackRequestsTurnedAway : Prop :=
  (∀ (t : Byte) (size : U16) (data zones : List Byte) (s : State),
    t.toNat = 0 ∨ 42 < t.toNat →
      exec (.tsLoadTrack t size data zones) s =
        .next { s with response := .refused .badTrack } ∧
      exec (.tsReadTrack t) s = .next { s with response := .refused .badTrack }) ∧
  (∀ (t : Byte) (size : U16) (data zones : List Byte) (s : State),
    1 ≤ t.toNat → t.toNat ≤ 42 → 7928 < size.toNat →
      exec (.tsLoadTrack t size data zones) s =
        .next { s with response := .refused .badSize }) ∧
  (∀ (t : Byte) (size : U16) (data zones : List Byte) (s : State),
    zones.length = size.toNat →
    1 ≤ t.toNat → t.toNat ≤ 42 → size.toNat ≤ 7928 → (∃ z ∈ zones, 3 < z.toNat) →
      exec (.tsLoadTrack t size data zones) s =
        .next { s with response := .refused .badZone })

/-- The stale cache: TS_LOAD_TRACK leaves the cached size, so until a head movement READ_BYTE_AT reads
modulo the OLD size: 0xFF where that is 0, the slot's NEW bytes (the loaded data, 0x00 beyond it) where
the head is on the loaded track, the bytes as before on another track. After SET_HALF_TRACK of the
loaded track it returns the loaded bytes modulo the new size, 0xFF where that is 0
(70_reset_and_hazards section 3, 41_track_store, 95_test_vectors section 5; no refresh and the padding
are decision D30, size 0 decision D10). -/
def Obligations.LoadedTrackReadsBackAfterCacheRefresh : Prop :=
  ∀ (t : Byte) (size : U16) (data zones : List Byte) (s u v : State) (offset half : U32),
    data.length = size.toNat → zones.length = size.toNat →
    1 ≤ t.toNat → t.toNat ≤ 42 → size.toNat ≤ 7928 → (∀ z ∈ zones, z.toNat ≤ 3) →
    half.toNat = 2 * t.toNat →
    exec (.tsLoadTrack t size data zones) s = .next u → exec (.setHalfTrack half) u = .next v →
    u.currentTrackSize = s.currentTrackSize ∧
    (s.currentTrackSize = 0 →
      exec (.readByteAt offset) u = .next { u with response := .ok (.u8 0xFF) }) ∧
    (0 < s.currentTrackSize → s.currentTrackSize ≤ 7928 → s.currentHalfTrack / 2 = t.toNat →
      exec (.readByteAt offset) u = .next { u with
        response := .ok (.u8 (data.getD (offset.toNat % s.currentTrackSize) 0)) }) ∧
    (s.headInRange → s.currentTrackSize ≤ 7928 → s.currentHalfTrack / 2 ≠ t.toNat →
      exec (.readByteAt offset) u =
        .next { u with response := .ok (.u8 (trkRead s offset.toNat)) }) ∧
    (size.toNat = 0 →
      exec (.readByteAt offset) v = .next { v with response := .ok (.u8 0xFF) }) ∧
    (0 < size.toNat →
      exec (.readByteAt offset) v =
        .next { v with response := .ok (.u8 (data.getD (offset.toNat % size.toNat) 0)) })

/-- TS_CLEAR leaves every byte of both spaces 0x00, every track size 0 and `dirty` false, and all
Rotation State with the cached size as it was (41_track_store; that `dirty` is cleared is decision
D30). -/
def Obligations.ClearZeroesTrackStore : Prop :=
  ∀ s : State, ∃ t : State, exec .tsClear s = .next t ∧
    t = { s with gcrData := t.gcrData, speedZone := t.speedZone, trackSize := t.trackSize,
                 dirty := false, response := .ok .noValue } ∧
    (∀ a, memRead t.gcrData a = 0 ∧ memRead t.speedZone a = 0) ∧ (∀ k, trackSizeOf t k = 0)

/-- CLEAR_DIRTY, opcode 0x25 and no operands, makes `dirty` false, is always `ok` and touches no other
state (R147). -/
def Obligations.ClearDirtyTouchesOnlyDirty : Prop :=
  decode [0x25] = .ok .clearDirty ∧ encode .clearDirty = [0x25] ∧
  ∀ s : State, ∃ t : State, exec .clearDirty s = .next t ∧ t.dirty = false ∧
    t = { s with dirty := t.dirty, response := .ok .noValue }

/-- GET_DIRTY, opcode 0x26 and no operands, returns `dirty`, is always `ok` and changes no state
(R148). -/
def Obligations.GetDirtyReturnsDirty : Prop :=
  decode [0x26] = .ok .getDirty ∧ encode .getDirty = [0x26] ∧
  ∀ s : State, exec .getDirty s = .next { s with response := .ok (.bool s.dirty) }

/-- TS_READ_TRACK of a track 1..42 returns its size and all 7928 bytes of its two slots as stored, and
changes nothing (41_track_store; notes/assumptions/17.md on the bytes beyond the size). -/
def Obligations.ReadTrackReturnsSlot : Prop :=
  ∀ (t : Byte) (s : State), 1 ≤ t.toNat → t.toNat ≤ 42 →
    ∃ data zones : List Byte,
      exec (.tsReadTrack t) s =
        .next { s with response := .ok (.track (trackSizeOf s t.toNat) data zones) } ∧
      data.length = 7928 ∧ zones.length = 7928 ∧
      ∀ k < 7928, data.getD k 0 = memRead s.gcrData ((t.toNat - 1) * 7928 + k) ∧
        zones.getD k 0 = memRead s.speedZone ((t.toNat - 1) * 7928 + k)

/-! ## The Rotation Engine (42_rotation_engine) -/

/-- The rotation table under-counts by less than 1/ACCUM_MAX of a bit per entry and never over-counts,
and its fraction is below one bit (42_rotation_engine section 1, derived there; the scale is decision
D5). -/
def Obligations.RotationTableNeverOvercounts : Prop :=
  ∀ (z : BitVec 2) (j : Nat),
    tFrac z j < accumMax ∧
    (tBits z j * accumMax + tFrac z j) * 1000000 ≤ j * zoneBps z * accumMax ∧
    j * zoneBps z * accumMax < (tBits z j * accumMax + tFrac z j + 1) * 1000000

/-- Integrate consumes every tick exactly once: `(delta - 1) / 4095` chunks of 4095 ticks and one entry
for the rest, all of it found again in whole bits and the accumulator, which stays below ACCUM_MAX;
zero ticks change nothing (42_rotation_engine section 2; chunking is decision D7). -/
def Obligations.IntegrateConservesBits : Prop :=
  ∀ (z : BitVec 2) (delta accum : Nat), accum < accumMax →
    (integrate z delta accum).2 < accumMax ∧
    (integrate z delta accum).1 * accumMax + (integrate z delta accum).2 =
      accum + (delta - 1) / 4095 * (tBits z 4095 * accumMax + tFrac z 4095) +
        (tBits z (delta - 4095 * ((delta - 1) / 4095)) * accumMax +
          tFrac z (delta - 4095 * ((delta - 1) / 4095))) ∧
    integrate z 0 accum = (0, accum)

/-- One byte committed: a Write commit stores `write_value` at the head, sets `dirty` and moves the head
on, a Read commit moves the head and latches the byte at its new place; each takes 8 bits, and on an
empty track a write stores nothing, a read latches 0xFF and the head stays at 0 (R164). -/
def Obligations.CommitTransfersOneByte : Prop :=
  ∀ s : State, Memory.wf s.gcrData = true →
    (commit .write s = { s with
        gcrData := (commit .write s).gcrData, dirty := true, headOffset := nextOff s s.headOffset,
        bitsMoved := s.bitsMoved - 8 } ∧
      (0 < s.currentTrackSize →
        memRead (commit .write s).gcrData (curBase s + s.headOffset % s.currentTrackSize) =
          s.writeValue ∧
        ∀ a, a ≠ curBase s + s.headOffset % s.currentTrackSize →
          memRead (commit .write s).gcrData a = memRead s.gcrData a)) ∧
    (∃ latched : Byte, commit .read s = { s with
        headOffset := nextOff s s.headOffset, gcrRead := latched,
        bitsMoved := s.bitsMoved - 8 } ∧
      latched = trkRead s (nextOff s s.headOffset)) ∧
    (s.currentTrackSize = 0 →
      (∀ a, memRead (commit .write s).gcrData a = memRead s.gcrData a) ∧
      (commit .read s).gcrRead = 0xFF ∧ (commit .write s).headOffset = 0 ∧
      (commit .read s).headOffset = 0)

/-- ADVANCE with the mode-change signal sets `finish_byte` and does nothing else, whatever the delta and
also when Idle; ADVANCE without it changes nothing when the motor is off or byte-ready disabled
(42_rotation_engine section 2). -/
def Obligations.AdvanceSignalAndIdle : Prop :=
  (∀ (delta : U32) (s : State), exec (.advance delta true) s =
      .next { s with finishByte := true, response := .ok .noValue }) ∧
  (∀ (delta : U32) (s : State), (s.motorOn = false ∨ s.byteReadyEnable = false) →
      exec (.advance delta false) s = .next { s with response := .ok .noValue })

/-- ADVANCE with fewer than 8 bits pending in all commits nothing: the bits and the fraction are kept,
a pending mode flip stays pending, nothing else changes; over no ticks the medium stays where it is
(42_rotation_engine sections 2 and 6, derived there). -/
def Obligations.AdvanceBelowOneByte : Prop :=
  (∀ (delta : U32) (s : State), s.motorOn = true → s.byteReadyEnable = true →
    s.bitsMoved + (integrate s.zone delta.toNat s.accum).1 < 8 →
    exec (.advance delta false) s = .next { s with
      bitsMoved := s.bitsMoved + (integrate s.zone delta.toNat s.accum).1,
      accum := (integrate s.zone delta.toNat s.accum).2,
      response := .ok .noValue }) ∧
  (∀ s : State, s.bitsMoved ≤ 7 →
    exec (.advance 0 false) s = .next { s with response := .ok .noValue })

/-- ADVANCE in Read mode with every byte committed in Read mode, that is with no flip pending or flipped
twice within the byte: `k` whole bytes pass, the head is `k` further modulo the track size, the last
byte is latched, `byte_ready` is armed if that byte is no sync byte, the rest of the bits is kept, a
pending flip is done; no byte of the store and nothing else changes; on an empty track too
(42_rotation_engine sections 2 and 6; `last_mode` is decision D8, the empty track decision D10). -/
def Obligations.AdvanceInReadMode : Prop :=
  ∀ (delta : U32) (s : State), s.motorOn = true → s.byteReadyEnable = true →
    s.readWriteMode = .read → (s.finishByte = false ∨ s.lastMode = .read) → ∀ total k : Nat,
    total = s.bitsMoved + (integrate s.zone delta.toNat s.accum).1 → k = total / 8 → 0 < k →
    exec (.advance delta false) s = .next { s with
      accum := (integrate s.zone delta.toNat s.accum).2,
      bitsMoved := total % 8,
      headOffset :=
        if s.currentTrackSize = 0 then 0 else (s.headOffset + k) % s.currentTrackSize,
      finishByte := false,
      gcrRead := trkRead s (s.headOffset + k),
      byteReady := s.byteReady || trkRead s (s.headOffset + k) != 0xFF,
      response := .ok .noValue }

/-- ADVANCE in Write mode with every byte committed in Write mode, that is with no flip pending or
flipped twice within the byte: `k` whole bytes pass, `write_value` is stored at the `k` places from
the head on modulo the track size and nowhere else (on an empty track nowhere), `dirty` is set, the
head is `k` further, `byte_ready` is armed, a pending flip is done (42_rotation_engine sections 2 and
6; `last_mode` is decision D8, the arming in Write mode decision D9, the empty track decision D10). -/
def Obligations.AdvanceInWriteMode : Prop :=
  ∀ (delta : U32) (s : State), s.motorOn = true → s.byteReadyEnable = true →
    s.readWriteMode = .write → (s.finishByte = false ∨ s.lastMode = .write) →
    Memory.wf s.gcrData = true → ∀ total k : Nat,
    total = s.bitsMoved + (integrate s.zone delta.toNat s.accum).1 → k = total / 8 → 0 < k →
    ∃ t : State, exec (.advance delta false) s = .next t ∧
      t = { s with
        gcrData := t.gcrData,
        dirty := true,
        accum := (integrate s.zone delta.toNat s.accum).2,
        bitsMoved := total % 8,
        headOffset :=
          if s.currentTrackSize = 0 then 0 else (s.headOffset + k) % s.currentTrackSize,
        finishByte := false,
        byteReady := true,
        response := .ok .noValue } ∧
      (0 < s.currentTrackSize → ∀ j < k,
        memRead t.gcrData (curBase s + (s.headOffset + j) % s.currentTrackSize) = s.writeValue) ∧
      (∀ a, (s.currentTrackSize = 0 ∨
          ∀ j < k, a ≠ curBase s + (s.headOffset + j) % s.currentTrackSize) →
        memRead t.gcrData a = memRead s.gcrData a)

/-- The two-phase commit, Write to Read: with a flip pending and `k` whole bytes passed, exactly one
byte is stored, at the head, under the previous mode (on an empty track nowhere); the other `k - 1`
are read, and the flip is done (42_rotation_engine section 2, 95_test_vectors S10; `last_mode` is
decision D8, the empty track decision D10). A flip there and back is in AdvanceInReadMode. -/
def Obligations.FlipWriteToReadStoresOneByte : Prop :=
  ∀ (delta : U32) (s : State), s.motorOn = true → s.byteReadyEnable = true →
    s.readWriteMode = .read → s.finishByte = true → s.lastMode = .write →
    Memory.wf s.gcrData = true → ∀ total k : Nat,
    total = s.bitsMoved + (integrate s.zone delta.toNat s.accum).1 → k = total / 8 → 0 < k →
    ∃ t : State, exec (.advance delta false) s = .next t ∧
      t = { s with
        gcrData := t.gcrData,
        dirty := true,
        accum := (integrate s.zone delta.toNat s.accum).2,
        bitsMoved := total % 8,
        headOffset :=
          if s.currentTrackSize = 0 then 0 else (s.headOffset + k) % s.currentTrackSize,
        finishByte := false,
        lastMode := .read,
        gcrRead := if k = 1 then s.gcrRead else trkRead t (s.headOffset + k),
        byteReady := s.byteReady || trkRead t (s.headOffset + k) != 0xFF,
        response := .ok .noValue } ∧
      (0 < s.currentTrackSize →
        memRead t.gcrData (curBase s + s.headOffset % s.currentTrackSize) = s.writeValue) ∧
      (∀ a, (s.currentTrackSize = 0 ∨ a ≠ curBase s + s.headOffset % s.currentTrackSize) →
        memRead t.gcrData a = memRead s.gcrData a)

/-- The two-phase commit, Read to Write: with a flip pending and `k` whole bytes passed, exactly one
byte is read, under the previous mode; the other `k - 1` places after it are written (on an empty
track none), and the flip is done (42_rotation_engine section 2; `last_mode` is decision D8, the
arming decision D9, the empty track decision D10). A flip there and back is in AdvanceInWriteMode. -/
def Obligations.FlipReadToWriteReadsOneByte : Prop :=
  ∀ (delta : U32) (s : State), s.motorOn = true → s.byteReadyEnable = true →
    s.readWriteMode = .write → s.finishByte = true → s.lastMode = .read →
    Memory.wf s.gcrData = true → ∀ total k : Nat,
    total = s.bitsMoved + (integrate s.zone delta.toNat s.accum).1 → k = total / 8 → 0 < k →
    ∃ t : State, exec (.advance delta false) s = .next t ∧
      t = { s with
        gcrData := t.gcrData,
        dirty := s.dirty || decide (1 < k),
        accum := (integrate s.zone delta.toNat s.accum).2,
        bitsMoved := total % 8,
        headOffset :=
          if s.currentTrackSize = 0 then 0 else (s.headOffset + k) % s.currentTrackSize,
        finishByte := false,
        lastMode := .write,
        gcrRead := trkRead s (s.headOffset + 1),
        byteReady := true,
        response := .ok .noValue } ∧
      (0 < s.currentTrackSize → ∀ j, 1 ≤ j → j < k →
        memRead t.gcrData (curBase s + (s.headOffset + j) % s.currentTrackSize) = s.writeValue) ∧
      (∀ a, (s.currentTrackSize = 0 ∨ ∀ j, 1 ≤ j → j < k →
          a ≠ curBase s + (s.headOffset + j) % s.currentTrackSize) →
        memRead t.gcrData a = memRead s.gcrData a)

/-- Sync is two sync bytes in a row at the head, in Read mode only, and depends on neither the motor nor
the byte-ready enable, the flag or the recorded attach (R168). -/
def Obligations.SyncNeedsTwoBytesInReadMode : Prop :=
  ∀ s : State,
    (syncNow s = true ↔ s.readWriteMode = .read ∧ trkRead s s.headOffset = 0xFF ∧
      trkRead s (prevOff s s.headOffset) = 0xFF) ∧
    ∀ (motor enable ready valid : Bool) (latch : Byte) (attach : Clk),
      syncNow { s with motorOn := motor, byteReadyEnable := enable, byteReady := ready,
                       attachValid := valid, gcrRead := latch, attachClk := attach } = syncNow s

/-! ## Clocked operations (42_rotation_engine section 3, 45_drive_session_api) -/

/-- The clocked reads: with a clock not below `rotation_last_clk`, what ADVANCE over the elapsed ticks
answers, then `rotation_last_clk` at the clock, then the value: SYNC_FOUND the sync condition,
BYTE_READY the flag under the enable, READ_DISK_BYTE (no attach recorded) the latch
(45_drive_session_api section 2; the delta is decision D2, that nothing is cleared decision D29). -/
def Obligations.ClockedReadsAdvanceFirst : Prop :=
  ∀ (clk : Clk) (s : State), s.rotationLastClk.toNat ≤ clk.toNat → ∃ s1 : State,
    exec (.advance (clk - s.rotationLastClk) false) s = .next s1 ∧
    exec (.syncFound clk) s = .next { s1 with
      rotationLastClk := clk,
      response := .ok (.bool (syncNow s1)) } ∧
    exec (.byteReady clk) s = .next { s1 with
      rotationLastClk := clk,
      response := .ok (.bool (s.motorOn && s.byteReadyEnable && s1.byteReady)) } ∧
    (s.attachValid = false → exec (.readDiskByte clk) s = .next { s1 with
      rotationLastClk := clk,
      response := .ok (.u8 s1.gcrRead) })

/-- The clocked writes: with a clock not below `rotation_last_clk`, what ADVANCE over the elapsed ticks
under the OLD setting answers, then `rotation_last_clk` at the clock, then the one field: WRITE_GCR
the write latch, MOTOR_CONTROL the motor, UPDATE_ZONE_BITS the zone from the operand's low two bits
(45_drive_session_api section 2; decisions D2, D18, D31). -/
def Obligations.ClockedWritesAdvanceFirst : Prop :=
  ∀ (clk : Clk) (s : State), s.rotationLastClk.toNat ≤ clk.toNat → ∃ s1 : State,
    exec (.advance (clk - s.rotationLastClk) false) s = .next s1 ∧
    (∀ value : Byte, exec (.writeGcr clk value) s = .next { s1 with
      rotationLastClk := clk, writeValue := value, response := .ok .noValue }) ∧
    (∀ flag : Bool, exec (.motorControl clk flag) s = .next { s1 with
      rotationLastClk := clk, motorOn := flag, response := .ok .noValue }) ∧
    (∀ v : Byte, ∃ z : BitVec 2, z.toNat = v.toNat % 4 ∧
      exec (.updateZoneBits clk v) s = .next { s1 with
        rotationLastClk := clk, zone := z, response := .ok .noValue })

/-- UPDATE_PCR: ADVANCE over the elapsed ticks first, then bit 1 of the operand is the byte-ready enable
and bit 5 the mode (1 Read, 0 Write); a mode that changes raises `finish_byte`, one that does not
leaves it, and `last_mode` is not written (45_drive_session_api section 2; bit positions are decision
D17, the order decision D31). -/
def Obligations.UpdatePcrRaisesFinishByteOnFlip : Prop :=
  ∀ (clk : Clk) (v : Byte) (s : State), s.rotationLastClk.toNat ≤ clk.toNat → ∃ s1 : State,
    exec (.advance (clk - s.rotationLastClk) false) s = .next s1 ∧
    ∃ m : Mode, (m = .read ↔ v.toNat / 32 % 2 = 1) ∧
      exec (.updatePcr clk v) s = .next { s1 with
        rotationLastClk := clk,
        byteReadyEnable := decide (v.toNat / 2 % 2 = 1),
        readWriteMode := m,
        finishByte := s1.finishByte || decide (m ≠ s.readWriteMode),
        response := .ok .noValue }

/-- READ_DISK_BYTE: inside the attach-settling window 0 and the state unchanged, not even the clock
tested; outside it a clock gone back is refused (45_drive_session_api section 2; the window is
decision D19, its length OPEN, the refusal decision D27). -/
def Obligations.ReadDiskByteSettlingWindow : Prop :=
  ∀ (clk : Clk) (s : State),
    (s.attachValid = true ∧ clk.toNat < s.attachClk.toNat + attachSettleClks →
      exec (.readDiskByte clk) s = .next { s with response := .ok (.u8 0x00) }) ∧
    (¬ (s.attachValid = true ∧ clk.toNat < s.attachClk.toNat + attachSettleClks) →
      (clk.toNat < s.rotationLastClk.toNat →
        exec (.readDiskByte clk) s = .next { s with response := .refused .clockWentBack }) ∧
      (s.rotationLastClk.toNat ≤ clk.toNat →
        ∃ s1 : State, exec (.advance (clk - s.rotationLastClk) false) s = .next s1 ∧
          exec (.readDiskByte clk) s = .next { s1 with
            rotationLastClk := clk, response := .ok (.u8 s1.gcrRead) }))

/-- CLK_REBASE with a clock below neither REBASE_AMOUNT nor `rotation_last_clk`: one last ADVANCE over
the elapsed ticks, then `rotation_last_clk` and the recorded timestamps lowered by REBASE_AMOUNT, the
latter saturating at 0; no bit is lost and nothing else changes (42_rotation_engine section 5; the
amount is OPEN, saturation decision D20). -/
def Obligations.RebaseLowersClocksAfterLastAdvance : Prop :=
  ∀ (clk : Clk) (s : State), s.rotationLastClk.toNat ≤ clk.toNat →
    rebaseAmount.toNat ≤ clk.toNat → ∃ s1 t : State,
    exec (.advance (clk - s.rotationLastClk) false) s = .next s1 ∧
    exec (.clkRebase clk) s = .next t ∧
    t = { s1 with
      rotationLastClk := t.rotationLastClk, attachClk := t.attachClk, detachClk := t.detachClk,
      response := .ok .noValue } ∧
    t.rotationLastClk.toNat = clk.toNat - rebaseAmount.toNat ∧
    t.attachClk.toNat =
      (if s.attachValid then s.attachClk.toNat - rebaseAmount.toNat else s.attachClk.toNat) ∧
    t.detachClk.toNat =
      (if s.detachValid then s.detachClk.toNat - rebaseAmount.toNat else s.detachClk.toNat)

/-- SET_BYTE_READY stores its flag and NOTE_ATTACH and NOTE_DETACH record their clock as it is, without
integrating and without testing it; nothing else changes (45_drive_session_api section 2; decisions
D19 and D29). -/
def Obligations.UnclockedSessionWrites : Prop :=
  (∀ (flag : Bool) (s : State), exec (.setByteReady flag) s =
      .next { s with byteReady := flag, response := .ok .noValue }) ∧
  (∀ (clk : Clk) (s : State), exec (.noteAttach clk) s =
      .next { s with attachClk := clk, attachValid := true, response := .ok .noValue }) ∧
  (∀ (clk : Clk) (s : State), exec (.noteDetach clk) s =
      .next { s with detachClk := clk, detachValid := true, response := .ok .noValue })

/-- READ_DISK_BYTE, BYTE_READY, SYNC_FOUND or WRITE_GCR repeated with the same operands changes nothing
more and returns the same: the second SYNC_TO has delta 0 (20_memory section 4, derived there of
these four). -/
def Obligations.SameClockRepeatsAreIdempotent : Prop :=
  ∀ (i : Instr) (clk : Clk) (s t : State),
    (i = .readDiskByte clk ∨ i = .byteReady clk ∨ i = .syncFound clk ∨
      ∃ value, i = .writeGcr clk value) →
    exec i s = .next t → exec i t = .next t

/-! ## Rules of the whole machine (10_state) -/

/-- `dirty` once set is cleared by CLEAR_DIRTY and TS_CLEAR only (10_state section 2; TS_CLEAR is
decision D30). -/
def Obligations.DirtyClearedOnlyByHost : Prop :=
  ∀ (i : Instr) (s t : State), exec i s = .next t → s.dirty = true →
    i ≠ .clearDirty → i ≠ .tsClear → t.dirty = true

/-- `byte_ready` once armed is cleared by SET_BYTE_READY false only: not by a read, not by the head
reaching a sync byte, not by RESET (10_state section 6, 60_exceptions section 2; decision D29). -/
def Obligations.ByteReadyClearedOnlyBySetByteReady : Prop :=
  ∀ (i : Instr) (s t : State), exec i s = .next t → s.byteReady = true →
    i ≠ .setByteReady false → t.byteReady = true

/-- Who writes what: the zone array and the track sizes only TS_LOAD_TRACK and TS_CLEAR; the half-track
and the cached size only SET_HALF_TRACK, MOVE_HEAD and RESET; the zone, the motor, the mode and the
enable, the write latch only their one operation each; the timestamps only NOTE_ATTACH, NOTE_DETACH
and CLK_REBASE (10_state; decisions D24 and D30). -/
def Obligations.EachControlFieldHasItsWriters : Prop :=
  ∀ (i : Instr) (s t : State), exec i s = .next t →
    ((∀ k size data zones, i ≠ .tsLoadTrack k size data zones) → i ≠ .tsClear →
      t.speedZone = s.speedZone ∧ t.trackSize = s.trackSize) ∧
    ((∀ n, i ≠ .setHalfTrack n) → (∀ n, i ≠ .moveHead n) → i ≠ .reset →
      t.currentHalfTrack = s.currentHalfTrack ∧ t.currentTrackSize = s.currentTrackSize) ∧
    ((∀ clk v, i ≠ .updateZoneBits clk v) → t.zone = s.zone) ∧
    ((∀ clk flag, i ≠ .motorControl clk flag) → t.motorOn = s.motorOn) ∧
    ((∀ clk v, i ≠ .updatePcr clk v) →
      t.readWriteMode = s.readWriteMode ∧ t.byteReadyEnable = s.byteReadyEnable) ∧
    ((∀ clk value, i ≠ .writeGcr clk value) → t.writeValue = s.writeValue) ∧
    ((∀ clk, i ≠ .noteAttach clk) → (∀ clk, i ≠ .clkRebase clk) →
      t.attachClk = s.attachClk ∧ t.attachValid = s.attachValid) ∧
    ((∀ clk, i ≠ .noteDetach clk) → (∀ clk, i ≠ .clkRebase clk) →
      t.detachClk = s.detachClk ∧ t.detachValid = s.detachValid) ∧
    t.requests = s.requests

/-- Time and the medium move in clocked operations and ADVANCE only: every other operation leaves the
pending bits, the fraction, the read latch, the two flip flags and `rotation_last_clk` as they were;
and `rotation_last_clk` never decreases but by CLK_REBASE (20_memory section 5, 10_state section 5;
decisions D3, D29 and D31). -/
def Obligations.OnlyClockedOperationsTurnTheDisk : Prop :=
  ∀ (i : Instr) (s t : State), exec i s = .next t →
    (clockOf i s = none → (∀ delta changed, i ≠ .advance delta changed) →
      t.bitsMoved = s.bitsMoved ∧ t.accum = s.accum ∧ t.gcrRead = s.gcrRead ∧
      t.finishByte = s.finishByte ∧ t.lastMode = s.lastMode ∧
      t.rotationLastClk = s.rotationLastClk) ∧
    ((∀ clk, i ≠ .clkRebase clk) → s.rotationLastClk.toNat ≤ t.rotationLastClk.toNat)

/-- Every operation but TS_LOAD_TRACK and TS_CLEAR leaves every byte of the store outside the current
track window as it was: padding and other tracks are never under the head (20_memory sections 1 and
2). -/
def Obligations.StoresStayInCurrentTrackWindow : Prop :=
  ∀ (i : Instr) (s t : State) (a : Nat), exec i s = .next t →
    (∀ k size data zones, i ≠ .tsLoadTrack k size data zones) → i ≠ .tsClear →
    (a < curBase s ∨ curBase s + s.currentTrackSize ≤ a) →
    memRead t.gcrData a = memRead s.gcrData a

/-- The operations that only return something change nothing else: the codec, the reads of the store and
the Locator (47_semantic_laws). -/
def Obligations.PureReadsChangeNothing : Prop :=
  ∀ (i : Instr) (s t : State), exec i s = .next t →
    ((∃ raw, i = .gcrEnc4 raw) ∨ (∃ gcr, i = .gcrDec5 gcr) ∨
      (∃ track sector id1 id2 payload, i = .encodeSector track sector id1 id2 payload) ∨
      (∃ offset, i = .decodeSector offset) ∨ (∃ offset, i = .readByteAt offset) ∨
      i = .getDirty ∨ (∃ k, i = .tsReadTrack k) ∨
      (∃ track sector, i = .findSectorHeader track sector) ∨
      (∃ offset, i = .findSectorData offset)) →
    t = { s with response := t.response }

/-- The six pseudo-operations that have an expansion run as it is listed: SEEK_TRACK, STEP_IN, STEP_OUT,
WAIT; SET_MODE with the operands 0x22, 0x02, 0x20 and 0x00; READ_SECTOR locates the header, then the
data from the offset found, then decodes at the offset found, and stops with "not found" where either
locate does (30_encoding part C; the operand values rest on the bit positions of decision D17). -/
def Obligations.PseudoOperationsExpand : Prop :=
  (∀ (t : Byte) (s : State), runPseudo (.seekTrack t) s =
    exec (.setHalfTrack (BitVec.ofNat 32 (2 * t.toNat))) s) ∧
  (∀ s : State, runPseudo .stepIn s = exec (.moveHead (BitVec.ofInt 32 1)) s ∧
    runPseudo .stepOut s = exec (.moveHead (BitVec.ofInt 32 (-1))) s) ∧
  (∀ (clk : Clk) (s : State), runPseudo (.wait clk) s = exec (.byteReady clk) s) ∧
  (∀ (clk : Clk) (s : State),
    runPseudo (.setMode .read true clk) s = exec (.updatePcr clk 0x22) s ∧
    runPseudo (.setMode .write true clk) s = exec (.updatePcr clk 0x02) s ∧
    runPseudo (.setMode .read false clk) s = exec (.updatePcr clk 0x20) s ∧
    runPseudo (.setMode .write false clk) s = exec (.updatePcr clk 0x00) s) ∧
  (∀ (track sector : Byte) (s : State), ∃ header : Option Nat,
    exec (.findSectorHeader track sector) s =
      .next { s with response := .ok (.offset header) } ∧
    (header = none → runPseudo (.readSector track sector) s =
      .next { s with response := .ok (.offset none) }) ∧
    ∀ h, header = some h → ∃ data : Option Nat,
      exec (.findSectorData (BitVec.ofNat 32 h)) s =
        .next { s with response := .ok (.offset data) } ∧
      (data = none → runPseudo (.readSector track sector) s =
        .next { s with response := .ok (.offset none) }) ∧
      ∀ d, data = some d → runPseudo (.readSector track sector) s =
        exec (.decodeSector (BitVec.ofNat 32 d)) s)

/-! ## The invariants of 10_state section 10 and power-on -/

/-- The power-on state meets the invariants (10_state section 10, derived there). -/
def Obligations.PowerOnMeetsInvariants : Prop := State.reset.Inv

/-- Every step keeps the invariants, from every state that meets them: the head on a legal half-track
and inside its track, sizes within the slots, fewer than 8 bits and less than a bit of fraction
pending, the modes agreeing while no flip is pending, legal zone ids, and both byte spaces canonical
and within the 42 reachable slots (10_state section 10, derived there). -/
def Obligations.StepKeepsInvariants : Prop :=
  ∀ s t : State, s.Inv → step s = .next t → t.Inv

/-- Power-on: Idle with the motor off and byte-ready disabled, Read mode, the head on half-track 36 of an
empty store, every track reading 0xFF, nothing dirty, ready or recorded (10_state section 11: every
value is the spec's decision D25, notes/assumptions/3.md). -/
def Obligations.PowerOnIsIdleOnEmptyStore : Prop :=
  engineState State.reset = .idle ∧ State.reset.motorOn = false ∧
  State.reset.byteReadyEnable = false ∧ State.reset.readWriteMode = .read ∧
  State.reset.lastMode = .read ∧ State.reset.finishByte = false ∧
  State.reset.currentHalfTrack = 36 ∧ State.reset.headOffset = 0 ∧
  State.reset.currentTrackSize = 0 ∧ (∀ k, trackSizeOf State.reset k = 0) ∧
  (∀ a, memRead State.reset.gcrData a = 0 ∧ memRead State.reset.speedZone a = 0) ∧
  (∀ o, trkRead State.reset o = 0xFF) ∧ State.reset.dirty = false ∧
  State.reset.bitsMoved = 0 ∧ State.reset.accum = 0 ∧ State.reset.rotationLastClk = 0 ∧
  State.reset.gcrRead = 0x00 ∧ State.reset.writeValue = 0x55 ∧ State.reset.byteReady = false ∧
  State.reset.zone = 0 ∧ State.reset.attachValid = false ∧ State.reset.detachValid = false ∧
  State.reset.attachClk = 0 ∧ State.reset.detachClk = 0
end

