-- ==== Sys2Proof/Laws/State.lean ====
section
/-! SUPPORT. One lemma per field per update of `State`, each true by definition, so that no proof
unfolds a record update. -/

namespace Sys2Proof.Machine

open Sys2Proof

/-! ## respond -/

@[simp] theorem respond_gcrData (r : Result) (s : State) : (respond r s).gcrData = s.gcrData := rfl
@[simp] theorem respond_speedZone (r : Result) (s : State) :
    (respond r s).speedZone = s.speedZone := rfl
@[simp] theorem respond_trackSize (r : Result) (s : State) :
    (respond r s).trackSize = s.trackSize := rfl
@[simp] theorem respond_dirty (r : Result) (s : State) : (respond r s).dirty = s.dirty := rfl
@[simp] theorem respond_currentHalfTrack (r : Result) (s : State) :
    (respond r s).currentHalfTrack = s.currentHalfTrack := rfl
@[simp] theorem respond_headOffset (r : Result) (s : State) :
    (respond r s).headOffset = s.headOffset := rfl
@[simp] theorem respond_currentTrackSize (r : Result) (s : State) :
    (respond r s).currentTrackSize = s.currentTrackSize := rfl
@[simp] theorem respond_bitsMoved (r : Result) (s : State) :
    (respond r s).bitsMoved = s.bitsMoved := rfl
@[simp] theorem respond_accum (r : Result) (s : State) : (respond r s).accum = s.accum := rfl
@[simp] theorem respond_readWriteMode (r : Result) (s : State) :
    (respond r s).readWriteMode = s.readWriteMode := rfl
@[simp] theorem respond_finishByte (r : Result) (s : State) :
    (respond r s).finishByte = s.finishByte := rfl
@[simp] theorem respond_lastMode (r : Result) (s : State) :
    (respond r s).lastMode = s.lastMode := rfl
@[simp] theorem respond_rotationLastClk (r : Result) (s : State) :
    (respond r s).rotationLastClk = s.rotationLastClk := rfl
@[simp] theorem respond_gcrRead (r : Result) (s : State) : (respond r s).gcrRead = s.gcrRead := rfl
@[simp] theorem respond_writeValue (r : Result) (s : State) :
    (respond r s).writeValue = s.writeValue := rfl
@[simp] theorem respond_byteReady (r : Result) (s : State) :
    (respond r s).byteReady = s.byteReady := rfl
@[simp] theorem respond_motorOn (r : Result) (s : State) : (respond r s).motorOn = s.motorOn := rfl
@[simp] theorem respond_byteReadyEnable (r : Result) (s : State) :
    (respond r s).byteReadyEnable = s.byteReadyEnable := rfl
@[simp] theorem respond_zone (r : Result) (s : State) : (respond r s).zone = s.zone := rfl
@[simp] theorem respond_attachClk (r : Result) (s : State) :
    (respond r s).attachClk = s.attachClk := rfl
@[simp] theorem respond_attachValid (r : Result) (s : State) :
    (respond r s).attachValid = s.attachValid := rfl
@[simp] theorem respond_detachClk (r : Result) (s : State) :
    (respond r s).detachClk = s.detachClk := rfl
@[simp] theorem respond_detachValid (r : Result) (s : State) :
    (respond r s).detachValid = s.detachValid := rfl
@[simp] theorem respond_requests (r : Result) (s : State) :
    (respond r s).requests = s.requests := rfl
@[simp] theorem respond_response (r : Result) (s : State) : (respond r s).response = .ok r := rfl

/-! ## refuse -/

@[simp] theorem refuse_gcrData (why : RefuseReason) (s : State) :
    (refuse why s).gcrData = s.gcrData := rfl
@[simp] theorem refuse_speedZone (why : RefuseReason) (s : State) :
    (refuse why s).speedZone = s.speedZone := rfl
@[simp] theorem refuse_trackSize (why : RefuseReason) (s : State) :
    (refuse why s).trackSize = s.trackSize := rfl
@[simp] theorem refuse_dirty (why : RefuseReason) (s : State) :
    (refuse why s).dirty = s.dirty := rfl
@[simp] theorem refuse_currentHalfTrack (why : RefuseReason) (s : State) :
    (refuse why s).currentHalfTrack = s.currentHalfTrack := rfl
@[simp] theorem refuse_headOffset (why : RefuseReason) (s : State) :
    (refuse why s).headOffset = s.headOffset := rfl
@[simp] theorem refuse_currentTrackSize (why : RefuseReason) (s : State) :
    (refuse why s).currentTrackSize = s.currentTrackSize := rfl
@[simp] theorem refuse_bitsMoved (why : RefuseReason) (s : State) :
    (refuse why s).bitsMoved = s.bitsMoved := rfl
@[simp] theorem refuse_accum (why : RefuseReason) (s : State) :
    (refuse why s).accum = s.accum := rfl
@[simp] theorem refuse_readWriteMode (why : RefuseReason) (s : State) :
    (refuse why s).readWriteMode = s.readWriteMode := rfl
@[simp] theorem refuse_finishByte (why : RefuseReason) (s : State) :
    (refuse why s).finishByte = s.finishByte := rfl
@[simp] theorem refuse_lastMode (why : RefuseReason) (s : State) :
    (refuse why s).lastMode = s.lastMode := rfl
@[simp] theorem refuse_rotationLastClk (why : RefuseReason) (s : State) :
    (refuse why s).rotationLastClk = s.rotationLastClk := rfl
@[simp] theorem refuse_gcrRead (why : RefuseReason) (s : State) :
    (refuse why s).gcrRead = s.gcrRead := rfl
@[simp] theorem refuse_writeValue (why : RefuseReason) (s : State) :
    (refuse why s).writeValue = s.writeValue := rfl
@[simp] theorem refuse_byteReady (why : RefuseReason) (s : State) :
    (refuse why s).byteReady = s.byteReady := rfl
@[simp] theorem refuse_motorOn (why : RefuseReason) (s : State) :
    (refuse why s).motorOn = s.motorOn := rfl
@[simp] theorem refuse_byteReadyEnable (why : RefuseReason) (s : State) :
    (refuse why s).byteReadyEnable = s.byteReadyEnable := rfl
@[simp] theorem refuse_zone (why : RefuseReason) (s : State) : (refuse why s).zone = s.zone := rfl
@[simp] theorem refuse_attachClk (why : RefuseReason) (s : State) :
    (refuse why s).attachClk = s.attachClk := rfl
@[simp] theorem refuse_attachValid (why : RefuseReason) (s : State) :
    (refuse why s).attachValid = s.attachValid := rfl
@[simp] theorem refuse_detachClk (why : RefuseReason) (s : State) :
    (refuse why s).detachClk = s.detachClk := rfl
@[simp] theorem refuse_detachValid (why : RefuseReason) (s : State) :
    (refuse why s).detachValid = s.detachValid := rfl
@[simp] theorem refuse_requests (why : RefuseReason) (s : State) :
    (refuse why s).requests = s.requests := rfl
@[simp] theorem refuse_response (why : RefuseReason) (s : State) :
    (refuse why s).response = .refused why := rfl

/-! ## trkWrite -/

@[simp] theorem trkWrite_gcrData (o : Nat) (v : Byte) (s : State) :
    (trkWrite o v s).gcrData = if s.currentTrackSize = 0 then s.gcrData
      else memWrite s.gcrData (curBase s + o % s.currentTrackSize) v := rfl
@[simp] theorem trkWrite_speedZone (o : Nat) (v : Byte) (s : State) :
    (trkWrite o v s).speedZone = s.speedZone := rfl
@[simp] theorem trkWrite_trackSize (o : Nat) (v : Byte) (s : State) :
    (trkWrite o v s).trackSize = s.trackSize := rfl
@[simp] theorem trkWrite_dirty (o : Nat) (v : Byte) (s : State) :
    (trkWrite o v s).dirty = true := rfl
@[simp] theorem trkWrite_currentHalfTrack (o : Nat) (v : Byte) (s : State) :
    (trkWrite o v s).currentHalfTrack = s.currentHalfTrack := rfl
@[simp] theorem trkWrite_headOffset (o : Nat) (v : Byte) (s : State) :
    (trkWrite o v s).headOffset = s.headOffset := rfl
@[simp] theorem trkWrite_currentTrackSize (o : Nat) (v : Byte) (s : State) :
    (trkWrite o v s).currentTrackSize = s.currentTrackSize := rfl
@[simp] theorem trkWrite_bitsMoved (o : Nat) (v : Byte) (s : State) :
    (trkWrite o v s).bitsMoved = s.bitsMoved := rfl
@[simp] theorem trkWrite_accum (o : Nat) (v : Byte) (s : State) :
    (trkWrite o v s).accum = s.accum := rfl
@[simp] theorem trkWrite_readWriteMode (o : Nat) (v : Byte) (s : State) :
    (trkWrite o v s).readWriteMode = s.readWriteMode := rfl
@[simp] theorem trkWrite_finishByte (o : Nat) (v : Byte) (s : State) :
    (trkWrite o v s).finishByte = s.finishByte := rfl
@[simp] theorem trkWrite_lastMode (o : Nat) (v : Byte) (s : State) :
    (trkWrite o v s).lastMode = s.lastMode := rfl
@[simp] theorem trkWrite_rotationLastClk (o : Nat) (v : Byte) (s : State) :
    (trkWrite o v s).rotationLastClk = s.rotationLastClk := rfl
@[simp] theorem trkWrite_gcrRead (o : Nat) (v : Byte) (s : State) :
    (trkWrite o v s).gcrRead = s.gcrRead := rfl
@[simp] theorem trkWrite_writeValue (o : Nat) (v : Byte) (s : State) :
    (trkWrite o v s).writeValue = s.writeValue := rfl
@[simp] theorem trkWrite_byteReady (o : Nat) (v : Byte) (s : State) :
    (trkWrite o v s).byteReady = s.byteReady := rfl
@[simp] theorem trkWrite_motorOn (o : Nat) (v : Byte) (s : State) :
    (trkWrite o v s).motorOn = s.motorOn := rfl
@[simp] theorem trkWrite_byteReadyEnable (o : Nat) (v : Byte) (s : State) :
    (trkWrite o v s).byteReadyEnable = s.byteReadyEnable := rfl
@[simp] theorem trkWrite_zone (o : Nat) (v : Byte) (s : State) :
    (trkWrite o v s).zone = s.zone := rfl
@[simp] theorem trkWrite_attachClk (o : Nat) (v : Byte) (s : State) :
    (trkWrite o v s).attachClk = s.attachClk := rfl
@[simp] theorem trkWrite_attachValid (o : Nat) (v : Byte) (s : State) :
    (trkWrite o v s).attachValid = s.attachValid := rfl
@[simp] theorem trkWrite_detachClk (o : Nat) (v : Byte) (s : State) :
    (trkWrite o v s).detachClk = s.detachClk := rfl
@[simp] theorem trkWrite_detachValid (o : Nat) (v : Byte) (s : State) :
    (trkWrite o v s).detachValid = s.detachValid := rfl
@[simp] theorem trkWrite_requests (o : Nat) (v : Byte) (s : State) :
    (trkWrite o v s).requests = s.requests := rfl
@[simp] theorem trkWrite_response (o : Nat) (v : Byte) (s : State) :
    (trkWrite o v s).response = s.response := rfl

/-! ## positionHead -/

@[simp] theorem positionHead_gcrData (n : Int) (s : State) :
    (positionHead n s).gcrData = s.gcrData := rfl
@[simp] theorem positionHead_speedZone (n : Int) (s : State) :
    (positionHead n s).speedZone = s.speedZone := rfl
@[simp] theorem positionHead_trackSize (n : Int) (s : State) :
    (positionHead n s).trackSize = s.trackSize := rfl
@[simp] theorem positionHead_dirty (n : Int) (s : State) : (positionHead n s).dirty = s.dirty := rfl
@[simp] theorem positionHead_currentHalfTrack (n : Int) (s : State) :
    (positionHead n s).currentHalfTrack = clampHalfTrack n := rfl
@[simp] theorem positionHead_headOffset (n : Int) (s : State) :
    (positionHead n s).headOffset = 0 := rfl
@[simp] theorem positionHead_currentTrackSize (n : Int) (s : State) :
    (positionHead n s).currentTrackSize = trackSizeOf s (clampHalfTrack n / 2) := rfl
@[simp] theorem positionHead_bitsMoved (n : Int) (s : State) :
    (positionHead n s).bitsMoved = s.bitsMoved := rfl
@[simp] theorem positionHead_accum (n : Int) (s : State) : (positionHead n s).accum = s.accum := rfl
@[simp] theorem positionHead_readWriteMode (n : Int) (s : State) :
    (positionHead n s).readWriteMode = s.readWriteMode := rfl
@[simp] theorem positionHead_finishByte (n : Int) (s : State) :
    (positionHead n s).finishByte = s.finishByte := rfl
@[simp] theorem positionHead_lastMode (n : Int) (s : State) :
    (positionHead n s).lastMode = s.lastMode := rfl
@[simp] theorem positionHead_rotationLastClk (n : Int) (s : State) :
    (positionHead n s).rotationLastClk = s.rotationLastClk := rfl
@[simp] theorem positionHead_gcrRead (n : Int) (s : State) :
    (positionHead n s).gcrRead = s.gcrRead := rfl
@[simp] theorem positionHead_writeValue (n : Int) (s : State) :
    (positionHead n s).writeValue = s.writeValue := rfl
@[simp] theorem positionHead_byteReady (n : Int) (s : State) :
    (positionHead n s).byteReady = s.byteReady := rfl
@[simp] theorem positionHead_motorOn (n : Int) (s : State) :
    (positionHead n s).motorOn = s.motorOn := rfl
@[simp] theorem positionHead_byteReadyEnable (n : Int) (s : State) :
    (positionHead n s).byteReadyEnable = s.byteReadyEnable := rfl
@[simp] theorem positionHead_zone (n : Int) (s : State) : (positionHead n s).zone = s.zone := rfl
@[simp] theorem positionHead_attachClk (n : Int) (s : State) :
    (positionHead n s).attachClk = s.attachClk := rfl
@[simp] theorem positionHead_attachValid (n : Int) (s : State) :
    (positionHead n s).attachValid = s.attachValid := rfl
@[simp] theorem positionHead_detachClk (n : Int) (s : State) :
    (positionHead n s).detachClk = s.detachClk := rfl
@[simp] theorem positionHead_detachValid (n : Int) (s : State) :
    (positionHead n s).detachValid = s.detachValid := rfl
@[simp] theorem positionHead_requests (n : Int) (s : State) :
    (positionHead n s).requests = s.requests := rfl
@[simp] theorem positionHead_response (n : Int) (s : State) :
    (positionHead n s).response = s.response := rfl

/-! ## presentFirst -/

@[simp] theorem presentFirst_gcrData (r : List Byte) (s : State) :
    (presentFirst r s).gcrData = s.gcrData := rfl
@[simp] theorem presentFirst_speedZone (r : List Byte) (s : State) :
    (presentFirst r s).speedZone = s.speedZone := rfl
@[simp] theorem presentFirst_trackSize (r : List Byte) (s : State) :
    (presentFirst r s).trackSize = s.trackSize := rfl
@[simp] theorem presentFirst_dirty (r : List Byte) (s : State) :
    (presentFirst r s).dirty = s.dirty := rfl
@[simp] theorem presentFirst_currentHalfTrack (r : List Byte) (s : State) :
    (presentFirst r s).currentHalfTrack = s.currentHalfTrack := rfl
@[simp] theorem presentFirst_headOffset (r : List Byte) (s : State) :
    (presentFirst r s).headOffset = s.headOffset := rfl
@[simp] theorem presentFirst_currentTrackSize (r : List Byte) (s : State) :
    (presentFirst r s).currentTrackSize = s.currentTrackSize := rfl
@[simp] theorem presentFirst_bitsMoved (r : List Byte) (s : State) :
    (presentFirst r s).bitsMoved = s.bitsMoved := rfl
@[simp] theorem presentFirst_accum (r : List Byte) (s : State) :
    (presentFirst r s).accum = s.accum := rfl
@[simp] theorem presentFirst_readWriteMode (r : List Byte) (s : State) :
    (presentFirst r s).readWriteMode = s.readWriteMode := rfl
@[simp] theorem presentFirst_finishByte (r : List Byte) (s : State) :
    (presentFirst r s).finishByte = s.finishByte := rfl
@[simp] theorem presentFirst_lastMode (r : List Byte) (s : State) :
    (presentFirst r s).lastMode = s.lastMode := rfl
@[simp] theorem presentFirst_rotationLastClk (r : List Byte) (s : State) :
    (presentFirst r s).rotationLastClk = s.rotationLastClk := rfl
@[simp] theorem presentFirst_gcrRead (r : List Byte) (s : State) :
    (presentFirst r s).gcrRead = s.gcrRead := rfl
@[simp] theorem presentFirst_writeValue (r : List Byte) (s : State) :
    (presentFirst r s).writeValue = s.writeValue := rfl
@[simp] theorem presentFirst_byteReady (r : List Byte) (s : State) :
    (presentFirst r s).byteReady = s.byteReady := rfl
@[simp] theorem presentFirst_motorOn (r : List Byte) (s : State) :
    (presentFirst r s).motorOn = s.motorOn := rfl
@[simp] theorem presentFirst_byteReadyEnable (r : List Byte) (s : State) :
    (presentFirst r s).byteReadyEnable = s.byteReadyEnable := rfl
@[simp] theorem presentFirst_zone (r : List Byte) (s : State) :
    (presentFirst r s).zone = s.zone := rfl
@[simp] theorem presentFirst_attachClk (r : List Byte) (s : State) :
    (presentFirst r s).attachClk = s.attachClk := rfl
@[simp] theorem presentFirst_attachValid (r : List Byte) (s : State) :
    (presentFirst r s).attachValid = s.attachValid := rfl
@[simp] theorem presentFirst_detachClk (r : List Byte) (s : State) :
    (presentFirst r s).detachClk = s.detachClk := rfl
@[simp] theorem presentFirst_detachValid (r : List Byte) (s : State) :
    (presentFirst r s).detachValid = s.detachValid := rfl
@[simp] theorem presentFirst_requests (r : List Byte) (s : State) :
    (presentFirst r s).requests = r :: s.requests := rfl
@[simp] theorem presentFirst_response (r : List Byte) (s : State) :
    (presentFirst r s).response = s.response := rfl

/-! ## reArm -/

@[simp] theorem reArm_gcrData (s : State) : (reArm s).gcrData = s.gcrData := rfl
@[simp] theorem reArm_speedZone (s : State) : (reArm s).speedZone = s.speedZone := rfl
@[simp] theorem reArm_trackSize (s : State) : (reArm s).trackSize = s.trackSize := rfl
@[simp] theorem reArm_dirty (s : State) : (reArm s).dirty = s.dirty := rfl
@[simp] theorem reArm_currentHalfTrack (s : State) :
    (reArm s).currentHalfTrack = s.currentHalfTrack := rfl
@[simp] theorem reArm_headOffset (s : State) : (reArm s).headOffset = s.headOffset := rfl
@[simp] theorem reArm_currentTrackSize (s : State) :
    (reArm s).currentTrackSize = s.currentTrackSize := rfl
@[simp] theorem reArm_bitsMoved (s : State) : (reArm s).bitsMoved = s.bitsMoved := rfl
@[simp] theorem reArm_accum (s : State) : (reArm s).accum = s.accum := rfl
@[simp] theorem reArm_readWriteMode (s : State) : (reArm s).readWriteMode = s.readWriteMode := rfl
@[simp] theorem reArm_finishByte (s : State) : (reArm s).finishByte = s.finishByte := rfl
@[simp] theorem reArm_lastMode (s : State) : (reArm s).lastMode = s.lastMode := rfl
@[simp] theorem reArm_rotationLastClk (s : State) :
    (reArm s).rotationLastClk = s.rotationLastClk := rfl
@[simp] theorem reArm_gcrRead (s : State) : (reArm s).gcrRead = s.gcrRead := rfl
@[simp] theorem reArm_writeValue (s : State) : (reArm s).writeValue = s.writeValue := rfl
@[simp] theorem reArm_byteReady (s : State) :
    (reArm s).byteReady = (s.byteReady || armsByteReady s) := rfl
@[simp] theorem reArm_motorOn (s : State) : (reArm s).motorOn = s.motorOn := rfl
@[simp] theorem reArm_byteReadyEnable (s : State) :
    (reArm s).byteReadyEnable = s.byteReadyEnable := rfl
@[simp] theorem reArm_zone (s : State) : (reArm s).zone = s.zone := rfl
@[simp] theorem reArm_attachClk (s : State) : (reArm s).attachClk = s.attachClk := rfl
@[simp] theorem reArm_attachValid (s : State) : (reArm s).attachValid = s.attachValid := rfl
@[simp] theorem reArm_detachClk (s : State) : (reArm s).detachClk = s.detachClk := rfl
@[simp] theorem reArm_detachValid (s : State) : (reArm s).detachValid = s.detachValid := rfl
@[simp] theorem reArm_requests (s : State) : (reArm s).requests = s.requests := rfl
@[simp] theorem reArm_response (s : State) : (reArm s).response = s.response := rfl

/-! ## integrateInto -/

@[simp] theorem integrateInto_gcrData (d : Nat) (s : State) :
    (integrateInto d s).gcrData = s.gcrData := rfl
@[simp] theorem integrateInto_speedZone (d : Nat) (s : State) :
    (integrateInto d s).speedZone = s.speedZone := rfl
@[simp] theorem integrateInto_trackSize (d : Nat) (s : State) :
    (integrateInto d s).trackSize = s.trackSize := rfl
@[simp] theorem integrateInto_dirty (d : Nat) (s : State) :
    (integrateInto d s).dirty = s.dirty := rfl
@[simp] theorem integrateInto_currentHalfTrack (d : Nat) (s : State) :
    (integrateInto d s).currentHalfTrack = s.currentHalfTrack := rfl
@[simp] theorem integrateInto_headOffset (d : Nat) (s : State) :
    (integrateInto d s).headOffset = s.headOffset := rfl
@[simp] theorem integrateInto_currentTrackSize (d : Nat) (s : State) :
    (integrateInto d s).currentTrackSize = s.currentTrackSize := rfl
@[simp] theorem integrateInto_bitsMoved (d : Nat) (s : State) :
    (integrateInto d s).bitsMoved = s.bitsMoved + (integrate s.zone d s.accum).1 := rfl
@[simp] theorem integrateInto_accum (d : Nat) (s : State) :
    (integrateInto d s).accum = (integrate s.zone d s.accum).2 := rfl
@[simp] theorem integrateInto_readWriteMode (d : Nat) (s : State) :
    (integrateInto d s).readWriteMode = s.readWriteMode := rfl
@[simp] theorem integrateInto_finishByte (d : Nat) (s : State) :
    (integrateInto d s).finishByte = s.finishByte := rfl
@[simp] theorem integrateInto_lastMode (d : Nat) (s : State) :
    (integrateInto d s).lastMode = s.lastMode := rfl
@[simp] theorem integrateInto_rotationLastClk (d : Nat) (s : State) :
    (integrateInto d s).rotationLastClk = s.rotationLastClk := rfl
@[simp] theorem integrateInto_gcrRead (d : Nat) (s : State) :
    (integrateInto d s).gcrRead = s.gcrRead := rfl
@[simp] theorem integrateInto_writeValue (d : Nat) (s : State) :
    (integrateInto d s).writeValue = s.writeValue := rfl
@[simp] theorem integrateInto_byteReady (d : Nat) (s : State) :
    (integrateInto d s).byteReady = s.byteReady := rfl
@[simp] theorem integrateInto_motorOn (d : Nat) (s : State) :
    (integrateInto d s).motorOn = s.motorOn := rfl
@[simp] theorem integrateInto_byteReadyEnable (d : Nat) (s : State) :
    (integrateInto d s).byteReadyEnable = s.byteReadyEnable := rfl
@[simp] theorem integrateInto_zone (d : Nat) (s : State) : (integrateInto d s).zone = s.zone := rfl
@[simp] theorem integrateInto_attachClk (d : Nat) (s : State) :
    (integrateInto d s).attachClk = s.attachClk := rfl
@[simp] theorem integrateInto_attachValid (d : Nat) (s : State) :
    (integrateInto d s).attachValid = s.attachValid := rfl
@[simp] theorem integrateInto_detachClk (d : Nat) (s : State) :
    (integrateInto d s).detachClk = s.detachClk := rfl
@[simp] theorem integrateInto_detachValid (d : Nat) (s : State) :
    (integrateInto d s).detachValid = s.detachValid := rfl
@[simp] theorem integrateInto_requests (d : Nat) (s : State) :
    (integrateInto d s).requests = s.requests := rfl
@[simp] theorem integrateInto_response (d : Nat) (s : State) :
    (integrateInto d s).response = s.response := rfl

/-! ## loadTrack -/

@[simp] theorem loadTrack_gcrData (t size : Nat) (data zones : List Byte) (s : State) :
    (loadTrack t size data zones s).gcrData = memLoadSlot s.gcrData (slotBase t) (data.take size) := rfl
@[simp] theorem loadTrack_speedZone (t size : Nat) (data zones : List Byte) (s : State) :
    (loadTrack t size data zones s).speedZone = memLoadSlot s.speedZone (slotBase t) (zones.take size) := rfl
@[simp] theorem loadTrack_trackSize (t size : Nat) (data zones : List Byte) (s : State) :
    (loadTrack t size data zones s).trackSize = s.trackSize.setIfInBounds (t - 1) size := rfl
@[simp] theorem loadTrack_dirty (t size : Nat) (data zones : List Byte) (s : State) :
    (loadTrack t size data zones s).dirty = s.dirty := rfl
@[simp] theorem loadTrack_currentHalfTrack (t size : Nat) (data zones : List Byte) (s : State) :
    (loadTrack t size data zones s).currentHalfTrack = s.currentHalfTrack := rfl
@[simp] theorem loadTrack_headOffset (t size : Nat) (data zones : List Byte) (s : State) :
    (loadTrack t size data zones s).headOffset = s.headOffset := rfl
@[simp] theorem loadTrack_currentTrackSize (t size : Nat) (data zones : List Byte) (s : State) :
    (loadTrack t size data zones s).currentTrackSize = s.currentTrackSize := rfl
@[simp] theorem loadTrack_bitsMoved (t size : Nat) (data zones : List Byte) (s : State) :
    (loadTrack t size data zones s).bitsMoved = s.bitsMoved := rfl
@[simp] theorem loadTrack_accum (t size : Nat) (data zones : List Byte) (s : State) :
    (loadTrack t size data zones s).accum = s.accum := rfl
@[simp] theorem loadTrack_readWriteMode (t size : Nat) (data zones : List Byte) (s : State) :
    (loadTrack t size data zones s).readWriteMode = s.readWriteMode := rfl
@[simp] theorem loadTrack_finishByte (t size : Nat) (data zones : List Byte) (s : State) :
    (loadTrack t size data zones s).finishByte = s.finishByte := rfl
@[simp] theorem loadTrack_lastMode (t size : Nat) (data zones : List Byte) (s : State) :
    (loadTrack t size data zones s).lastMode = s.lastMode := rfl
@[simp] theorem loadTrack_rotationLastClk (t size : Nat) (data zones : List Byte) (s : State) :
    (loadTrack t size data zones s).rotationLastClk = s.rotationLastClk := rfl
@[simp] theorem loadTrack_gcrRead (t size : Nat) (data zones : List Byte) (s : State) :
    (loadTrack t size data zones s).gcrRead = s.gcrRead := rfl
@[simp] theorem loadTrack_writeValue (t size : Nat) (data zones : List Byte) (s : State) :
    (loadTrack t size data zones s).writeValue = s.writeValue := rfl
@[simp] theorem loadTrack_byteReady (t size : Nat) (data zones : List Byte) (s : State) :
    (loadTrack t size data zones s).byteReady = s.byteReady := rfl
@[simp] theorem loadTrack_motorOn (t size : Nat) (data zones : List Byte) (s : State) :
    (loadTrack t size data zones s).motorOn = s.motorOn := rfl
@[simp] theorem loadTrack_byteReadyEnable (t size : Nat) (data zones : List Byte) (s : State) :
    (loadTrack t size data zones s).byteReadyEnable = s.byteReadyEnable := rfl
@[simp] theorem loadTrack_zone (t size : Nat) (data zones : List Byte) (s : State) :
    (loadTrack t size data zones s).zone = s.zone := rfl
@[simp] theorem loadTrack_attachClk (t size : Nat) (data zones : List Byte) (s : State) :
    (loadTrack t size data zones s).attachClk = s.attachClk := rfl
@[simp] theorem loadTrack_attachValid (t size : Nat) (data zones : List Byte) (s : State) :
    (loadTrack t size data zones s).attachValid = s.attachValid := rfl
@[simp] theorem loadTrack_detachClk (t size : Nat) (data zones : List Byte) (s : State) :
    (loadTrack t size data zones s).detachClk = s.detachClk := rfl
@[simp] theorem loadTrack_detachValid (t size : Nat) (data zones : List Byte) (s : State) :
    (loadTrack t size data zones s).detachValid = s.detachValid := rfl
@[simp] theorem loadTrack_requests (t size : Nat) (data zones : List Byte) (s : State) :
    (loadTrack t size data zones s).requests = s.requests := rfl
@[simp] theorem loadTrack_response (t size : Nat) (data zones : List Byte) (s : State) :
    (loadTrack t size data zones s).response = s.response := rfl

/-! ## lowerClocks -/

@[simp] theorem lowerClocks_gcrData (clk : Clk) (s : State) :
    (lowerClocks clk s).gcrData = s.gcrData := rfl
@[simp] theorem lowerClocks_speedZone (clk : Clk) (s : State) :
    (lowerClocks clk s).speedZone = s.speedZone := rfl
@[simp] theorem lowerClocks_trackSize (clk : Clk) (s : State) :
    (lowerClocks clk s).trackSize = s.trackSize := rfl
@[simp] theorem lowerClocks_dirty (clk : Clk) (s : State) :
    (lowerClocks clk s).dirty = s.dirty := rfl
@[simp] theorem lowerClocks_currentHalfTrack (clk : Clk) (s : State) :
    (lowerClocks clk s).currentHalfTrack = s.currentHalfTrack := rfl
@[simp] theorem lowerClocks_headOffset (clk : Clk) (s : State) :
    (lowerClocks clk s).headOffset = s.headOffset := rfl
@[simp] theorem lowerClocks_currentTrackSize (clk : Clk) (s : State) :
    (lowerClocks clk s).currentTrackSize = s.currentTrackSize := rfl
@[simp] theorem lowerClocks_bitsMoved (clk : Clk) (s : State) :
    (lowerClocks clk s).bitsMoved = s.bitsMoved := rfl
@[simp] theorem lowerClocks_accum (clk : Clk) (s : State) :
    (lowerClocks clk s).accum = s.accum := rfl
@[simp] theorem lowerClocks_readWriteMode (clk : Clk) (s : State) :
    (lowerClocks clk s).readWriteMode = s.readWriteMode := rfl
@[simp] theorem lowerClocks_finishByte (clk : Clk) (s : State) :
    (lowerClocks clk s).finishByte = s.finishByte := rfl
@[simp] theorem lowerClocks_lastMode (clk : Clk) (s : State) :
    (lowerClocks clk s).lastMode = s.lastMode := rfl
@[simp] theorem lowerClocks_rotationLastClk (clk : Clk) (s : State) :
    (lowerClocks clk s).rotationLastClk = lowerClk clk := rfl
@[simp] theorem lowerClocks_gcrRead (clk : Clk) (s : State) :
    (lowerClocks clk s).gcrRead = s.gcrRead := rfl
@[simp] theorem lowerClocks_writeValue (clk : Clk) (s : State) :
    (lowerClocks clk s).writeValue = s.writeValue := rfl
@[simp] theorem lowerClocks_byteReady (clk : Clk) (s : State) :
    (lowerClocks clk s).byteReady = s.byteReady := rfl
@[simp] theorem lowerClocks_motorOn (clk : Clk) (s : State) :
    (lowerClocks clk s).motorOn = s.motorOn := rfl
@[simp] theorem lowerClocks_byteReadyEnable (clk : Clk) (s : State) :
    (lowerClocks clk s).byteReadyEnable = s.byteReadyEnable := rfl
@[simp] theorem lowerClocks_zone (clk : Clk) (s : State) : (lowerClocks clk s).zone = s.zone := rfl
@[simp] theorem lowerClocks_attachClk (clk : Clk) (s : State) :
    (lowerClocks clk s).attachClk = if s.attachValid then lowerClk s.attachClk else s.attachClk := rfl
@[simp] theorem lowerClocks_attachValid (clk : Clk) (s : State) :
    (lowerClocks clk s).attachValid = s.attachValid := rfl
@[simp] theorem lowerClocks_detachClk (clk : Clk) (s : State) :
    (lowerClocks clk s).detachClk = if s.detachValid then lowerClk s.detachClk else s.detachClk := rfl
@[simp] theorem lowerClocks_detachValid (clk : Clk) (s : State) :
    (lowerClocks clk s).detachValid = s.detachValid := rfl
@[simp] theorem lowerClocks_requests (clk : Clk) (s : State) :
    (lowerClocks clk s).requests = s.requests := rfl
@[simp] theorem lowerClocks_response (clk : Clk) (s : State) :
    (lowerClocks clk s).response = s.response := rfl

/-! ## commit_read -/

@[simp] theorem commit_read_gcrData (s : State) : (commit .read s).gcrData = s.gcrData := rfl
@[simp] theorem commit_read_speedZone (s : State) : (commit .read s).speedZone = s.speedZone := rfl
@[simp] theorem commit_read_trackSize (s : State) : (commit .read s).trackSize = s.trackSize := rfl
@[simp] theorem commit_read_dirty (s : State) : (commit .read s).dirty = s.dirty := rfl
@[simp] theorem commit_read_currentHalfTrack (s : State) :
    (commit .read s).currentHalfTrack = s.currentHalfTrack := rfl
@[simp] theorem commit_read_headOffset (s : State) :
    (commit .read s).headOffset = nextOff s s.headOffset := rfl
@[simp] theorem commit_read_currentTrackSize (s : State) :
    (commit .read s).currentTrackSize = s.currentTrackSize := rfl
@[simp] theorem commit_read_bitsMoved (s : State) :
    (commit .read s).bitsMoved = s.bitsMoved - 8 := rfl
@[simp] theorem commit_read_accum (s : State) : (commit .read s).accum = s.accum := rfl
@[simp] theorem commit_read_readWriteMode (s : State) :
    (commit .read s).readWriteMode = s.readWriteMode := rfl
@[simp] theorem commit_read_finishByte (s : State) :
    (commit .read s).finishByte = s.finishByte := rfl
@[simp] theorem commit_read_lastMode (s : State) : (commit .read s).lastMode = s.lastMode := rfl
@[simp] theorem commit_read_rotationLastClk (s : State) :
    (commit .read s).rotationLastClk = s.rotationLastClk := rfl
@[simp] theorem commit_read_gcrRead (s : State) :
    (commit .read s).gcrRead = trkRead s (nextOff s s.headOffset) := rfl
@[simp] theorem commit_read_writeValue (s : State) :
    (commit .read s).writeValue = s.writeValue := rfl
@[simp] theorem commit_read_byteReady (s : State) : (commit .read s).byteReady = s.byteReady := rfl
@[simp] theorem commit_read_motorOn (s : State) : (commit .read s).motorOn = s.motorOn := rfl
@[simp] theorem commit_read_byteReadyEnable (s : State) :
    (commit .read s).byteReadyEnable = s.byteReadyEnable := rfl
@[simp] theorem commit_read_zone (s : State) : (commit .read s).zone = s.zone := rfl
@[simp] theorem commit_read_attachClk (s : State) : (commit .read s).attachClk = s.attachClk := rfl
@[simp] theorem commit_read_attachValid (s : State) :
    (commit .read s).attachValid = s.attachValid := rfl
@[simp] theorem commit_read_detachClk (s : State) : (commit .read s).detachClk = s.detachClk := rfl
@[simp] theorem commit_read_detachValid (s : State) :
    (commit .read s).detachValid = s.detachValid := rfl
@[simp] theorem commit_read_requests (s : State) : (commit .read s).requests = s.requests := rfl
@[simp] theorem commit_read_response (s : State) : (commit .read s).response = s.response := rfl

/-! ## commit_write -/

@[simp] theorem commit_write_gcrData (s : State) :
    (commit .write s).gcrData = (trkWrite s.headOffset s.writeValue s).gcrData := rfl
@[simp] theorem commit_write_speedZone (s : State) :
    (commit .write s).speedZone = s.speedZone := rfl
@[simp] theorem commit_write_trackSize (s : State) :
    (commit .write s).trackSize = s.trackSize := rfl
@[simp] theorem commit_write_dirty (s : State) : (commit .write s).dirty = true := rfl
@[simp] theorem commit_write_currentHalfTrack (s : State) :
    (commit .write s).currentHalfTrack = s.currentHalfTrack := rfl
@[simp] theorem commit_write_headOffset (s : State) :
    (commit .write s).headOffset = nextOff s s.headOffset := rfl
@[simp] theorem commit_write_currentTrackSize (s : State) :
    (commit .write s).currentTrackSize = s.currentTrackSize := rfl
@[simp] theorem commit_write_bitsMoved (s : State) :
    (commit .write s).bitsMoved = s.bitsMoved - 8 := rfl
@[simp] theorem commit_write_accum (s : State) : (commit .write s).accum = s.accum := rfl
@[simp] theorem commit_write_readWriteMode (s : State) :
    (commit .write s).readWriteMode = s.readWriteMode := rfl
@[simp] theorem commit_write_finishByte (s : State) :
    (commit .write s).finishByte = s.finishByte := rfl
@[simp] theorem commit_write_lastMode (s : State) : (commit .write s).lastMode = s.lastMode := rfl
@[simp] theorem commit_write_rotationLastClk (s : State) :
    (commit .write s).rotationLastClk = s.rotationLastClk := rfl
@[simp] theorem commit_write_gcrRead (s : State) : (commit .write s).gcrRead = s.gcrRead := rfl
@[simp] theorem commit_write_writeValue (s : State) :
    (commit .write s).writeValue = s.writeValue := rfl
@[simp] theorem commit_write_byteReady (s : State) :
    (commit .write s).byteReady = s.byteReady := rfl
@[simp] theorem commit_write_motorOn (s : State) : (commit .write s).motorOn = s.motorOn := rfl
@[simp] theorem commit_write_byteReadyEnable (s : State) :
    (commit .write s).byteReadyEnable = s.byteReadyEnable := rfl
@[simp] theorem commit_write_zone (s : State) : (commit .write s).zone = s.zone := rfl
@[simp] theorem commit_write_attachClk (s : State) :
    (commit .write s).attachClk = s.attachClk := rfl
@[simp] theorem commit_write_attachValid (s : State) :
    (commit .write s).attachValid = s.attachValid := rfl
@[simp] theorem commit_write_detachClk (s : State) :
    (commit .write s).detachClk = s.detachClk := rfl
@[simp] theorem commit_write_detachValid (s : State) :
    (commit .write s).detachValid = s.detachValid := rfl
@[simp] theorem commit_write_requests (s : State) : (commit .write s).requests = s.requests := rfl
@[simp] theorem commit_write_response (s : State) : (commit .write s).response = s.response := rfl

end Sys2Proof.Machine
end

