-- ==== Sys2Proof/Laws/Memory.lean ====
section
/-! SUPPORT. The laws of a byte space: a read after a write, every other index left alone, and the
canonical form kept by every operation that makes a byte space. -/

namespace Sys2Proof.Machine

open Sys2Proof

theorem memRead_cons (c : Host.Cell) (m : Memory) (x : Nat) :
    memRead (c :: m) x = if x = c.1 then c.2 else memRead m x := rfl

/-- An index no cell lists reads as the unlisted byte. -/
theorem memRead_unlisted {m : Memory} {x : Nat} (h : ∀ c ∈ m, c.1 ≠ x) :
    memRead m x = unlistedByte := by
  induction m with
  | nil => rfl
  | cons c m ih =>
    rw [memRead_cons, if_neg (fun e => h c (by simp) e.symm)]
    exact ih fun d hd => h d (by simp [hd])

/-- A read looks in the first list that lists the index. -/
theorem memRead_append_right {m m' : Memory} {x : Nat} (h : ∀ c ∈ m, c.1 ≠ x) :
    memRead (m ++ m') x = memRead m' x := by
  induction m with
  | nil => rfl
  | cons c m ih =>
    rw [List.cons_append, memRead_cons, if_neg (fun e => h c (by simp) e.symm)]
    exact ih fun d hd => h d (by simp [hd])

theorem memRead_append_left {m m' : Memory} {x : Nat} (h : ∀ c ∈ m', c.1 ≠ x) :
    memRead (m ++ m') x = memRead m x := by
  induction m with
  | nil => exact memRead_unlisted h
  | cons c m ih => rw [List.cons_append, memRead_cons, memRead_cons, ih]

/-- Cells filtered by their index: a read where the filter holds sees all of them. -/
theorem memRead_filter {m : Memory} {p : Nat → Bool} {x : Nat} (hx : p x = true) :
    memRead (m.filter (fun c => p c.1)) x = memRead m x := by
  induction m with
  | nil => rfl
  | cons c m ih =>
    by_cases hc : p c.1 = true
    · rw [List.filter_cons_of_pos (by simpa using hc), memRead_cons, memRead_cons, ih]
    · rw [List.filter_cons_of_neg (by simpa using hc), memRead_cons, ih,
        if_neg (fun e : x = c.1 => hc (e ▸ hx))]

theorem mem_memCons {c : Host.Cell} {a : Nat} {v : Byte} {m : Memory} (h : c ∈ memCons a v m) :
    c = (a, v) ∨ c ∈ m := by
  unfold memCons at h
  split at h
  · exact .inr h
  · simpa using h

theorem memRead_memCons_ne {a x : Nat} {v : Byte} {m : Memory} (h : x ≠ a) :
    memRead (memCons a v m) x = memRead m x := by
  unfold memCons
  split
  · rfl
  · rw [memRead_cons, if_neg h]

theorem memRead_memCons_self {a : Nat} {v : Byte} {m : Memory} (h : ∀ c ∈ m, c.1 ≠ a) :
    memRead (memCons a v m) a = v := by
  unfold memCons
  split
  · next hv => rw [memRead_unlisted h, hv]
  · rw [memRead_cons, if_pos rfl]

/-! ## The canonical form -/

@[simp] theorem wf_nil : Memory.wf [] = true := rfl

theorem wf_cons {c : Host.Cell} {m : Memory} :
    Memory.wf (c :: m) = true ↔
      c.2 ≠ unlistedByte ∧ (∀ d ∈ m, c.1 < d.1) ∧ Memory.wf m = true := by
  simp [Memory.wf]

theorem wf_memCons {a : Nat} {v : Byte} {m : Memory} (hm : Memory.wf m = true)
    (h : ∀ c ∈ m, a < c.1) : Memory.wf (memCons a v m) = true := by
  unfold memCons
  split
  · exact hm
  · next hv => exact wf_cons.mpr ⟨hv, h, hm⟩

/-! ## One byte written -/

theorem mem_memWrite {c : Host.Cell} {m : Memory} {a : Nat} {v : Byte} (h : c ∈ memWrite m a v) :
    c = (a, v) ∨ c ∈ m := by
  induction m with
  | nil => exact mem_memCons h
  | cons d m ih =>
    unfold memWrite at h
    split at h
    · exact mem_memCons h
    · split at h
      · exact (mem_memCons h).imp id (List.mem_cons_of_mem d)
      · rcases List.mem_cons.mp h with h | h
        · exact .inr (by simp [h])
        · exact (ih h).imp id (List.mem_cons_of_mem d)

/-- A write leaves every other index alone, whatever the list. -/
theorem memRead_memWrite_ne {m : Memory} {a x : Nat} {v : Byte} (h : x ≠ a) :
    memRead (memWrite m a v) x = memRead m x := by
  induction m with
  | nil => exact memRead_memCons_ne h
  | cons c m ih =>
    unfold memWrite
    split
    · exact memRead_memCons_ne h
    · split
      · next e => rw [memRead_memCons_ne h, memRead_cons, if_neg (e ▸ h)]
      · rw [memRead_cons, memRead_cons, ih]

/-- A read after a write to the same index gives the value written. -/
theorem memRead_memWrite_self {m : Memory} {a : Nat} {v : Byte} (hm : Memory.wf m = true) :
    memRead (memWrite m a v) a = v := by
  induction m with
  | nil => exact memRead_memCons_self (by simp)
  | cons c m ih =>
    obtain ⟨_, hlt, hm'⟩ := wf_cons.mp hm
    unfold memWrite
    split
    · next h =>
      refine memRead_memCons_self fun d hd => ?_
      rcases List.mem_cons.mp hd with rfl | hd
      · omega
      · have := hlt d hd; omega
    · split
      · next e =>
        refine memRead_memCons_self fun d hd => ?_
        have := hlt d hd; omega
      · next e => rw [memRead_cons, if_neg e, ih hm']

theorem memRead_memWrite {m : Memory} {a x : Nat} {v : Byte} (hm : Memory.wf m = true) :
    memRead (memWrite m a v) x = if x = a then v else memRead m x := by
  split
  · next h => rw [h, memRead_memWrite_self hm]
  · next h => exact memRead_memWrite_ne h

theorem wf_memWrite {m : Memory} {a : Nat} {v : Byte} (hm : Memory.wf m = true) :
    Memory.wf (memWrite m a v) = true := by
  induction m with
  | nil => exact wf_memCons rfl (by simp)
  | cons c m ih =>
    obtain ⟨hne, hlt, hm'⟩ := wf_cons.mp hm
    unfold memWrite
    split
    · next h =>
      refine wf_memCons hm fun d hd => ?_
      rcases List.mem_cons.mp hd with rfl | hd
      · exact h
      · have := hlt d hd; omega
    · split
      · next e => exact wf_memCons hm' fun d hd => e ▸ hlt d hd
      · next h e =>
        refine wf_cons.mpr ⟨hne, fun d hd => ?_, ih hm'⟩
        rcases mem_memWrite hd with rfl | hd
        · show c.1 < a; omega
        · exact hlt d hd

/-! ## A slot loaded -/

theorem mem_memCells {bs : List Byte} {a : Nat} {c : Host.Cell} (h : c ∈ memCells a bs) :
    a ≤ c.1 ∧ c.1 < a + bs.length ∧ c.2 ∈ bs := by
  induction bs generalizing a with
  | nil => simp [memCells] at h
  | cons b bs ih =>
    rcases mem_memCons h with rfl | h
    · simp
    · obtain ⟨h1, h2, h3⟩ := ih h
      refine ⟨by omega, by simp only [List.length_cons]; omega, by simp [h3]⟩

theorem wf_memCells (bs : List Byte) (a : Nat) : Memory.wf (memCells a bs) = true := by
  induction bs generalizing a with
  | nil => rfl
  | cons b bs ih =>
    exact wf_memCons (ih (a + 1)) fun c hc => by have := (mem_memCells hc).1; omega

theorem memRead_memCells (bs : List Byte) (a i : Nat) :
    memRead (memCells a bs) (a + i) = bs.getD i 0 := by
  induction bs generalizing a i with
  | nil => rfl
  | cons b bs ih =>
    cases i with
    | zero =>
      exact memRead_memCons_self fun c hc => by have := (mem_memCells hc).1; omega
    | succ i =>
      rw [memCells, memRead_memCons_ne (by omega), show a + (i + 1) = a + 1 + i by omega, ih]
      rfl

theorem wf_filter {m : Memory} (p : Host.Cell → Bool) (hm : Memory.wf m = true) :
    Memory.wf (m.filter p) = true := by
  induction m with
  | nil => rfl
  | cons c m ih =>
    obtain ⟨hne, hlt, hm'⟩ := wf_cons.mp hm
    by_cases hc : p c = true
    · rw [List.filter_cons_of_pos hc]
      exact wf_cons.mpr ⟨hne, fun d hd => hlt d (List.mem_filter.mp hd).1, ih hm'⟩
    · rw [List.filter_cons_of_neg hc]
      exact ih hm'

theorem wf_append {m m' : Memory} (hm : Memory.wf m = true) (hm' : Memory.wf m' = true)
    (h : ∀ c ∈ m, ∀ d ∈ m', c.1 < d.1) : Memory.wf (m ++ m') = true := by
  induction m with
  | nil => exact hm'
  | cons c m ih =>
    obtain ⟨hne, hlt, hm1⟩ := wf_cons.mp hm
    refine wf_cons.mpr ⟨hne, fun d hd => ?_, ih hm1 fun x hx => h x (by simp [hx])⟩
    rcases List.mem_append.mp hd with hd | hd
    · exact hlt d hd
    · exact h c (by simp) d hd

/-- A loaded slot keeps the canonical form. -/
theorem wf_memLoadSlot {m : Memory} {b : Nat} {bs : List Byte} (hm : Memory.wf m = true)
    (hb : bs.length ≤ maxBytesPerTrack) : Memory.wf (memLoadSlot m b bs) = true := by
  refine wf_append (wf_filter _ hm) (wf_append (wf_memCells bs b) (wf_filter _ hm) ?_) ?_
  · intro c hc d hd
    have h1 := mem_memCells hc
    have h2 := of_decide_eq_true (List.mem_filter.mp hd).2
    omega
  · intro c hc d hd
    have h1 := of_decide_eq_true (List.mem_filter.mp hc).2
    rcases List.mem_append.mp hd with hd | hd
    · have := mem_memCells hd; omega
    · have := of_decide_eq_true (List.mem_filter.mp hd).2; omega

/-- A cell of a loaded slot is one of the old cells or one of the bytes laid down in the slot. -/
theorem mem_memLoadSlot {m : Memory} {b : Nat} {bs : List Byte} {c : Host.Cell}
    (h : c ∈ memLoadSlot m b bs) : c ∈ m ∨ (b ≤ c.1 ∧ c.1 < b + bs.length ∧ c.2 ∈ bs) := by
  rcases List.mem_append.mp h with h | h
  · exact .inl ((List.mem_filter.mp h).1)
  · rcases List.mem_append.mp h with h | h
    · exact .inr (mem_memCells h)
    · exact .inl ((List.mem_filter.mp h).1)

/-- Inside the slot: the bytes laid down, and 0x00 beyond them. -/
theorem memRead_memLoadSlot_in {m : Memory} {b i : Nat} {bs : List Byte}
    (hi : i < maxBytesPerTrack) : memRead (memLoadSlot m b bs) (b + i) = bs.getD i 0 := by
  unfold memLoadSlot
  rw [memRead_append_right, memRead_append_left, memRead_memCells]
  · intro c hc
    have := of_decide_eq_true (List.mem_filter.mp hc).2
    omega
  · intro c hc
    have := of_decide_eq_true (List.mem_filter.mp hc).2
    omega

/-- Outside the slot: as before. -/
theorem memRead_memLoadSlot_out {m : Memory} {b x : Nat} {bs : List Byte}
    (hb : bs.length ≤ maxBytesPerTrack) (hx : x < b ∨ b + maxBytesPerTrack ≤ x) :
    memRead (memLoadSlot m b bs) x = memRead m x := by
  unfold memLoadSlot
  rcases hx with hx | hx
  · rw [memRead_append_left, memRead_filter (p := fun n => decide (n < b)) (by simpa using hx)]
    intro c hc
    rcases List.mem_append.mp hc with hc | hc
    · have := mem_memCells hc; omega
    · have := of_decide_eq_true (List.mem_filter.mp hc).2; omega
  · rw [memRead_append_right, memRead_append_right,
      memRead_filter (p := fun n => decide (b + maxBytesPerTrack ≤ n)) (by simpa using hx)]
    · intro c hc
      have := mem_memCells hc; omega
    · intro c hc
      have := of_decide_eq_true (List.mem_filter.mp hc).2; omega

/-- The bytes `memReadN` returns, one by one. -/
theorem memReadN_getD {m : Memory} {a k i : Nat} (hi : i < k) :
    (memReadN m a k).getD i 0 = memRead m (a + i) := by
  simp [memReadN, List.getD, hi]

@[simp] theorem memReadN_length (m : Memory) (a k : Nat) : (memReadN m a k).length = k := by
  simp [memReadN]

end Sys2Proof.Machine
end

