-- ==== Sys2Proof/Laws/Track.lean ====
section
/-! SUPPORT. The laws of the current track window: reads and writes modulo the cached size, offset
stepping, the clamp of a head movement. -/

namespace Sys2Proof.Machine

open Sys2Proof

/-! ## Offsets -/

theorem nextOff_of_pos {s : State} (h : 0 < s.currentTrackSize) (o : Nat) :
    nextOff s o = (o + 1) % s.currentTrackSize := if_neg (by omega)

theorem nextOff_of_empty {s : State} (h : s.currentTrackSize = 0) (o : Nat) : nextOff s o = 0 :=
  if_pos h

theorem prevOff_of_pos {s : State} (h : 0 < s.currentTrackSize) (o : Nat) :
    prevOff s o = (o + s.currentTrackSize - 1) % s.currentTrackSize := if_neg (by omega)

theorem prevOff_of_empty {s : State} (h : s.currentTrackSize = 0) (o : Nat) : prevOff s o = 0 :=
  if_pos h

theorem nextOff_lt {s : State} (h : 0 < s.currentTrackSize) (o : Nat) :
    nextOff s o < s.currentTrackSize := by
  rw [nextOff_of_pos h]; exact Nat.mod_lt _ h

/-- Stepping depends on the cached size only. -/
theorem nextOff_congr {s t : State} (h : t.currentTrackSize = s.currentTrackSize) (o : Nat) :
    nextOff t o = nextOff s o := by simp only [nextOff, h]

/-! ## Reads -/

theorem trkRead_of_empty {s : State} (h : s.currentTrackSize = 0) (o : Nat) :
    trkRead s o = syncByte := if_pos h

theorem trkRead_of_pos {s : State} (h : 0 < s.currentTrackSize) (o : Nat) :
    trkRead s o = memRead s.gcrData (curBase s + o % s.currentTrackSize) := if_neg (by omega)

/-- A read depends on the offset modulo the cached size only. -/
@[simp] theorem trkRead_mod (s : State) (o : Nat) :
    trkRead s (o % s.currentTrackSize) = trkRead s o := by
  simp only [trkRead, Nat.mod_mod]

theorem trkRead_congr_mod {s : State} {o o' : Nat}
    (h : o % s.currentTrackSize = o' % s.currentTrackSize) : trkRead s o = trkRead s o' := by
  rw [← trkRead_mod s o, ← trkRead_mod s o', h]

@[simp] theorem trkRead_add_size (s : State) (o : Nat) :
    trkRead s (o + s.currentTrackSize) = trkRead s o :=
  trkRead_congr_mod (Nat.add_mod_right ..)

theorem trkRead_nextOff (s : State) (o : Nat) : trkRead s (nextOff s o) = trkRead s (o + 1) := by
  rcases Nat.eq_zero_or_pos s.currentTrackSize with h | h
  · rw [trkRead_of_empty h, trkRead_of_empty h]
  · rw [nextOff_of_pos h, trkRead_mod]

/-- A read sees the byte space, the cached size and the current track, nothing else. -/
theorem trkRead_congr {s t : State} (hg : t.gcrData = s.gcrData)
    (hz : t.currentTrackSize = s.currentTrackSize)
    (hh : t.currentHalfTrack = s.currentHalfTrack) (o : Nat) : trkRead t o = trkRead s o := by
  simp only [trkRead, curBase, curTrack, hg, hz, hh]

theorem curBase_congr {s t : State} (hh : t.currentHalfTrack = s.currentHalfTrack) :
    curBase t = curBase s := by simp only [curBase, curTrack, hh]

@[simp] theorem trkRead_respond (r : Result) (s : State) (o : Nat) :
    trkRead (respond r s) o = trkRead s o := rfl

@[simp] theorem trkRead_refuse (why : RefuseReason) (s : State) (o : Nat) :
    trkRead (refuse why s) o = trkRead s o := rfl

@[simp] theorem curBase_respond (r : Result) (s : State) : curBase (respond r s) = curBase s := rfl

@[simp] theorem trkReadN_length (s : State) (o k : Nat) : (trkReadN s o k).length = k := by
  simp [trkReadN]

theorem trkReadN_getD (s : State) {o k i : Nat} (hi : i < k) :
    (trkReadN s o k).getD i 0 = trkRead s (o + i) := by
  simp [trkReadN, List.getD, hi]

/-- Bytes that lie on the track from an offset on are what a sequence read there returns. -/
theorem trkReadN_of_holdsAt {s : State} {o : Nat} {bs : List Byte} (h : holdsAt s o bs) :
    trkReadN s o bs.length = bs := by
  apply List.ext_getElem (by simp)
  intro i h1 h2
  have := h i h2
  simp [trkReadN, this, List.getD, h2]

/-- Part of what lies on the track. -/
theorem holdsAt_drop {s : State} {o k : Nat} {bs : List Byte} (h : holdsAt s o bs) :
    holdsAt s (o + k) (bs.drop k) := by
  intro i hi
  rw [List.length_drop] at hi
  have := h (k + i) (by omega)
  rw [Nat.add_assoc, this]
  simp [List.getD, List.getElem?_drop]

theorem holdsAt_take {s : State} {o k : Nat} {bs : List Byte} (h : holdsAt s o bs) :
    holdsAt s o (bs.take k) := by
  intro i hi
  have hlen : i < bs.length := by
    rw [List.length_take] at hi; omega
  rw [h i hlen]
  rw [List.length_take] at hi
  simp [List.getD, show i < k by omega]

theorem holdsAt_append {s : State} {o : Nat} {as bs : List Byte} (h : holdsAt s o (as ++ bs)) :
    holdsAt s o as ∧ holdsAt s (o + as.length) bs := by
  constructor
  · simpa using holdsAt_take (k := as.length) h
  · simpa using holdsAt_drop (k := as.length) h

/-! ## One byte written -/

/-- All that `TrkWrite` changes. -/
theorem trkWrite_eq (o : Nat) (v : Byte) (s : State) :
    trkWrite o v s = { s with gcrData := (trkWrite o v s).gcrData, dirty := true } := rfl

theorem memRead_trkWrite_ne {s : State} {o a : Nat} {v : Byte}
    (h : s.currentTrackSize = 0 ∨ a ≠ curBase s + o % s.currentTrackSize) :
    memRead (trkWrite o v s).gcrData a = memRead s.gcrData a := by
  unfold trkWrite
  dsimp only
  split
  · rfl
  · next hz => exact memRead_memWrite_ne (h.resolve_left hz)

theorem memRead_trkWrite_self {s : State} {o : Nat} {v : Byte}
    (hw : Memory.wf s.gcrData = true) (hz : 0 < s.currentTrackSize) :
    memRead (trkWrite o v s).gcrData (curBase s + o % s.currentTrackSize) = v := by
  unfold trkWrite
  dsimp only
  rw [if_neg (by omega), memRead_memWrite_self hw]

theorem wf_trkWrite {s : State} {o : Nat} {v : Byte} (hw : Memory.wf s.gcrData = true) :
    Memory.wf (trkWrite o v s).gcrData = true := by
  unfold trkWrite
  dsimp only
  split
  · exact hw
  · exact wf_memWrite hw

/-- A cell after a byte is written is an old one or the written one. -/
theorem mem_trkWrite {s : State} {o : Nat} {v : Byte} {c : Host.Cell}
    (h : c ∈ (trkWrite o v s).gcrData) :
    c ∈ s.gcrData ∨
      0 < s.currentTrackSize ∧ c = (curBase s + o % s.currentTrackSize, v) := by
  unfold trkWrite at h
  dsimp only at h
  split at h
  · exact .inl h
  · next hz => exact (mem_memWrite h).symm.imp id fun e => ⟨by omega, e⟩

/-! ## The head -/

theorem clampHalfTrack_eq (n : Int) : (clampHalfTrack n : Int) = max 2 (min 84 n) := by
  unfold clampHalfTrack
  split
  · omega
  · split <;> omega

theorem clampHalfTrack_range (n : Int) : 2 ≤ clampHalfTrack n ∧ clampHalfTrack n ≤ 84 := by
  have := clampHalfTrack_eq n
  omega

/-- The base of the current track lies 7928 below a legal slot's end. -/
theorem curBase_le {s : State} (h : s.headInRange) :
    curBase s + maxBytesPerTrack ≤ reachableBytes := by
  have h2 := h.2
  simp only [curBase, curTrack, slotBase, maxBytesPerTrack, reachableBytes, maxTracks,
    maxHalfTracks] at *
  omega

end Sys2Proof.Machine
end

