-- ==== Sys2Proof/Laws/Codec.lean ====
section
/-! SUPPORT. The laws of the codec: the code table there and back, the bits of a group, the lengths of
blocks and sectors. -/

namespace Sys2Proof.Machine

open Sys2Proof

/-! ## The code table -/

@[simp] theorem gcrDec_gcrEnc (n : Nibble) : gcrDec (gcrEnc n) = n := by
  have h : ∀ n : Nibble, gcrDecTable.getD (gcrEnc n).toNat none = some n := by decide
  simp only [gcrDec, h]

/-- A code that decodes to a nibble whatever `INV_NIB` is, is that nibble's code. -/
theorem gcrEnc_of_table {c : Code} {n : Nibble} (h : gcrDecTable.getD c.toNat none = some n) :
    gcrEnc n = c := by
  revert c n; decide

/-! ## A group -/

/-- The five bytes of an encoded group, end to end, are its eight codes, end to end. -/
@[simp] theorem groupBits_enc4 (r : RawGroup) : groupBits (enc4 r) = groupCodes r := by
  apply BitVec.eq_of_getLsbD_eq
  intro i hi
  simp only [groupBits, enc4, BitVec.getLsbD_append, BitVec.getLsbD_extractLsb']
  split_ifs <;> rw [decide_eq_true (by omega), Bool.true_and] <;> congr 1 <;> omega

/-- A group is what its bits say. -/
theorem groupBits_injective {g g' : GcrGroup} (h : groupBits g = groupBits g') : g = g' := by
  have key : ∀ g : GcrGroup, g =
      ⟨(groupBits g).extractLsb' 32 8, (groupBits g).extractLsb' 24 8,
        (groupBits g).extractLsb' 16 8, (groupBits g).extractLsb' 8 8,
        (groupBits g).extractLsb' 0 8⟩ := by
    intro g
    rcases g with ⟨g0, g1, g2, g3, g4⟩
    simp only [groupBits, GcrGroup.mk.injEq]
    refine ⟨?_, ?_, ?_, ?_, ?_⟩ <;> (apply BitVec.eq_of_getLsbD_eq; intro i hi) <;>
      simp only [BitVec.getLsbD_append, BitVec.getLsbD_extractLsb', hi, decide_true,
        Bool.true_and] <;>
      split_ifs <;> first | omega | (congr 1; omega)
  rw [key g, key g', h]

/-! ## Sequences of groups -/

theorem gcrBytes_length (g : GcrGroup) : (gcrBytes g).length = 5 := rfl

theorem rawBytes_length (r : RawGroup) : (rawBytes r).length = 4 := rfl

theorem encBytes_length (raw : List Byte) : (encBytes raw).length = raw.length / 4 * 5 := by
  fun_induction encBytes raw with
  | case1 a b c d rest ih =>
    rw [List.length_append, gcrBytes_length, ih]
    simp only [List.length_cons]
    omega
  | case2 raw h =>
    have : raw.length < 4 := by
      rcases raw with _ | ⟨a, _ | ⟨b, _ | ⟨c, _ | ⟨d, r⟩⟩⟩⟩ <;> simp at h ⊢
      exact absurd rfl (h _ _ _ _ _ rfl rfl rfl rfl)
    simp only [List.length_nil]
    omega

theorem decBytes_length (gcr : List Byte) : (decBytes gcr).length = gcr.length / 5 * 4 := by
  fun_induction decBytes gcr with
  | case1 a b c d e rest ih =>
    rw [List.length_append, rawBytes_length, ih]
    simp only [List.length_cons]
    omega
  | case2 gcr h =>
    have : gcr.length < 5 := by
      rcases gcr with _ | ⟨a, _ | ⟨b, _ | ⟨c, _ | ⟨d, _ | ⟨e, r⟩⟩⟩⟩⟩ <;> simp at h ⊢
      exact absurd rfl (h _ _ _ _ _ _ rfl rfl rfl rfl rfl)
    simp only [List.length_nil]
    omega

/-- The first group encoded on its own. -/
theorem encBytes_group (r : RawGroup) (rest : List Byte) :
    encBytes (rawBytes r ++ rest) = gcrBytes (enc4 r) ++ encBytes rest := rfl

/-- The first group decoded on its own. -/
theorem decBytes_group (g : GcrGroup) (rest : List Byte) :
    decBytes (gcrBytes g ++ rest) = rawBytes (dec5 g) ++ decBytes rest := rfl

/-- Group `k` of an encoded sequence is the encoding of its four bytes. -/
theorem encBytes_drop_take {raw : List Byte} {k : Nat} (h : 4 * k + 4 ≤ raw.length) :
    ((encBytes raw).drop (5 * k)).take 5 = gcrBytes (enc4
      ⟨raw.getD (4 * k) 0, raw.getD (4 * k + 1) 0, raw.getD (4 * k + 2) 0,
        raw.getD (4 * k + 3) 0⟩) := by
  induction k generalizing raw with
  | zero =>
    rcases raw with _ | ⟨a, _ | ⟨b, _ | ⟨c, _ | ⟨d, r⟩⟩⟩⟩ <;> simp_all [encBytes, gcrBytes]
  | succ k ih =>
    obtain ⟨a, b, c, d, r, rfl⟩ : ∃ a b c d r, raw = a :: b :: c :: d :: r := by
      rcases raw with _ | ⟨a, _ | ⟨b, _ | ⟨c, _ | ⟨d, r⟩⟩⟩⟩ <;> simp at h ⊢
    rw [show 4 * (k + 1) + 1 = 4 * k + 1 + 4 by omega, show 4 * (k + 1) + 2 = 4 * k + 2 + 4 by omega,
      show 4 * (k + 1) + 3 = 4 * k + 3 + 4 by omega, show 4 * (k + 1) = 4 * k + 4 by omega]
    exact ih (raw := r) (by simp only [List.length_cons] at h; omega)

/-- Group `k` of a decoded sequence is the decoding of its five bytes. -/
theorem decBytes_drop_take {gcr : List Byte} {k : Nat} (h : 5 * k + 5 ≤ gcr.length) :
    ((decBytes gcr).drop (4 * k)).take 4 = rawBytes (dec5
      ⟨gcr.getD (5 * k) 0, gcr.getD (5 * k + 1) 0, gcr.getD (5 * k + 2) 0,
        gcr.getD (5 * k + 3) 0, gcr.getD (5 * k + 4) 0⟩) := by
  induction k generalizing gcr with
  | zero =>
    rcases gcr with _ | ⟨a, _ | ⟨b, _ | ⟨c, _ | ⟨d, _ | ⟨e, r⟩⟩⟩⟩⟩ <;>
      simp_all [decBytes, rawBytes]
  | succ k ih =>
    obtain ⟨a, b, c, d, e, r, rfl⟩ : ∃ a b c d e r, gcr = a :: b :: c :: d :: e :: r := by
      rcases gcr with _ | ⟨a, _ | ⟨b, _ | ⟨c, _ | ⟨d, _ | ⟨e, r⟩⟩⟩⟩⟩ <;> simp at h ⊢
    rw [show 5 * (k + 1) + 1 = 5 * k + 1 + 5 by omega, show 5 * (k + 1) + 2 = 5 * k + 2 + 5 by omega,
      show 5 * (k + 1) + 3 = 5 * k + 3 + 5 by omega, show 5 * (k + 1) + 4 = 5 * k + 4 + 5 by omega,
      show 5 * (k + 1) = 5 * k + 5 by omega]
    exact ih (gcr := r) (by simp only [List.length_cons] at h; omega)

/-! ## Blocks and sectors -/

theorem hdrRaw_length (track sector id1 id2 : Byte) :
    (hdrRaw track sector id1 id2).length = 8 := rfl

theorem dataRaw_length {payload : List Byte} (h : payload.length = payloadLen) :
    (dataRaw payload).length = rawBlockLen := by
  simp [dataRaw, h, payloadLen, rawBlockLen]

theorem encBytes_dataRaw_length {payload : List Byte} (h : payload.length = payloadLen) :
    (encBytes (dataRaw payload)).length = gcrBlockLen := by
  rw [encBytes_length, dataRaw_length h]; rfl

theorem sectorImage_length {payload : List Byte} (track sector id1 id2 : Byte)
    (h : payload.length = payloadLen) :
    (sectorImage track sector id1 id2 payload).length = sectorGcrLen := by
  simp only [sectorImage, List.length_append, List.length_replicate, encBytes_dataRaw_length h]
  rw [encBytes_length, hdrRaw_length]
  rfl

end Sys2Proof.Machine
end

