-- ==== Sys2Proof/Laws/Decode.lean ====
section
/-! SUPPORT. The laws of the request encoding: little-endian operands there and back, and what each
format accepts. -/

namespace Sys2Proof

/-! ## Operands -/

@[simp] theorem le16_byte16 (x : U16) : le16 (byte16 x 0) (byte16 x 1) = x := by
  apply BitVec.eq_of_getLsbD_eq
  intro i hi
  simp only [le16, byte16, BitVec.getLsbD_append, BitVec.getLsbD_extractLsb']
  split
  · simp [show i < 8 by omega]
  · simp [show i - 8 < 8 by omega, show 8 + (i - 8) = i by omega]

@[simp] theorem le32_byte32 (x : U32) :
    le32 (byte32 x 0) (byte32 x 1) (byte32 x 2) (byte32 x 3) = x := by
  apply BitVec.eq_of_getLsbD_eq
  intro i hi
  simp only [le32, byte32, BitVec.getLsbD_append, BitVec.getLsbD_extractLsb']
  by_cases h1 : i < 8
  · simp [h1]
  · by_cases h2 : i - 8 < 8
    · simp [h1, h2, show 8 + (i - 8) = i by omega]
    · by_cases h3 : i - 8 - 8 < 8
      · simp [h1, h2, h3, show 16 + (i - 8 - 8) = i by omega]
      · simp [h1, h2, h3, show i - 8 - 8 - 8 < 8 by omega,
          show 24 + (i - 8 - 8 - 8) = i by omega]

@[simp] theorem boolOfByte_byteOfBool (b : Bool) : boolOfByte (byteOfBool b) = b := by
  cases b <;> rfl

@[simp] theorem bytesOf16_length (x : U16) : (bytesOf16 x).length = 2 := rfl

@[simp] theorem bytesOf32_length (x : U32) : (bytesOf32 x).length = 4 := rfl

/-! ## Formats: exactly the arguments of the format's length are accepted -/

theorem formZ_ok {op : Byte} {i j : Instr} {args : List Byte} :
    formZ op i args = .ok j ↔ args = [] ∧ i = j := by
  rcases args with _ | ⟨b, r⟩ <;> simp [formZ]

theorem formB_ok {op : Byte} {k : Byte → Instr} {j : Instr} {args : List Byte} :
    formB op k args = .ok j ↔ ∃ b0, args = [b0] ∧ k b0 = j := by
  rcases args with _ | ⟨b, _ | ⟨c, r⟩⟩ <;> simp [formB]

theorem formBB_ok {op : Byte} {k : Byte → Byte → Instr} {j : Instr} {args : List Byte} :
    formBB op k args = .ok j ↔ ∃ b0 b1, args = [b0, b1] ∧ k b0 b1 = j := by
  constructor
  · intro h
    rcases args with _ | ⟨b0, _ | ⟨b1, _ | ⟨b2, r⟩⟩⟩ <;>
      first
      | exact ⟨b0, b1, rfl, Except.ok.inj h⟩
      | simp [formBB] at h
  · rintro ⟨b0, b1, rfl, rfl⟩; rfl

theorem form32_ok {op : Byte} {k : U32 → Instr} {j : Instr} {args : List Byte} :
    form32 op k args = .ok j ↔
      ∃ b0 b1 b2 b3, args = [b0, b1, b2, b3] ∧ k (le32 b0 b1 b2 b3) = j := by
  constructor
  · intro h
    rcases args with _ | ⟨b0, _ | ⟨b1, _ | ⟨b2, _ | ⟨b3, _ | ⟨b4, r⟩⟩⟩⟩⟩ <;>
      first
      | exact ⟨b0, b1, b2, b3, rfl, Except.ok.inj h⟩
      | simp [form32] at h
  · rintro ⟨b0, b1, b2, b3, rfl, rfl⟩; rfl

theorem form32B_ok {op : Byte} {k : U32 → Byte → Instr} {j : Instr} {args : List Byte} :
    form32B op k args = .ok j ↔
      ∃ b0 b1 b2 b3 v, args = [b0, b1, b2, b3, v] ∧ k (le32 b0 b1 b2 b3) v = j := by
  constructor
  · intro h
    rcases args with _ | ⟨b0, _ | ⟨b1, _ | ⟨b2, _ | ⟨b3, _ | ⟨b4, _ | ⟨b5, r⟩⟩⟩⟩⟩⟩ <;>
      first
      | exact ⟨b0, b1, b2, b3, b4, rfl, Except.ok.inj h⟩
      | simp [form32B] at h
  · rintro ⟨b0, b1, b2, b3, v, rfl, rfl⟩; rfl

theorem formG4_ok {op : Byte} {k : RawGroup → Instr} {j : Instr} {args : List Byte} :
    formG4 op k args = .ok j ↔ ∃ r : RawGroup, args = [r.r0, r.r1, r.r2, r.r3] ∧ k r = j := by
  constructor
  · intro h
    rcases args with _ | ⟨b0, _ | ⟨b1, _ | ⟨b2, _ | ⟨b3, _ | ⟨b4, r⟩⟩⟩⟩⟩ <;>
      first
      | exact ⟨⟨b0, b1, b2, b3⟩, rfl, Except.ok.inj h⟩
      | simp [formG4] at h
  · rintro ⟨r, rfl, rfl⟩; rfl

theorem formG5_ok {op : Byte} {k : GcrGroup → Instr} {j : Instr} {args : List Byte} :
    formG5 op k args = .ok j ↔
      ∃ g : GcrGroup, args = [g.g0, g.g1, g.g2, g.g3, g.g4] ∧ k g = j := by
  constructor
  · intro h
    rcases args with _ | ⟨b0, _ | ⟨b1, _ | ⟨b2, _ | ⟨b3, _ | ⟨b4, _ | ⟨b5, r⟩⟩⟩⟩⟩⟩ <;>
      first
      | exact ⟨⟨b0, b1, b2, b3, b4⟩, rfl, Except.ok.inj h⟩
      | simp [formG5] at h
  · rintro ⟨r, rfl, rfl⟩; rfl

theorem formES_ok {op : Byte} {k : Byte → Byte → Byte → Byte → List Byte → Instr} {j : Instr}
    {args : List Byte} :
    formES op k args = .ok j ↔ ∃ b0 b1 b2 b3 payload,
      args = b0 :: b1 :: b2 :: b3 :: payload ∧ payload.length = payloadLen ∧
        k b0 b1 b2 b3 payload = j := by
  constructor
  · intro h
    rcases args with _ | ⟨b0, _ | ⟨b1, _ | ⟨b2, _ | ⟨b3, r⟩⟩⟩⟩
    iterate 4 simp [formES] at h
    unfold formES at h
    dsimp only at h
    split at h
    · exact ⟨b0, b1, b2, b3, r, rfl, by assumption, Except.ok.inj h⟩
    · cases h
  · rintro ⟨b0, b1, b2, b3, payload, rfl, h, rfl⟩; exact if_pos h

theorem formLT_ok {op : Byte} {k : Byte → U16 → List Byte → List Byte → Instr} {j : Instr}
    {args : List Byte} :
    formLT op k args = .ok j ↔ ∃ b0 s0 s1 rest,
      args = b0 :: s0 :: s1 :: rest ∧ rest.length = 2 * (le16 s0 s1).toNat ∧
        k b0 (le16 s0 s1) (rest.take (le16 s0 s1).toNat) (rest.drop (le16 s0 s1).toNat) = j := by
  constructor
  · intro h
    rcases args with _ | ⟨b0, _ | ⟨b1, _ | ⟨b2, r⟩⟩⟩
    iterate 3 simp [formLT] at h
    unfold formLT at h
    dsimp only at h
    split at h
    · exact ⟨b0, b1, b2, r, rfl, by assumption, Except.ok.inj h⟩
    · cases h
  · rintro ⟨b0, s0, s1, rest, rfl, h, rfl⟩; exact if_pos h

/-! ## Formats: a request is accepted or of the wrong length, by its length alone -/

theorem formZ_accepts {op : Byte} {k : Instr} {args : List Byte} :
    ((∃ j, formZ op k args = .ok j) ↔ args.length = 0) ∧
      ((∃ j, formZ op k args = .ok j) ∨ formZ op k args = .error (.wrongLength op)) := by
  rcases args with _ | ⟨b0, r⟩ <;>
    simp [formZ]

theorem formB_accepts {op : Byte} {k : Byte → Instr} {args : List Byte} :
    ((∃ j, formB op k args = .ok j) ↔ args.length = 1) ∧
      ((∃ j, formB op k args = .ok j) ∨ formB op k args = .error (.wrongLength op)) := by
  rcases args with _ | ⟨b0, _ | ⟨b1, r⟩⟩ <;>
    simp [formB]

theorem formBB_accepts {op : Byte} {k : Byte → Byte → Instr} {args : List Byte} :
    ((∃ j, formBB op k args = .ok j) ↔ args.length = 2) ∧
      ((∃ j, formBB op k args = .ok j) ∨ formBB op k args = .error (.wrongLength op)) := by
  rcases args with _ | ⟨b0, _ | ⟨b1, _ | ⟨b2, r⟩⟩⟩ <;>
    simp [formBB]

theorem form32_accepts {op : Byte} {k : U32 → Instr} {args : List Byte} :
    ((∃ j, form32 op k args = .ok j) ↔ args.length = 4) ∧
      ((∃ j, form32 op k args = .ok j) ∨ form32 op k args = .error (.wrongLength op)) := by
  rcases args with _ | ⟨b0, _ | ⟨b1, _ | ⟨b2, _ | ⟨b3, _ | ⟨b4, r⟩⟩⟩⟩⟩ <;>
    simp [form32]

theorem form32B_accepts {op : Byte} {k : U32 → Byte → Instr} {args : List Byte} :
    ((∃ j, form32B op k args = .ok j) ↔ args.length = 5) ∧
      ((∃ j, form32B op k args = .ok j) ∨ form32B op k args = .error (.wrongLength op)) := by
  rcases args with _ | ⟨b0, _ | ⟨b1, _ | ⟨b2, _ | ⟨b3, _ | ⟨b4, _ | ⟨b5, r⟩⟩⟩⟩⟩⟩ <;>
    simp [form32B]

theorem formG4_accepts {op : Byte} {k : RawGroup → Instr} {args : List Byte} :
    ((∃ j, formG4 op k args = .ok j) ↔ args.length = 4) ∧
      ((∃ j, formG4 op k args = .ok j) ∨ formG4 op k args = .error (.wrongLength op)) := by
  rcases args with _ | ⟨b0, _ | ⟨b1, _ | ⟨b2, _ | ⟨b3, _ | ⟨b4, r⟩⟩⟩⟩⟩ <;>
    simp [formG4]

theorem formG5_accepts {op : Byte} {k : GcrGroup → Instr} {args : List Byte} :
    ((∃ j, formG5 op k args = .ok j) ↔ args.length = 5) ∧
      ((∃ j, formG5 op k args = .ok j) ∨ formG5 op k args = .error (.wrongLength op)) := by
  rcases args with _ | ⟨b0, _ | ⟨b1, _ | ⟨b2, _ | ⟨b3, _ | ⟨b4, _ | ⟨b5, r⟩⟩⟩⟩⟩⟩ <;>
    simp [formG5]

theorem formES_accepts {op : Byte} {k : Byte → Byte → Byte → Byte → List Byte → Instr}
    {args : List Byte} :
    ((∃ j, formES op k args = .ok j) ↔ args.length = 260) ∧
      ((∃ j, formES op k args = .ok j) ∨ formES op k args = .error (.wrongLength op)) := by
  rcases args with _ | ⟨b0, _ | ⟨b1, _ | ⟨b2, _ | ⟨b3, r⟩⟩⟩⟩ <;> simp [formES, payloadLen]
  split <;> simp_all

theorem formLT_accepts {op : Byte} {k : Byte → U16 → List Byte → List Byte → Instr}
    {args : List Byte} :
    ((∃ j, formLT op k args = .ok j) ↔
        args.length = 3 + 2 * (le16 (args.getD 1 0) (args.getD 2 0)).toNat) ∧
      ((∃ j, formLT op k args = .ok j) ∨ formLT op k args = .error (.wrongLength op)) := by
  rcases args with _ | ⟨b0, _ | ⟨b1, _ | ⟨b2, r⟩⟩⟩ <;> simp [formLT]
  · omega
  · omega
  · omega
  · split
    · simp; omega
    · simp; omega

end Sys2Proof
end

