-- ==== Sys2Proof/Laws/Engine.lean ====
section
/-! SUPPORT. The laws of the Rotation Engine: what an integration leaves pending, what a run of
commits does in either mode, and everything an advance can change. -/

namespace Sys2Proof.Machine

open Sys2Proof

/-! ## Integration -/

theorem accumMax_pos : 0 < accumMax := by decide

/-- One table application loses and invents nothing: bits and fraction before, and the entry's, are
the bits and the fraction after. -/
theorem applyEntry_conserves (z : BitVec 2) (j : Nat) (r : Nat × Nat) :
    (applyEntry z j r).1 * accumMax + (applyEntry z j r).2 =
      r.1 * accumMax + r.2 + (tBits z j * accumMax + tFrac z j) := by
  simp only [applyEntry, accumMax]
  omega

theorem applyEntry_accum_lt (z : BitVec 2) (j : Nat) (r : Nat × Nat) :
    (applyEntry z j r).2 < accumMax := Nat.mod_lt _ accumMax_pos

theorem integrateLoop_zero (z : BitVec 2) (fuel : Nat) (r : Nat × Nat) :
    integrateLoop z fuel 0 r = r := by
  cases fuel <;> rfl

theorem integrateLoop_succ (z : BitVec 2) (fuel : Nat) {d : Nat} (r : Nat × Nat) (h : 0 < d) :
    integrateLoop z (fuel + 1) d r =
      integrateLoop z fuel (d - chunk d) (applyEntry z (chunk d) r) :=
  if_neg (by omega)

theorem integrateLoop_accum_lt (z : BitVec 2) (fuel d : Nat) {r : Nat × Nat}
    (h : r.2 < accumMax) : (integrateLoop z fuel d r).2 < accumMax := by
  induction fuel generalizing d r with
  | zero => exact h
  | succ fuel ih =>
    unfold integrateLoop
    split
    · exact h
    · exact ih _ (applyEntry_accum_lt ..)

theorem integrate_accum_lt (z : BitVec 2) (delta : Nat) {accum : Nat} (h : accum < accumMax) :
    (integrate z delta accum).2 < accumMax := integrateLoop_accum_lt _ _ _ h

@[simp] theorem integrate_zero (z : BitVec 2) (accum : Nat) : integrate z 0 accum = (0, accum) :=
  integrateLoop_zero ..

/-! ## One commit -/

/-- The frame of a commit: what it can change, whatever the mode. -/
theorem commit_eq (m : Mode) (s : State) :
    commit m s = { s with
      gcrData := (commit m s).gcrData
      dirty := (commit m s).dirty
      headOffset := nextOff s s.headOffset
      gcrRead := (commit m s).gcrRead
      bitsMoved := s.bitsMoved - 8 } := by
  cases m <;> rfl

theorem commit_bitsMoved (m : Mode) (s : State) : (commit m s).bitsMoved = s.bitsMoved - 8 := by
  cases m <;> rfl

theorem commit_headOffset (m : Mode) (s : State) :
    (commit m s).headOffset = nextOff s s.headOffset := by
  cases m <;> rfl

theorem commit_dirty (m : Mode) (s : State) :
    (commit m s).dirty = (s.dirty || decide (m = .write)) := by
  cases m <;> simp [commit, trkWrite]

theorem commit_gcrData (m : Mode) (s : State) :
    (commit m s).gcrData =
      match m with
      | .read => s.gcrData
      | .write => (trkWrite s.headOffset s.writeValue s).gcrData := by
  cases m <;> rfl

/-! ## What everything in the engine leaves alone -/

/-- `t` differs from `s` at most in the fields the Rotation Engine writes (42_rotation_engine R161,
R164 to R166). -/
def EngineFrame (s t : State) : Prop :=
  t = { s with
    gcrData := t.gcrData
    dirty := t.dirty
    headOffset := t.headOffset
    bitsMoved := t.bitsMoved
    accum := t.accum
    finishByte := t.finishByte
    lastMode := t.lastMode
    gcrRead := t.gcrRead
    byteReady := t.byteReady }

theorem EngineFrame.refl (s : State) : EngineFrame s s := rfl

theorem EngineFrame.trans {s t u : State} (h1 : EngineFrame s t) (h2 : EngineFrame t u) :
    EngineFrame s u := by
  unfold EngineFrame at *
  rw [h2, h1]

theorem engineFrame_commit (m : Mode) (s : State) : EngineFrame s (commit m s) := by
  cases m <;> rfl

theorem engineFrame_commitLoop (fuel : Nat) (s : State) : EngineFrame s (commitLoop fuel s) := by
  induction fuel generalizing s with
  | zero => exact .refl s
  | succ fuel ih =>
    unfold commitLoop
    split
    · exact (engineFrame_commit _ s).trans (ih _)
    · exact .refl s

theorem engineFrame_finishPending (s : State) : EngineFrame s (finishPending s) := by
  unfold finishPending
  split
  · exact (engineFrame_commit _ s).trans rfl
  · exact .refl s

theorem engineFrame_commitBytes (s : State) : EngineFrame s (commitBytes s) := by
  unfold commitBytes
  split
  · exact (engineFrame_finishPending s).trans ((engineFrame_commitLoop _ _).trans rfl)
  · exact .refl s

/-- All that `ADVANCE` can change. -/
theorem engineFrame_advanceCore (delta : Nat) (changed : Bool) (s : State) :
    EngineFrame s (advanceCore delta changed s) := by
  unfold advanceCore
  split
  · rfl
  · split
    · exact EngineFrame.trans (t := integrateInto delta s) rfl (engineFrame_commitBytes _)
    · exact .refl s

/-- The fields an engine frame keeps. -/
theorem EngineFrame.keeps {s t : State} (h : EngineFrame s t) :
    t.speedZone = s.speedZone ∧ t.trackSize = s.trackSize ∧
    t.currentHalfTrack = s.currentHalfTrack ∧ t.currentTrackSize = s.currentTrackSize ∧
    t.readWriteMode = s.readWriteMode ∧ t.rotationLastClk = s.rotationLastClk ∧
    t.writeValue = s.writeValue ∧ t.motorOn = s.motorOn ∧
    t.byteReadyEnable = s.byteReadyEnable ∧ t.zone = s.zone ∧ t.attachClk = s.attachClk ∧
    t.attachValid = s.attachValid ∧ t.detachClk = s.detachClk ∧ t.detachValid = s.detachValid ∧
    t.requests = s.requests ∧ t.response = s.response := by
  unfold EngineFrame at h
  rw [h]
  simp

@[simp] theorem advanceCore_speedZone (d : Nat) (c : Bool) (s : State) :
    (advanceCore d c s).speedZone = s.speedZone := (engineFrame_advanceCore d c s).keeps.1
@[simp] theorem advanceCore_trackSize (d : Nat) (c : Bool) (s : State) :
    (advanceCore d c s).trackSize = s.trackSize := (engineFrame_advanceCore d c s).keeps.2.1
@[simp] theorem advanceCore_currentHalfTrack (d : Nat) (c : Bool) (s : State) :
    (advanceCore d c s).currentHalfTrack = s.currentHalfTrack :=
  (engineFrame_advanceCore d c s).keeps.2.2.1
@[simp] theorem advanceCore_currentTrackSize (d : Nat) (c : Bool) (s : State) :
    (advanceCore d c s).currentTrackSize = s.currentTrackSize :=
  (engineFrame_advanceCore d c s).keeps.2.2.2.1
@[simp] theorem advanceCore_readWriteMode (d : Nat) (c : Bool) (s : State) :
    (advanceCore d c s).readWriteMode = s.readWriteMode :=
  (engineFrame_advanceCore d c s).keeps.2.2.2.2.1
@[simp] theorem advanceCore_rotationLastClk (d : Nat) (c : Bool) (s : State) :
    (advanceCore d c s).rotationLastClk = s.rotationLastClk :=
  (engineFrame_advanceCore d c s).keeps.2.2.2.2.2.1
@[simp] theorem advanceCore_writeValue (d : Nat) (c : Bool) (s : State) :
    (advanceCore d c s).writeValue = s.writeValue :=
  (engineFrame_advanceCore d c s).keeps.2.2.2.2.2.2.1
@[simp] theorem advanceCore_motorOn (d : Nat) (c : Bool) (s : State) :
    (advanceCore d c s).motorOn = s.motorOn :=
  (engineFrame_advanceCore d c s).keeps.2.2.2.2.2.2.2.1
@[simp] theorem advanceCore_byteReadyEnable (d : Nat) (c : Bool) (s : State) :
    (advanceCore d c s).byteReadyEnable = s.byteReadyEnable :=
  (engineFrame_advanceCore d c s).keeps.2.2.2.2.2.2.2.2.1
@[simp] theorem advanceCore_zone (d : Nat) (c : Bool) (s : State) :
    (advanceCore d c s).zone = s.zone :=
  (engineFrame_advanceCore d c s).keeps.2.2.2.2.2.2.2.2.2.1
@[simp] theorem advanceCore_attachClk (d : Nat) (c : Bool) (s : State) :
    (advanceCore d c s).attachClk = s.attachClk :=
  (engineFrame_advanceCore d c s).keeps.2.2.2.2.2.2.2.2.2.2.1
@[simp] theorem advanceCore_attachValid (d : Nat) (c : Bool) (s : State) :
    (advanceCore d c s).attachValid = s.attachValid :=
  (engineFrame_advanceCore d c s).keeps.2.2.2.2.2.2.2.2.2.2.2.1
@[simp] theorem advanceCore_detachClk (d : Nat) (c : Bool) (s : State) :
    (advanceCore d c s).detachClk = s.detachClk :=
  (engineFrame_advanceCore d c s).keeps.2.2.2.2.2.2.2.2.2.2.2.2.1
@[simp] theorem advanceCore_detachValid (d : Nat) (c : Bool) (s : State) :
    (advanceCore d c s).detachValid = s.detachValid :=
  (engineFrame_advanceCore d c s).keeps.2.2.2.2.2.2.2.2.2.2.2.2.2.1
@[simp] theorem advanceCore_requests (d : Nat) (c : Bool) (s : State) :
    (advanceCore d c s).requests = s.requests :=
  (engineFrame_advanceCore d c s).keeps.2.2.2.2.2.2.2.2.2.2.2.2.2.2.1
@[simp] theorem advanceCore_response (d : Nat) (c : Bool) (s : State) :
    (advanceCore d c s).response = s.response :=
  (engineFrame_advanceCore d c s).keeps.2.2.2.2.2.2.2.2.2.2.2.2.2.2.2

/-! ## A property every commit keeps is kept by an advance -/

/-- The induction over an advance, packaged once: a property that every commit keeps, and that the
other writes of the engine do not disturb, holds after an advance if it held before. -/
theorem advanceCore_induction {P : State → Prop} (hcommit : ∀ m s, P s → P (commit m s))
    (hflags : ∀ s finish last ready, P s →
      P { s with finishByte := finish, lastMode := last, byteReady := ready })
    (hbits : ∀ s bits acc, P s → P { s with bitsMoved := bits, accum := acc })
    (delta : Nat) (changed : Bool) {s : State} (hs : P s) :
    P (advanceCore delta changed s) := by
  have hloop : ∀ fuel s, P s → P (commitLoop fuel s) := by
    intro fuel
    induction fuel with
    | zero => exact fun s hs => hs
    | succ fuel ih =>
      intro s hs
      unfold commitLoop
      split
      · exact ih _ (hcommit _ _ hs)
      · exact hs
  have hfinish : ∀ s, P s → P (finishPending s) := by
    intro s hs
    unfold finishPending
    split
    · exact hflags _ false _ _ (hcommit _ _ hs)
    · exact hs
  have hbytes : ∀ s, P s → P (commitBytes s) := by
    intro s hs
    unfold commitBytes
    split
    · exact hflags _ _ _ _ (hloop _ _ (hfinish _ hs))
    · exact hs
  unfold advanceCore
  split
  · exact hflags s true s.lastMode s.byteReady hs
  · split
    · exact hbytes _ (hbits s _ _ hs)
    · exact hs

/-! ## Runs of commits -/

theorem commitLoop_of_lt {s : State} (fuel : Nat) (h : s.bitsMoved < 8) :
    commitLoop fuel s = s := by
  cases fuel
  · rfl
  · exact if_neg (by omega)

/-- A run of commits takes every whole byte when its fuel allows. -/
theorem commitLoop_bitsMoved {fuel : Nat} {s : State} (h : s.bitsMoved / 8 ≤ fuel) :
    (commitLoop fuel s).bitsMoved = s.bitsMoved % 8 := by
  induction fuel generalizing s with
  | zero => show s.bitsMoved = _; omega
  | succ fuel ih =>
    unfold commitLoop
    split
    · rw [ih (by rw [commit_bitsMoved]; omega), commit_bitsMoved]; omega
    · omega

theorem commitLoop_frame_mode (fuel : Nat) (s : State) :
    (commitLoop fuel s).readWriteMode = s.readWriteMode :=
  (engineFrame_commitLoop fuel s).keeps.2.2.2.2.1

theorem commitLoop_flags (fuel : Nat) (s : State) :
    (commitLoop fuel s).finishByte = s.finishByte ∧ (commitLoop fuel s).lastMode = s.lastMode ∧
      (commitLoop fuel s).accum = s.accum ∧ (commitLoop fuel s).byteReady = s.byteReady := by
  induction fuel generalizing s with
  | zero => exact ⟨rfl, rfl, rfl, rfl⟩
  | succ fuel ih =>
    unfold commitLoop
    split
    · rw [(ih _).1, (ih _).2.1, (ih _).2.2.1, (ih _).2.2.2]
      cases s.readWriteMode <;> exact ⟨rfl, rfl, rfl, rfl⟩
    · exact ⟨rfl, rfl, rfl, rfl⟩

/-- Where the head stands after `k` bytes. -/
def headAfter (s : State) (k : Nat) : Nat :=
  if k = 0 then s.headOffset
  else if s.currentTrackSize = 0 then 0
  else (s.headOffset + k) % s.currentTrackSize

theorem headAfter_succ (s : State) (k : Nat) (m : Mode) :
    headAfter (commit m s) k = headAfter s (k + 1) := by
  have hz : (commit m s).currentTrackSize = s.currentTrackSize := by cases m <;> rfl
  simp only [headAfter, commit_headOffset, hz, nextOff]
  split
  · next h => subst h; simp
  · split
    · simp
    · simp
      congr 1
      omega

/-- Counting bits moves no head. -/
@[simp] theorem headAfter_integrateInto (delta : Nat) (s : State) (k : Nat) :
    headAfter (integrateInto delta s) k = headAfter s k := rfl

theorem headAfter_pos (s : State) {k : Nat} (h : 0 < k) :
    headAfter s k = if s.currentTrackSize = 0 then 0 else (s.headOffset + k) % s.currentTrackSize :=
  if_neg (by omega)

/-- What lies under the head after `k` bytes. -/
theorem trkRead_headAfter (s : State) (k : Nat) :
    trkRead s (headAfter s k) = trkRead s (s.headOffset + k) := by
  unfold headAfter
  split
  · next h => rw [h, Nat.add_zero]
  · split
    · next hz => rw [trkRead_of_empty hz, trkRead_of_empty hz]
    · rw [trkRead_mod]

theorem commitLoop_headOffset {fuel : Nat} {s : State} (h : s.bitsMoved / 8 ≤ fuel) :
    (commitLoop fuel s).headOffset = headAfter s (s.bitsMoved / 8) := by
  induction fuel generalizing s with
  | zero =>
    have : s.bitsMoved / 8 = 0 := by omega
    simp [commitLoop, headAfter, this]
  | succ fuel ih =>
    unfold commitLoop
    split
    · next hb =>
      rw [ih (by rw [commit_bitsMoved]; omega), headAfter_succ, commit_bitsMoved]
      congr 1
      omega
    · have : s.bitsMoved / 8 = 0 := by omega
      simp [headAfter, this]

/-- In Read mode a run of commits changes neither the byte space nor `dirty`, and the latch holds the
byte at the head's last place. -/
theorem commitLoop_read {fuel : Nat} {s : State} (hm : s.readWriteMode = .read)
    (h : s.bitsMoved / 8 ≤ fuel) :
    (commitLoop fuel s).gcrData = s.gcrData ∧ (commitLoop fuel s).dirty = s.dirty ∧
      (commitLoop fuel s).gcrRead =
        if s.bitsMoved < 8 then s.gcrRead else trkRead s (s.headOffset + s.bitsMoved / 8) := by
  induction fuel generalizing s with
  | zero =>
    have : s.bitsMoved < 8 := by omega
    simp [commitLoop, this]
  | succ fuel ih =>
    unfold commitLoop
    split
    · next hb =>
      rw [if_neg (by omega : ¬ s.bitsMoved < 8), hm]
      obtain ⟨h1, h2, h3⟩ := ih (s := commit .read s) hm (by rw [commit_bitsMoved]; omega)
      refine ⟨h1.trans rfl, h2.trans rfl, h3.trans ?_⟩
      have hc := fun o => trkRead_congr (s := s) (t := commit .read s) rfl rfl rfl o
      rw [commit_bitsMoved, hc, commit_headOffset]
      split
      · show trkRead s (nextOff s s.headOffset) = _
        rw [trkRead_nextOff, show s.bitsMoved / 8 = 1 by omega]
      · rcases Nat.eq_zero_or_pos s.currentTrackSize with hz | hz
        · rw [trkRead_of_empty hz, trkRead_of_empty hz]
        · rw [nextOff_of_pos hz]
          refine trkRead_congr_mod ?_
          rw [Nat.mod_add_mod]
          congr 1
          omega
    · next hb => rw [if_pos (by omega : s.bitsMoved < 8)]; exact ⟨rfl, rfl, rfl⟩

/-- In Write mode a run of commits leaves the latch alone and sets `dirty` with its first byte. -/
theorem commitLoop_write {fuel : Nat} {s : State} (hm : s.readWriteMode = .write)
    (h : s.bitsMoved / 8 ≤ fuel) :
    (commitLoop fuel s).gcrRead = s.gcrRead ∧
      (commitLoop fuel s).dirty = (s.dirty || decide (8 ≤ s.bitsMoved)) := by
  induction fuel generalizing s with
  | zero =>
    have : ¬ 8 ≤ s.bitsMoved := by omega
    simp [commitLoop, this]
  | succ fuel ih =>
    unfold commitLoop
    split
    · next hb =>
      rw [hm]
      obtain ⟨h1, h2⟩ := ih (s := commit .write s) hm (by rw [commit_bitsMoved]; omega)
      refine ⟨h1.trans rfl, h2.trans ?_⟩
      rw [commit_dirty]
      simp [hb]
    · next hb => simp [hb]

/-- In Write mode a run of commits stores `write_value` at each place the head passes, and nowhere
else. -/
theorem commitLoop_write_mem {fuel : Nat} {s : State} (hm : s.readWriteMode = .write)
    (h : s.bitsMoved / 8 ≤ fuel) (hw : Memory.wf s.gcrData = true) :
    (0 < s.currentTrackSize → ∀ j < s.bitsMoved / 8,
      memRead (commitLoop fuel s).gcrData
        (curBase s + (s.headOffset + j) % s.currentTrackSize) = s.writeValue) ∧
    (∀ a, (s.currentTrackSize = 0 ∨
        ∀ j < s.bitsMoved / 8, a ≠ curBase s + (s.headOffset + j) % s.currentTrackSize) →
      memRead (commitLoop fuel s).gcrData a = memRead s.gcrData a) := by
  induction fuel generalizing s with
  | zero =>
    refine ⟨fun _ j hj => by omega, fun a _ => rfl⟩
  | succ fuel ih =>
    unfold commitLoop
    split
    · next hb =>
      rw [hm]
      have hd : (commit .write s).gcrData = (trkWrite s.headOffset s.writeValue s).gcrData := rfl
      obtain ⟨h1, h2⟩ := ih (s := commit .write s) hm (by rw [commit_bitsMoved]; omega)
        (by rw [hd]; exact wf_trkWrite hw)
      simp only [commit_bitsMoved, commit_headOffset,
        show (commit .write s).currentTrackSize = s.currentTrackSize from rfl,
        show curBase (commit .write s) = curBase s from rfl,
        show (commit .write s).writeValue = s.writeValue from rfl] at h1 h2
      rw [show (s.bitsMoved - 8) / 8 = s.bitsMoved / 8 - 1 by omega] at h1 h2
      have hstep : 0 < s.currentTrackSize → ∀ j,
          (nextOff s s.headOffset + j) % s.currentTrackSize =
            (s.headOffset + (j + 1)) % s.currentTrackSize := by
        intro hz j
        rw [nextOff_of_pos hz, Nat.mod_add_mod]
        congr 1
        omega
      constructor
      · intro hz j hj
        cases j with
        | zero =>
          by_cases hin : ∃ j' < s.bitsMoved / 8 - 1,
              (s.headOffset + (j' + 1)) % s.currentTrackSize =
                (s.headOffset + 0) % s.currentTrackSize
          · obtain ⟨j', hj', e⟩ := hin
            rw [← e, ← hstep hz]
            exact h1 hz j' hj'
          · rw [h2, hd]
            · exact memRead_trkWrite_self hw hz
            · refine .inr fun j' hj' e => hin ⟨j', hj', ?_⟩
              rw [← hstep hz]
              omega
        | succ j =>
          rw [← hstep hz]
          exact h1 hz j (by omega)
      · intro a ha
        rw [h2 a, hd, memRead_trkWrite_ne]
        · exact ha.imp id fun ha => by simpa using ha 0 (by omega)
        · rcases ha with ha | ha
          · exact .inl ha
          · rcases Nat.eq_zero_or_pos s.currentTrackSize with hz | hz
            · exact .inl hz
            · refine .inr fun j hj => ?_
              rw [hstep hz]
              exact ha (j + 1) (by omega)
    · next hb => exact ⟨fun _ j hj => by omega, fun a _ => rfl⟩

/-- A run of commits in Read mode, whole. -/
theorem commitLoop_read_eq {fuel : Nat} {s : State} (hm : s.readWriteMode = .read)
    (h : s.bitsMoved / 8 ≤ fuel) :
    commitLoop fuel s = { s with
      headOffset := headAfter s (s.bitsMoved / 8)
      gcrRead :=
        if s.bitsMoved < 8 then s.gcrRead else trkRead s (s.headOffset + s.bitsMoved / 8)
      bitsMoved := s.bitsMoved % 8 } := by
  have hk := (engineFrame_commitLoop fuel s).keeps
  have hf := commitLoop_flags fuel s
  have hr := commitLoop_read hm h
  ext1 <;> first | exact (congrArg _ hr.1) | simp only [hk, hf, hr, commitLoop_bitsMoved h,
    commitLoop_headOffset h]

/-- A run of commits in Write mode, whole but for the byte space (`commitLoop_write_mem`). -/
theorem commitLoop_write_eq {fuel : Nat} {s : State} (hm : s.readWriteMode = .write)
    (h : s.bitsMoved / 8 ≤ fuel) :
    commitLoop fuel s = { s with
      gcrData := (commitLoop fuel s).gcrData
      dirty := s.dirty || decide (8 ≤ s.bitsMoved)
      headOffset := headAfter s (s.bitsMoved / 8)
      bitsMoved := s.bitsMoved % 8 } := by
  have hk := (engineFrame_commitLoop fuel s).keeps
  have hf := commitLoop_flags fuel s
  have hw := commitLoop_write hm h
  ext1 <;> first | rfl | simp only [hk, hf, hw, commitLoop_bitsMoved h, commitLoop_headOffset h]

/-! ## An advance -/

theorem advanceCore_signal (delta : Nat) (s : State) :
    advanceCore delta true s = { s with finishByte := true } := rfl

theorem advanceCore_idle {delta : Nat} {s : State} (h : rotating s = false) :
    advanceCore delta false s = s := by
  simp [advanceCore, h]

/-- A running engine with less than a byte passed only counts. -/
theorem advanceCore_below {delta : Nat} {s : State} (h : rotating s = true)
    (hb : (integrateInto delta s).bitsMoved < 8) :
    advanceCore delta false s = integrateInto delta s := by
  simp only [advanceCore, h, commitBytes, if_neg (by omega : ¬ 8 ≤ (integrateInto delta s).bitsMoved),
    Bool.false_eq_true, if_false, if_true]

/-- A running engine with at least a byte passed: the pending byte, the rest, the re-arm. -/
theorem advanceCore_bytes {delta : Nat} {s : State} (h : rotating s = true)
    (hb : 8 ≤ (integrateInto delta s).bitsMoved) :
    advanceCore delta false s = reArm (commitLoop
      ((finishPending (integrateInto delta s)).bitsMoved / 8)
      (finishPending (integrateInto delta s))) := by
  simp only [advanceCore, h, commitBytes, if_pos hb, Bool.false_eq_true, if_false, if_true]

theorem finishPending_none {s : State} (h : s.finishByte = false) : finishPending s = s := by
  simp [finishPending, h]

theorem finishPending_some {s : State} (h : s.finishByte = true) :
    finishPending s =
      { commit s.lastMode s with finishByte := false, lastMode := s.readWriteMode } := by
  simp [finishPending, h]

/-- Clearing the flip flag does not disturb a commit. -/
theorem commit_clearFinish (m : Mode) (s : State) :
    commit m { s with finishByte := false } = { commit m s with finishByte := false } := by
  cases m <;> rfl

theorem commitLoop_clearFinish (fuel : Nat) (s : State) :
    commitLoop fuel { s with finishByte := false } =
      { commitLoop fuel s with finishByte := false } := by
  induction fuel generalizing s with
  | zero => rfl
  | succ fuel ih =>
    unfold commitLoop
    dsimp only
    split
    · rw [commit_clearFinish, ih]
    · rfl

/-- Where the byte under way began in the current mode, a pending flip only has its flag cleared: its
one commit is the first of the run (R165 (d)). -/
theorem finishPending_oneMode {s : State} (h : s.finishByte = false ∨ s.lastMode = s.readWriteMode)
    (hb : 8 ≤ s.bitsMoved) :
    commitLoop ((finishPending s).bitsMoved / 8) (finishPending s) =
      { commitLoop (s.bitsMoved / 8) s with finishByte := false } := by
  by_cases hf : s.finishByte = true
  · have hl : s.lastMode = s.readWriteMode := h.resolve_left (by simp [hf])
    have hp : finishPending s = { commit s.readWriteMode s with finishByte := false } := by
      rw [finishPending_some hf, ← hl]
      cases hm : s.lastMode <;> simp [commit, trkWrite, hm]
    have hn : s.bitsMoved / 8 = (finishPending s).bitsMoved / 8 + 1 := by
      rw [hp]
      show s.bitsMoved / 8 = (commit s.readWriteMode s).bitsMoved / 8 + 1
      rw [commit_bitsMoved]
      omega
    rw [hn, commitLoop.eq_def _ s]
    simp only [if_pos hb]
    rw [hp, commitLoop_clearFinish]
  · have hf' : s.finishByte = false := by simpa using hf
    rw [finishPending_none hf', ← commitLoop_clearFinish]
    congr 1
    rw [← hf']

/-- A running engine with at least a byte passed, every byte under the current mode: no flip is
pending, or the mode flipped twice within the byte. -/
theorem advanceCore_oneMode {delta : Nat} {s : State} (h : rotating s = true)
    (hb : 8 ≤ (integrateInto delta s).bitsMoved)
    (hm : s.finishByte = false ∨ s.lastMode = s.readWriteMode) :
    advanceCore delta false s = { reArm (commitLoop ((integrateInto delta s).bitsMoved / 8)
      (integrateInto delta s)) with finishByte := false } := by
  rw [advanceCore_bytes h hb, finishPending_oneMode (s := integrateInto delta s) hm hb]
  rfl

/-- Less than a byte is pending after an advance, unless the engine did not run. -/
theorem advanceCore_bitsMoved {delta : Nat} {s : State} (hr : rotating s = true) :
    (advanceCore delta false s).bitsMoved =
      (s.bitsMoved + (integrate s.zone delta s.accum).1) % 8 := by
  unfold advanceCore
  rw [if_neg Bool.false_ne_true, if_pos hr]
  unfold commitBytes
  split
  · next h =>
    rw [reArm_bitsMoved, commitLoop_bitsMoved (Nat.le_refl _)]
    unfold finishPending
    split
    · show (commit _ _).bitsMoved % 8 = _
      rw [commit_bitsMoved]
      simp only [integrateInto_bitsMoved] at *
      omega
    · simp
  · next h =>
    simp only [integrateInto_bitsMoved] at *
    omega

end Sys2Proof.Machine
end

