-- ==== Sys2Proof/Laws/Exec.lean ====
section
/-! SUPPORT. What each arm of `exec` is, as an equation, and the laws of the clocked prologue, so that
no proof about an operation unfolds the dispatcher or a meaning. -/

namespace Sys2Proof.Machine

open Sys2Proof

/-! ## The arms -/

theorem exec_gcrEnc4 (raw : RawGroup) (s : State) :
    exec (.gcrEnc4 raw) s = .next (
      respond (.bytes (gcrBytes (enc4 raw))) s) := rfl

theorem exec_gcrDec5 (gcr : GcrGroup) (s : State) :
    exec (.gcrDec5 gcr) s = .next (
      respond (.bytes (rawBytes (dec5 gcr))) s) := rfl

theorem exec_encodeSector (track sector id1 id2 : Byte) (payload : List Byte) (s : State) :
    exec (.encodeSector track sector id1 id2 payload) s = .next (
      respond (.bytes (sectorImage track sector id1 id2 payload)) s) := rfl

theorem exec_decodeSector (offset : U32) (s : State) :
    exec (.decodeSector offset) s = .next (
      respond (.bytes (decBytes (trkReadN s offset.toNat gcrBlockLen))) s) := rfl

theorem exec_setHalfTrack (n : U32) (s : State) :
    exec (.setHalfTrack n) s = .next (
      respond .noValue (positionHead (intOf32 n) s)) := rfl

theorem exec_readByteAt (offset : U32) (s : State) :
    exec (.readByteAt offset) s = .next (
      respond (.u8 (trkRead s offset.toNat)) s) := rfl

theorem exec_writeByteAt (offset : U32) (value : Byte) (s : State) :
    exec (.writeByteAt offset value) s = .next (
      respond .noValue (trkWrite offset.toNat value s)) := rfl

theorem exec_tsLoadTrack (t : Byte) (size : U16) (data zones : List Byte) (s : State) :
    exec (.tsLoadTrack t size data zones) s = .next (
      if isTrack t = false then refuse .badTrack s
      else if maxBytesPerTrack < size.toNat then refuse .badSize s
      else if someBadZone (zones.take size.toNat) then refuse .badZone s
      else respond .noValue (loadTrack t.toNat size.toNat data zones s)) := rfl

theorem exec_tsClear (s : State) :
    exec .tsClear s = .next (
      respond .noValue
      { s with gcrData := [], speedZone := [], trackSize := Vector.replicate 42 0, dirty := false }) := rfl

theorem exec_clearDirty (s : State) :
    exec .clearDirty s = .next (
      respond .noValue { s with dirty := false }) := rfl

theorem exec_getDirty (s : State) :
    exec .getDirty s = .next (
      respond (.bool s.dirty) s) := rfl

theorem exec_tsReadTrack (t : Byte) (s : State) :
    exec (.tsReadTrack t) s = .next (
      if isTrack t = false then refuse .badTrack s
      else respond (.track (trackSizeOf s t.toNat)
        (memReadN s.gcrData (slotBase t.toNat) maxBytesPerTrack)
        (memReadN s.speedZone (slotBase t.toNat) maxBytesPerTrack)) s) := rfl

theorem exec_advance (delta : U32) (changed : Bool) (s : State) :
    exec (.advance delta changed) s = .next (
      respond .noValue (advanceCore delta.toNat changed s)) := rfl

theorem exec_syncFound (clk : Clk) (s : State) :
    exec (.syncFound clk) s = .next (
      clocked clk (fun s1 => respond (.bool (syncNow s1)) s1) s) := rfl

theorem exec_clkRebase (clk : Clk) (s : State) :
    exec (.clkRebase clk) s = .next (
      if clk.toNat < rebaseAmount.toNat then refuse .rebaseTooEarly s
      else clocked clk (fun s1 => respond .noValue (lowerClocks clk s1)) s) := rfl

theorem exec_findSectorHeader (track sector : Byte) (s : State) :
    exec (.findSectorHeader track sector) s = .next (
      respond (.offset (findHeader s track sector)) s) := rfl

theorem exec_findSectorData (offset : U32) (s : State) :
    exec (.findSectorData offset) s = .next (
      respond (.offset (findData s offset.toNat)) s) := rfl

theorem exec_readDiskByte (clk : Clk) (s : State) :
    exec (.readDiskByte clk) s = .next (
      if inAttachWindow clk s then respond (.u8 0x00) s
      else clocked clk (fun s1 => respond (.u8 s1.gcrRead) s1) s) := rfl

theorem exec_writeGcr (clk : Clk) (value : Byte) (s : State) :
    exec (.writeGcr clk value) s = .next (
      clocked clk (fun s1 => respond .noValue { s1 with writeValue := value }) s) := rfl

theorem exec_byteReady (clk : Clk) (s : State) :
    exec (.byteReady clk) s = .next (
      clocked clk (fun s1 => respond (.bool (byteReadyLine s1)) s1) s) := rfl

theorem exec_setByteReady (flag : Bool) (s : State) :
    exec (.setByteReady flag) s = .next (
      respond .noValue { s with byteReady := flag }) := rfl

theorem exec_moveHead (step : U32) (s : State) :
    exec (.moveHead step) s = .next (
      respond .noValue (positionHead ((s.currentHalfTrack : Int) + intOf32 step) s)) := rfl

theorem exec_updateZoneBits (clk : Clk) (v : Byte) (s : State) :
    exec (.updateZoneBits clk v) s = .next (
      clocked clk (fun s1 => respond .noValue { s1 with zone := zoneOfOperand v }) s) := rfl

theorem exec_motorControl (clk : Clk) (flag : Bool) (s : State) :
    exec (.motorControl clk flag) s = .next (
      clocked clk (fun s1 => respond .noValue { s1 with motorOn := flag }) s) := rfl

theorem exec_updatePcr (clk : Clk) (v : Byte) (s : State) :
    exec (.updatePcr clk v) s = .next (
      clocked clk (fun s1 => respond .noValue (writePcr v s1)) s) := rfl

theorem exec_noteAttach (clk : Clk) (s : State) :
    exec (.noteAttach clk) s = .next (
      respond .noValue { s with attachClk := clk, attachValid := true }) := rfl

theorem exec_noteDetach (clk : Clk) (s : State) :
    exec (.noteDetach clk) s = .next (
      respond .noValue { s with detachClk := clk, detachValid := true }) := rfl

theorem exec_reset (s : State) :
    exec .reset s = .next (
      respond .noValue (positionHead (2 * (dirTrack : Int)) s)) := rfl

/-! ## The clocked prologue -/

theorem clocked_refused {clk : Clk} {s : State} (h : clk.toNat < s.rotationLastClk.toNat)
    (rest : State → State) : clocked clk rest s = refuse .clockWentBack s := if_pos h

theorem clocked_ok {clk : Clk} {s : State} (h : s.rotationLastClk.toNat ≤ clk.toNat)
    (rest : State → State) : clocked clk rest s = rest (syncTo clk s) := if_neg (by omega)

/-- The delta of a `SYNC_TO` as a 32-bit operand. -/
theorem toNat_clk_sub {clk last : Clk} (h : last.toNat ≤ clk.toNat) :
    (clk - last).toNat = clk.toNat - last.toNat := BitVec.toNat_sub_of_le h

/-- `SYNC_TO` is `ADVANCE` over the elapsed ticks, and then the clock. -/
theorem syncTo_eq {clk : Clk} {s : State} (h : s.rotationLastClk.toNat ≤ clk.toNat) :
    syncTo clk s =
      { advanceCore (clk - s.rotationLastClk).toNat false s with rotationLastClk := clk } := by
  rw [toNat_clk_sub h]
  rfl

/-- A property that a refusal and the engine keep, and that the rest of a clocked operation keeps,
is kept by the operation. -/
theorem clocked_induction {P : State → Prop} {clk : Clk} {rest : State → State} {s : State}
    (hrefuse : P (refuse .clockWentBack s)) (hrest : P (rest (syncTo clk s))) :
    P (clocked clk rest s) := by
  unfold clocked
  split
  · exact hrefuse
  · exact hrest

@[simp] theorem syncTo_rotationLastClk (clk : Clk) (s : State) :
    (syncTo clk s).rotationLastClk = clk := rfl
@[simp] theorem syncTo_speedZone (clk : Clk) (s : State) :
    (syncTo clk s).speedZone = s.speedZone := advanceCore_speedZone _ _ s
@[simp] theorem syncTo_trackSize (clk : Clk) (s : State) :
    (syncTo clk s).trackSize = s.trackSize := advanceCore_trackSize _ _ s
@[simp] theorem syncTo_currentHalfTrack (clk : Clk) (s : State) :
    (syncTo clk s).currentHalfTrack = s.currentHalfTrack := advanceCore_currentHalfTrack _ _ s
@[simp] theorem syncTo_currentTrackSize (clk : Clk) (s : State) :
    (syncTo clk s).currentTrackSize = s.currentTrackSize := advanceCore_currentTrackSize _ _ s
@[simp] theorem syncTo_readWriteMode (clk : Clk) (s : State) :
    (syncTo clk s).readWriteMode = s.readWriteMode := advanceCore_readWriteMode _ _ s
@[simp] theorem syncTo_writeValue (clk : Clk) (s : State) :
    (syncTo clk s).writeValue = s.writeValue := advanceCore_writeValue _ _ s
@[simp] theorem syncTo_motorOn (clk : Clk) (s : State) :
    (syncTo clk s).motorOn = s.motorOn := advanceCore_motorOn _ _ s
@[simp] theorem syncTo_byteReadyEnable (clk : Clk) (s : State) :
    (syncTo clk s).byteReadyEnable = s.byteReadyEnable := advanceCore_byteReadyEnable _ _ s
@[simp] theorem syncTo_zone (clk : Clk) (s : State) :
    (syncTo clk s).zone = s.zone := advanceCore_zone _ _ s
@[simp] theorem syncTo_attachClk (clk : Clk) (s : State) :
    (syncTo clk s).attachClk = s.attachClk := advanceCore_attachClk _ _ s
@[simp] theorem syncTo_attachValid (clk : Clk) (s : State) :
    (syncTo clk s).attachValid = s.attachValid := advanceCore_attachValid _ _ s
@[simp] theorem syncTo_detachClk (clk : Clk) (s : State) :
    (syncTo clk s).detachClk = s.detachClk := advanceCore_detachClk _ _ s
@[simp] theorem syncTo_detachValid (clk : Clk) (s : State) :
    (syncTo clk s).detachValid = s.detachValid := advanceCore_detachValid _ _ s
@[simp] theorem syncTo_requests (clk : Clk) (s : State) :
    (syncTo clk s).requests = s.requests := advanceCore_requests _ _ s
@[simp] theorem syncTo_response (clk : Clk) (s : State) :
    (syncTo clk s).response = s.response := advanceCore_response _ _ s

/-- A property every commit keeps, and that neither the engine's other fields nor the clock disturb,
is kept by `SYNC_TO`. -/
theorem syncTo_induction {P : State → Prop} (hcommit : ∀ m s, P s → P (commit m s))
    (hflags : ∀ s finish last ready, P s →
      P { s with finishByte := finish, lastMode := last, byteReady := ready })
    (hbits : ∀ s bits acc, P s → P { s with bitsMoved := bits, accum := acc })
    (hclk : ∀ s c, P s → P { s with rotationLastClk := c })
    (clk : Clk) {s : State} (hs : P s) : P (syncTo clk s) :=
  hclk _ clk (advanceCore_induction hcommit hflags hbits _ _ hs)

/-! ## The control writes -/

/-- All that `UPDATE_PCR` writes after its `SYNC_TO`. -/
theorem writePcr_eq (v : Byte) (s : State) :
    writePcr v s = { s with
      byteReadyEnable := pcrEnable v
      readWriteMode := pcrMode v
      finishByte := s.finishByte || decide (pcrMode v ≠ s.readWriteMode) } := by
  unfold writePcr
  split
  · next h => rw [h]; simp
  · next h => simp [advanceCore_signal, h]

theorem pcrMode_read_iff (v : Byte) : pcrMode v = .read ↔ v.toNat / 32 % 2 = 1 := by
  revert v; decide

theorem pcrEnable_eq (v : Byte) : pcrEnable v = decide (v.toNat / 2 % 2 = 1) := by
  revert v; decide

theorem lowerClk_toNat (c : Clk) : (lowerClk c).toNat = c.toNat - rebaseAmount.toNat := by
  have := c.isLt
  simp only [lowerClk, BitVec.toNat_ofNat]
  omega

/-! ## Tracks and their sizes -/

theorem isTrack_iff (t : Byte) : isTrack t = true ↔ 1 ≤ t.toNat ∧ t.toNat ≤ 42 :=
  decide_eq_true_iff

theorem isTrack_false_iff (t : Byte) : isTrack t = false ↔ t.toNat = 0 ∨ 42 < t.toNat := by
  rw [← Bool.not_eq_true, isTrack_iff]
  omega

theorem slotBase_eq (t : Nat) : slotBase t = (t - 1) * 7928 := rfl

/-- The slot of a track ends where the next one begins. -/
theorem slotBase_end {t : Nat} (h : 1 ≤ t) : slotBase t + maxBytesPerTrack = t * 7928 := by
  obtain ⟨n, rfl⟩ := Nat.exists_eq_add_of_le' h
  exact (Nat.succ_mul n 7928).symm

theorem maxBytesPerTrack_eq : maxBytesPerTrack = 7928 := rfl

theorem someBadZone_iff (zones : List Byte) :
    someBadZone zones = true ↔ ∃ z ∈ zones, 3 < z.toNat := by
  simp [someBadZone]

theorem getD_replicate (k : Nat) : (Vector.replicate 42 0).getD k 0 = 0 := by
  by_cases h : k < 42 <;> simp [Vector.getD, h]


theorem loadTrack_size {t size : Nat} {data zones : List Byte} {s : State} (h1 : 1 ≤ t)
    (h2 : t ≤ 42) : trackSizeOf (loadTrack t size data zones s) t = size := by
  simp [trackSizeOf, loadTrack, Vector.getD, show t - 1 < 42 by omega]

theorem loadTrack_size_other {t k size : Nat} {data zones : List Byte} {s : State} (h1 : 1 ≤ t)
    (h2 : 1 ≤ k) (h : k ≠ t) :
    trackSizeOf (loadTrack t size data zones s) k = trackSizeOf s k := by
  simp only [trackSizeOf, loadTrack, Vector.getD]
  by_cases hk : k - 1 < 42
  · simp [hk, show t - 1 ≠ k - 1 by omega]
  · simp [hk]

end Sys2Proof.Machine
end

