-- ==== Sys2Proof/Laws/Locator.lean ====
section
/-! SUPPORT. The laws of the Sector Locator's scans: for each loop what it returns and when, so that no
later proof unfolds one. -/

namespace Sys2Proof.Machine

open Sys2Proof

/-! ## Skipping to a sync byte -/

/-- The scan stops at the first sync byte from `p` on. -/
theorem skipToSync_finds {s : State} {fuel p q : Nat} (hpq : p ≤ q) (hq : q < s.currentTrackSize)
    (hsync : trkRead s q = syncByte) (hbefore : ∀ o, p ≤ o → o < q → trkRead s o ≠ syncByte)
    (hfuel : q - p < fuel) : skipToSync s fuel p = some q := by
  induction fuel generalizing p with
  | zero => omega
  | succ fuel ih =>
    unfold skipToSync
    rcases Nat.eq_or_lt_of_le hpq with h | h
    · subst h; rw [if_pos hsync]
    · rw [if_neg (hbefore p le_rfl h), if_neg (by omega)]
      exact ih (by omega) (fun o h1 h2 => hbefore o (by omega) h2) (by omega)

/-- The scan does not wrap: with no sync byte from `p` to the track end it finds nothing. -/
theorem skipToSync_none {s : State} {fuel p : Nat} (hp : p < s.currentTrackSize)
    (h : ∀ o, p ≤ o → o < s.currentTrackSize → trkRead s o ≠ syncByte) :
    skipToSync s fuel p = none := by
  induction fuel generalizing p with
  | zero => rfl
  | succ fuel ih =>
    unfold skipToSync
    rw [if_neg (h p le_rfl hp)]
    split
    · rfl
    · exact ih (by omega) fun o h1 h2 => h o (by omega) h2

/-- What the scan returns lies on the track and is a sync byte. -/
theorem skipToSync_some {s : State} {fuel p q : Nat} (hp : p < s.currentTrackSize)
    (h : skipToSync s fuel p = some q) : q < s.currentTrackSize ∧ trkRead s q = syncByte := by
  induction fuel generalizing p with
  | zero => cases h
  | succ fuel ih =>
    unfold skipToSync at h
    split at h
    · next hs => cases h; exact ⟨hp, hs⟩
    · split at h
      · cases h
      · exact ih (by omega) h

/-! ## The header scan's offset -/

/-- The scan point `n` offsets further on. -/
def scanAt (s : State) (a : ScanPoint) (n : Nat) : ScanPoint :=
  { a with
    p := (a.p + n) % s.currentTrackSize
    wrapped := a.wrapped || decide (s.currentTrackSize ≤ a.p + n) }

theorem scanAt_zero {s : State} {a : ScanPoint} (h : a.p < s.currentTrackSize) :
    scanAt s a 0 = a := by
  rcases a with ⟨p, w, c⟩
  simp only [scanAt, Nat.add_zero, Nat.mod_eq_of_lt h]
  simp at h
  simp [h]

theorem scanNext_scanAt {s : State} {a : ScanPoint} (h : a.p < s.currentTrackSize) (n : Nat) :
    scanNext s (scanAt s a n) = scanAt s a (n + 1) := by
  have hm := Nat.mod_lt (a.p + n) (show 0 < s.currentTrackSize by omega)
  have e := Nat.div_add_mod (a.p + n) s.currentTrackSize
  have hmod : (a.p + (n + 1)) % s.currentTrackSize =
      if s.currentTrackSize ≤ (a.p + n) % s.currentTrackSize + 1 then 0
      else (a.p + n) % s.currentTrackSize + 1 := by
    rw [← Nat.add_assoc, Nat.add_mod_eq_ite]
    rcases Nat.lt_or_ge 1 s.currentTrackSize with h1 | h1
    · rw [Nat.mod_eq_of_lt h1]
      split <;> omega
    · have : s.currentTrackSize = 1 := by omega
      simp only [this, Nat.mod_one, Nat.mod_self]
      simp
  unfold scanNext scanAt
  dsimp only
  split
  · next hw =>
    rw [hmod, if_pos hw]
    congr 1
    symm
    simp only [Bool.or_eq_true, decide_eq_true_eq]
    right
    have h1 : (a.p + n) % s.currentTrackSize ≤ a.p + n := Nat.mod_le _ _
    omega
  · next hw =>
    rw [hmod, if_neg hw]
    congr 2
    apply decide_eq_decide.mpr
    constructor
    · intro h1; omega
    · intro h1
      by_contra h2
      have : (a.p + n) % s.currentTrackSize = a.p + n := Nat.mod_eq_of_lt (by omega)
      omega

theorem scanNext_syncCount (s : State) (a : ScanPoint) : (scanNext s a).syncCount = a.syncCount := by
  unfold scanNext; split <;> rfl

theorem scanNext_lt {s : State} (a : ScanPoint) (h : 0 < s.currentTrackSize) :
    (scanNext s a).p < s.currentTrackSize := by
  unfold scanNext
  split
  · exact h
  · show a.p + 1 < _; omega

/-- The group at a scan point: five bytes on the circular track, and the point after them. -/
theorem scanGroup_eq {s : State} {a : ScanPoint} (h : a.p < s.currentTrackSize) :
    scanGroup s a =
      (⟨trkRead s a.p, trkRead s (a.p + 1), trkRead s (a.p + 2), trkRead s (a.p + 3),
        trkRead s (a.p + 4)⟩, scanAt s a 5) := by
  have h0 := scanNext_scanAt h 0
  rw [scanAt_zero h] at h0
  unfold scanGroup
  dsimp only
  rw [h0, scanNext_scanAt h, scanNext_scanAt h, scanNext_scanAt h, scanNext_scanAt h]
  simp only [scanAt, trkRead_mod]

/-! ## Skipping a sync run -/

/-- A run of `r` sync bytes, short of the killer-track guard, is skipped to the byte after it. -/
theorem skipSyncRun_finds {s : State} {fuel r : Nat} {a : ScanPoint}
    (ha : a.p < s.currentTrackSize) (hrun : ∀ k < r, trkRead s (a.p + k) = syncByte)
    (hend : trkRead s (a.p + r) ≠ syncByte) (hguard : a.syncCount + r < s.currentTrackSize)
    (hfuel : r < fuel) :
    skipSyncRun s fuel a = some { scanAt s a r with syncCount := a.syncCount + r } := by
  induction fuel generalizing a r with
  | zero => omega
  | succ fuel ih =>
    unfold skipSyncRun
    cases r with
    | zero =>
      rw [if_pos (by simpa using hend), scanAt_zero ha]
      rfl
    | succ r =>
      have h0 : trkRead s a.p = syncByte := by simpa using hrun 0 (by omega)
      have hn : scanNext s a = scanAt s a 1 := by
        have := scanNext_scanAt ha 0
        rwa [scanAt_zero ha] at this
      have hp : ({ scanNext s a with syncCount := a.syncCount + 1 } : ScanPoint).p =
          (a.p + 1) % s.currentTrackSize := by rw [hn]; rfl
      have hread : ∀ k, trkRead s ((a.p + 1) % s.currentTrackSize + k) = trkRead s (a.p + (k + 1)) :=
        fun k => trkRead_congr_mod (by rw [Nat.mod_add_mod]; congr 1; omega)
      rw [if_neg (by simpa using h0), if_neg (by omega),
        ih (a := { scanNext s a with syncCount := a.syncCount + 1 }) (r := r)]
      · have hw : ({ scanNext s a with syncCount := a.syncCount + 1 } : ScanPoint) =
            { scanAt s a 1 with syncCount := a.syncCount + 1 } := by rw [hn]
        rw [hw]
        simp only [scanAt, Option.some.injEq, ScanPoint.mk.injEq]
        refine ⟨?_, ?_, by omega⟩
        · rw [Nat.mod_add_mod]; congr 1; omega
        · rw [Bool.or_assoc]
          congr 1
          rw [Bool.eq_iff_iff]
          simp only [Bool.or_eq_true, decide_eq_true_eq]
          refine (or_congr Iff.rfl (decide_eq_true_iff
            (p := s.currentTrackSize ≤ (a.p + 1) % s.currentTrackSize + r))).trans ?_
          rcases Nat.lt_or_ge (a.p + 1) s.currentTrackSize with hlt | hge
          · rw [Nat.mod_eq_of_lt hlt]; omega
          · constructor
            · intro _; omega
            · intro _; exact .inl hge
      · rw [hp]; exact Nat.mod_lt _ (by omega)
      · intro k hk; rw [hp, hread]; exact hrun (k + 1) (by omega)
      · rw [hp, hread]; exact hend
      · show a.syncCount + 1 + r < _; omega
      · omega

/-- What skipping a run returns: an offset on the track whose byte is no sync byte, the byte before it
one if the run was not empty. -/
theorem skipSyncRun_some {s : State} {fuel : Nat} {a b : ScanPoint} (ha : a.p < s.currentTrackSize)
    (h : skipSyncRun s fuel a = some b) :
    b.p < s.currentTrackSize ∧ trkRead s b.p ≠ syncByte ∧
      (trkRead s a.p = syncByte → trkRead s (prevOff s b.p) = syncByte) := by
  have key : ∀ fuel a, a.p < s.currentTrackSize → skipSyncRun s fuel a = some b →
      b.p < s.currentTrackSize ∧ trkRead s b.p ≠ syncByte ∧
        (b = a ∨ trkRead s (prevOff s b.p) = syncByte) := by
    intro fuel
    induction fuel with
    | zero => intro a _ h; cases h
    | succ fuel ih =>
      intro a ha h
      unfold skipSyncRun at h
      split at h
      · next hs => cases h; exact ⟨ha, hs, .inl rfl⟩
      · next hs =>
        split at h
        · cases h
        · have hlt : ({ scanNext s a with syncCount := a.syncCount + 1 } : ScanPoint).p <
              s.currentTrackSize := scanNext_lt a (by omega)
          obtain ⟨h1, h2, h3⟩ := ih _ hlt h
          refine ⟨h1, h2, .inr (h3.elim (fun e => ?_) id)⟩
          have hn : scanNext s a = scanAt s a 1 := by
            have := scanNext_scanAt ha 0
            rwa [scanAt_zero ha] at this
          have hp : b.p = (a.p + 1) % s.currentTrackSize := by rw [e, hn]; rfl
          rw [prevOff_of_pos (by omega), trkRead_mod, hp]
          refine (trkRead_congr_mod ?_).trans (not_not.mp hs)
          rw [Nat.add_sub_assoc (by omega), Nat.mod_add_mod, Nat.add_assoc,
            show 1 + (s.currentTrackSize - 1) = s.currentTrackSize by omega, Nat.add_mod_right]
  obtain ⟨h1, h2, h3⟩ := key fuel a ha h
  refine ⟨h1, h2, fun hs => h3.elim (fun e => ?_) id⟩
  subst e
  exact absurd hs h2

/-- On a track that is all sync the killer-track guard gives up. -/
theorem skipSyncRun_all_sync {s : State} {fuel : Nat} {a : ScanPoint}
    (h : ∀ o, trkRead s o = syncByte) (hfuel : s.currentTrackSize ≤ a.syncCount + fuel) :
    skipSyncRun s fuel a = none := by
  induction fuel generalizing a with
  | zero => rfl
  | succ fuel ih =>
    unfold skipSyncRun
    rw [if_neg (by simpa using h a.p)]
    split
    · rfl
    · exact ih (a := { scanNext s a with syncCount := a.syncCount + 1 })
        (by show _ ≤ a.syncCount + 1 + fuel; omega)

/-- A run that brings the search's sync bytes to the track size meets the killer-track guard. -/
theorem skipSyncRun_guard {s : State} {fuel : Nat} {a : ScanPoint} (ha : a.p < s.currentTrackSize)
    (hrun : ∀ k < s.currentTrackSize - a.syncCount, trkRead s (a.p + k) = syncByte)
    (hcount : a.syncCount < s.currentTrackSize) : skipSyncRun s fuel a = none := by
  induction fuel generalizing a with
  | zero => rfl
  | succ fuel ih =>
    have h0 : trkRead s a.p = syncByte := by simpa using hrun 0 (by omega)
    have hn : scanNext s a = scanAt s a 1 := by
      have := scanNext_scanAt ha 0
      rwa [scanAt_zero ha] at this
    unfold skipSyncRun
    rw [if_neg (by simpa using h0)]
    split
    · rfl
    · refine ih (a := { scanNext s a with syncCount := a.syncCount + 1 })
        (scanNext_lt a (by omega)) (fun k hk => ?_) (by show a.syncCount + 1 < _; omega)
      have hk' : k + 1 < s.currentTrackSize - a.syncCount := by
        have : k < s.currentTrackSize - (a.syncCount + 1) := hk
        omega
      rw [← hrun (k + 1) hk']
      refine trkRead_congr_mod ?_
      show ((scanNext s a).p + k) % _ = _
      rw [hn]
      show ((a.p + 1) % _ + k) % _ = _
      rw [Nat.mod_add_mod]
      congr 1
      omega

/-! ## One round of the header scan -/

/-- The group at an offset of the circular track. -/
def groupAt (s : State) (q : Nat) : GcrGroup :=
  ⟨trkRead s q, trkRead s (q + 1), trkRead s (q + 2), trkRead s (q + 3), trkRead s (q + 4)⟩

/-- A round whose candidate lies at `b`: its match, or the scan from just after it. -/
theorem headerScan_round {s : State} {track sector : Byte} {fuel p : Nat} {a b : ScanPoint}
    (ha : a.p < s.currentTrackSize) (hw : a.wrapped = false)
    (hsync : skipToSync s (s.currentTrackSize - a.p) a.p = some p)
    (hrun : skipSyncRun s (s.currentTrackSize + 1) { a with p := p } = some b)
    (hb : b.p < s.currentTrackSize) :
    headerScan s track sector (fuel + 1) a =
      if headerMatches track sector (dec5 (groupAt s b.p)) then some ((b.p + 5) % s.currentTrackSize)
      else headerScan s track sector fuel (scanAt s b 5) := by
  conv_lhs => unfold headerScan
  rw [if_neg (by simp only [hw]; simp; omega), hsync]
  dsimp only
  rw [hrun]
  dsimp only
  rw [scanGroup_eq hb]
  rfl

/-- A round in which no sync byte is left before the track end. -/
theorem headerScan_no_sync {s : State} {track sector : Byte} {fuel : Nat} {a : ScanPoint}
    (hsync : skipToSync s (s.currentTrackSize - a.p) a.p = none) :
    headerScan s track sector (fuel + 1) a = none := by
  unfold headerScan
  rw [hsync]
  split <;> rfl

/-- A round in which the killer-track guard gives up. -/
theorem headerScan_guard {s : State} {track sector : Byte} {fuel p : Nat} {a : ScanPoint}
    (hsync : skipToSync s (s.currentTrackSize - a.p) a.p = some p)
    (hrun : skipSyncRun s (s.currentTrackSize + 1) { a with p := p } = none) :
    headerScan s track sector (fuel + 1) a = none := by
  unfold headerScan
  rw [hsync]
  dsimp only
  rw [hrun]
  split <;> rfl

/-! ## The header scan from candidate to candidate -/

theorem headerMatches_iff {s : State} {track sector : Byte} {o : Nat} :
    headerMatches track sector (dec5 (groupAt s o)) = true ↔ headerAt s track sector o := by
  simp [headerMatches, headerAt, groupAt, hdrMarker]

/-- A group is the same modulo the track size. -/
theorem groupAt_mod (s : State) (o : Nat) : groupAt s (o % s.currentTrackSize) = groupAt s o := by
  have h : ∀ k, trkRead s (o % s.currentTrackSize + k) = trkRead s (o + k) :=
    fun k => trkRead_congr_mod (by rw [Nat.mod_add_mod])
  simp only [groupAt, h, trkRead_mod]

@[simp] theorem searchStart_zero (q : Nat → Nat) : searchStart q 0 = 0 := rfl
@[simp] theorem searchStart_succ (q : Nat → Nat) (i : Nat) : searchStart q (i + 1) = q i + 5 := rfl
@[simp] theorem syncSkipped_zero (a q : Nat → Nat) : syncSkipped a q 0 = 0 := rfl
@[simp] theorem syncSkipped_succ (a q : Nat → Nat) (i : Nat) :
    syncSkipped a q (i + 1) = syncSkipped a q i + (q i - a i) := rfl

theorem syncSkipped_le {a q : Nat → Nat} {i m : Nat} (h : i ≤ m) :
    syncSkipped a q i ≤ syncSkipped a q m := by
  induction m with
  | zero => rw [Nat.le_zero.mp h]
  | succ m ih =>
    rcases Nat.lt_or_ge m i with h1 | h1
    · rw [Nat.le_antisymm h h1]
    · exact Nat.le_trans (ih h1) (Nat.le_add_right ..)

/-- Candidates lie in scan order, so there are no more of them than offsets. -/
theorem candidates_le {s : State} {a q : Nat → Nat} {m : Nat} (h : candidates s a q m) :
    ∀ i < m, i ≤ a i := by
  intro i
  induction i with
  | zero => exact fun _ => Nat.zero_le _
  | succ i ih =>
    intro hi
    have h1 := ih (by omega)
    have h2 := h i (by omega)
    have h3 : q i + 5 ≤ a (i + 1) := (h (i + 1) hi).1
    omega

/-- Where the scan stands after `m` candidates. -/
def candidatePoint (s : State) (a q : Nat → Nat) (m : Nat) : ScanPoint where
  p := searchStart q m % s.currentTrackSize
  wrapped := decide (s.currentTrackSize ≤ searchStart q m)
  syncCount := syncSkipped a q m

/-- One candidate: its run is skipped, its group compared, and the scan goes on just after it. -/
theorem headerScan_candidate {s : State} {track sector : Byte} {a q : Nat → Nat} {m fuel : Nat}
    (h : candidates s a q (m + 1)) (hsum : syncSkipped a q (m + 1) < s.currentTrackSize) :
    headerScan s track sector (fuel + 1) (candidatePoint s a q m) =
      if headerMatches track sector (dec5 (groupAt s (q m)))
      then some ((q m + 5) % s.currentTrackSize)
      else headerScan s track sector fuel (candidatePoint s a q (m + 1)) := by
  obtain ⟨h1, h2, h3, h4, h5, h6⟩ := h m (by omega)
  have hp : (candidatePoint s a q m).p = searchStart q m := Nat.mod_eq_of_lt (by omega)
  have hw : (candidatePoint s a q m).wrapped = false := decide_eq_false (by omega)
  have hc : syncSkipped a q (m + 1) = syncSkipped a q m + (q m - a m) := rfl
  have hrun := skipSyncRun_finds (s := s) (fuel := s.currentTrackSize + 1) (r := q m - a m)
    (a := { candidatePoint s a q m with p := a m }) h2
    (fun k hk => h5 (a m + k) (by omega) (by omega))
    (by show trkRead s (a m + (q m - a m)) ≠ _; rw [Nat.add_sub_cancel' (by omega)]; exact h6)
    (by show syncSkipped a q m + _ < _; omega) (by omega)
  rw [headerScan_round (by rw [hp]; omega) hw
    (by rw [hp]; exact skipToSync_finds h1 h2 (h5 _ (by omega) (by omega)) h4 (by omega)) hrun
    (Nat.mod_lt _ (by omega))]
  have hq : a m + (q m - a m) = q m := by omega
  show (if headerMatches track sector (dec5 (groupAt s ((a m + (q m - a m)) % _))) then
    some (((a m + (q m - a m)) % _ + 5) % _) else _) = _
  rw [hq, groupAt_mod, Nat.mod_add_mod]
  congr 2
  simp only [scanAt, candidatePoint, searchStart_succ, hq, ScanPoint.mk.injEq, hc, and_true]
  refine ⟨Nat.mod_add_mod .., ?_⟩
  have hs : ¬ s.currentTrackSize ≤ searchStart q m := by omega
  rw [decide_eq_false hs, Bool.false_or]
  rcases Nat.lt_or_ge (q m) s.currentTrackSize with hlt | hge
  · rw [decide_eq_false (by omega), Nat.mod_eq_of_lt hlt, Bool.false_or]
    exact decide_eq_decide.mpr Iff.rfl
  · rw [decide_eq_true hge, Bool.true_or]
    exact (decide_eq_true_iff.mpr (show s.currentTrackSize ≤ q m + 5 by omega)).symm

/-- What the header search does with candidates that do not match: it goes on after them. -/
theorem findHeader_after {s : State} {track sector : Byte} {a q : Nat → Nat} {m : Nat}
    (hz : 0 < s.currentTrackSize) (h : candidates s a q m)
    (hsum : syncSkipped a q m < s.currentTrackSize)
    (hno : ∀ i < m, ¬ headerAt s track sector (q i)) :
    findHeader s track sector =
      headerScan s track sector (s.currentTrackSize + 1 - m) (candidatePoint s a q m) := by
  induction m with
  | zero =>
    simp [findHeader, candidatePoint, Nat.ne_of_gt hz]
  | succ m ih =>
    have hle := candidates_le h m (by omega)
    have hlt := (h m (by omega)).2.1
    rw [ih (fun i hi => h i (by omega)) (Nat.lt_of_le_of_lt (syncSkipped_le (Nat.le_succ m)) hsum)
        (fun i hi => hno i (by omega)),
      show s.currentTrackSize + 1 - m = (s.currentTrackSize + 1 - (m + 1)) + 1 by omega,
      headerScan_candidate h hsum, if_neg (fun hm => hno m (by omega) (headerMatches_iff.mp hm))]

/-! ## FIND_SECTOR_DATA's loops -/

/-- The gap: fewer non-sync bytes than the guard allows are skipped, wrapping. -/
theorem skipGap_finds {s : State} {fuel gap p : Nat} (hz : 0 < s.currentTrackSize)
    (hgap : ∀ k < gap, trkRead s (p + k) ≠ syncByte) (hsync : trkRead s (p + gap) = syncByte)
    (hfuel : gap < fuel) (hp : p < s.currentTrackSize) :
    skipGap s fuel p = some ((p + gap) % s.currentTrackSize) := by
  induction fuel generalizing p gap with
  | zero => omega
  | succ fuel ih =>
    unfold skipGap
    cases gap with
    | zero => rw [if_pos (by simpa using hsync), Nat.add_zero, Nat.mod_eq_of_lt hp]
    | succ gap =>
      have hread : ∀ k, trkRead s (nextOff s p + k) = trkRead s (p + (k + 1)) := by
        intro k
        rw [nextOff_of_pos hz]
        exact trkRead_congr_mod (by rw [Nat.mod_add_mod]; congr 1; omega)
      rw [if_neg (by simpa using hgap 0 (by omega)), ih (gap := gap) ?_ ?_ (by omega)
        (nextOff_lt hz p), nextOff_of_pos hz, Nat.mod_add_mod]
      · congr 2; omega
      · intro k hk; rw [hread]; exact hgap (k + 1) (by omega)
      · rw [hread]; exact hsync

/-- The gap: as many non-sync bytes as the guard allows end the search. -/
theorem skipGap_none {s : State} {fuel p : Nat}
    (hgap : ∀ k < fuel, trkRead s (p + k) ≠ syncByte) : skipGap s fuel p = none := by
  induction fuel generalizing p with
  | zero => rfl
  | succ fuel ih =>
    unfold skipGap
    rw [if_neg (by simpa using hgap 0 (by omega))]
    refine ih fun k hk => ?_
    have h := hgap (k + 1) (by omega)
    rcases Nat.eq_zero_or_pos s.currentTrackSize with hz | hz
    · rw [trkRead_of_empty hz] at h ⊢; exact h
    · rw [nextOff_of_pos hz, trkRead_congr_mod (o' := p + (k + 1))]
      · exact h
      · rw [Nat.mod_add_mod]; congr 1; omega

/-- The sync run before a data block, wrapping. -/
theorem skipDataSync_finds {s : State} {fuel run p : Nat} (hz : 0 < s.currentTrackSize)
    (hrun : ∀ k < run, trkRead s (p + k) = syncByte) (hend : trkRead s (p + run) ≠ syncByte)
    (hfuel : run < fuel) (hp : p < s.currentTrackSize) :
    skipDataSync s fuel p = some ((p + run) % s.currentTrackSize) := by
  induction fuel generalizing p run with
  | zero => omega
  | succ fuel ih =>
    unfold skipDataSync
    cases run with
    | zero => rw [if_pos (by simpa using hend), Nat.add_zero, Nat.mod_eq_of_lt hp]
    | succ run =>
      have hread : ∀ k, trkRead s (nextOff s p + k) = trkRead s (p + (k + 1)) := by
        intro k
        rw [nextOff_of_pos hz]
        exact trkRead_congr_mod (by rw [Nat.mod_add_mod]; congr 1; omega)
      rw [if_neg (by simpa using hrun 0 (by omega)), ih (run := run) ?_ ?_ (by omega)
        (nextOff_lt hz p), nextOff_of_pos hz, Nat.mod_add_mod]
      · congr 2; omega
      · intro k hk; rw [hread]; exact hrun (k + 1) (by omega)
      · rw [hread]; exact hend

/-- A run of sync bytes as long as the guard allows ends the search. -/
theorem skipDataSync_none {s : State} {fuel p : Nat} (h : ∀ o, trkRead s o = syncByte) :
    skipDataSync s fuel p = none := by
  induction fuel generalizing p with
  | zero => rfl
  | succ fuel ih =>
    unfold skipDataSync
    rw [if_neg (by simpa using h p)]
    exact ih

/-- `FIND_SECTOR_DATA`'s result from its two loops. -/
theorem findData_of {s : State} {offset p : Nat} {r : Option Nat} (hz : 0 < s.currentTrackSize)
    (hgap : skipGap s dataSearchGuard (offset % s.currentTrackSize) = some p)
    (hrun : skipDataSync s s.currentTrackSize p = r) : findData s offset = r := by
  unfold findData
  rw [if_neg (by omega), hgap]
  exact hrun

/-- Showing a result to the host changes nothing the search reads. -/
@[simp] theorem findData_respond (r : Result) (s : State) (offset : Nat) :
    findData (respond r s) offset = findData s offset := by
  have hgap : ∀ fuel p, skipGap (respond r s) fuel p = skipGap s fuel p := by
    intro fuel
    induction fuel with
    | zero => exact fun _ => rfl
    | succ fuel ih =>
      intro p
      simp only [skipGap, ih]
      rfl
  have hrun : ∀ fuel p, skipDataSync (respond r s) fuel p = skipDataSync s fuel p := by
    intro fuel
    induction fuel with
    | zero => exact fun _ => rfl
    | succ fuel ih =>
      intro p
      simp only [skipDataSync, ih]
      rfl
  simp only [findData, hgap, hrun, respond_currentTrackSize]

/-- A byte that is sync at every offset of the track is sync at every offset. -/
theorem trkRead_all_sync {s : State} (h : ∀ o < s.currentTrackSize, trkRead s o = syncByte)
    (o : Nat) : trkRead s o = syncByte := by
  rcases Nat.eq_zero_or_pos s.currentTrackSize with hz | hz
  · exact trkRead_of_empty hz o
  · rw [← trkRead_mod]; exact h _ (Nat.mod_lt _ hz)

end Sys2Proof.Machine
end

