-- ==== Sys2Proof/Laws/PerInstr.lean ====
section
/-! SUPPORT. Statements made for every operation, one lemma per constructor of `Instr`. -/

namespace Sys2Proof.Laws.EncodingShape

open Sys2Proof

/-- A well-formed operation is encoded in exactly the length its opcode's format gives it (30_encoding
R103, R106). -/
def Statement (i : Instr) : Prop := WellFormed i → (encode i).length = requestLength (encode i)

theorem gcrEnc4 (raw : RawGroup) : Statement (.gcrEnc4 raw) := fun _ => rfl

theorem gcrDec5 (gcr : GcrGroup) : Statement (.gcrDec5 gcr) := fun _ => rfl

theorem encodeSector (track sector id1 id2 : Byte) (payload : List Byte) : Statement (.encodeSector track sector id1 id2 payload) := fun h => by
  have h : payload.length = payloadLen := h
  simp [encode, requestLength, fixedLength, h, payloadLen]

theorem decodeSector (offset : U32) : Statement (.decodeSector offset) := fun _ => rfl

theorem setHalfTrack (n : U32) : Statement (.setHalfTrack n) := fun _ => rfl

theorem readByteAt (offset : U32) : Statement (.readByteAt offset) := fun _ => rfl

theorem writeByteAt (offset : U32) (value : Byte) : Statement (.writeByteAt offset value) := fun _ => rfl

theorem tsLoadTrack (t : Byte) (size : U16) (data zones : List Byte) : Statement (.tsLoadTrack t size data zones) := fun h => by
  obtain ⟨h1, h2⟩ : data.length = size.toNat ∧ zones.length = size.toNat := h
  simp [encode, requestLength, bytesOf16, h1, h2]
  omega

theorem tsClear : Statement .tsClear := fun _ => rfl

theorem clearDirty : Statement .clearDirty := fun _ => rfl

theorem getDirty : Statement .getDirty := fun _ => rfl

theorem tsReadTrack (t : Byte) : Statement (.tsReadTrack t) := fun _ => rfl

theorem advance (delta : U32) (modeChanged : Bool) : Statement (.advance delta modeChanged) := fun _ => rfl

theorem syncFound (clk : Clk) : Statement (.syncFound clk) := fun _ => rfl

theorem clkRebase (clk : Clk) : Statement (.clkRebase clk) := fun _ => rfl

theorem findSectorHeader (track sector : Byte) : Statement (.findSectorHeader track sector) := fun _ => rfl

theorem findSectorData (offset : U32) : Statement (.findSectorData offset) := fun _ => rfl

theorem readDiskByte (clk : Clk) : Statement (.readDiskByte clk) := fun _ => rfl

theorem writeGcr (clk : Clk) (value : Byte) : Statement (.writeGcr clk value) := fun _ => rfl

theorem byteReady (clk : Clk) : Statement (.byteReady clk) := fun _ => rfl

theorem setByteReady (flag : Bool) : Statement (.setByteReady flag) := fun _ => rfl

theorem moveHead (step : U32) : Statement (.moveHead step) := fun _ => rfl

theorem updateZoneBits (clk : Clk) (v : Byte) : Statement (.updateZoneBits clk v) := fun _ => rfl

theorem motorControl (clk : Clk) (flag : Bool) : Statement (.motorControl clk flag) := fun _ => rfl

theorem updatePcr (clk : Clk) (v : Byte) : Statement (.updatePcr clk v) := fun _ => rfl

theorem noteAttach (clk : Clk) : Statement (.noteAttach clk) := fun _ => rfl

theorem noteDetach (clk : Clk) : Statement (.noteDetach clk) := fun _ => rfl

theorem reset : Statement .reset := fun _ => rfl

end Sys2Proof.Laws.EncodingShape
end

