-- ==== Sys2Proof/Laws/Pseudo.lean ====
section
/-! SUPPORT. All that the pseudo-operation READ_SECTOR can answer, so that no proof about it unfolds
its expansion. -/

namespace Sys2Proof.Machine

open Sys2Proof

/-- READ_SECTOR ends with the decoded block, or with "not found" of the locate that found nothing
(30_encoding R108). -/
theorem runReadSector_eq (track sector : Byte) (s : State) :
    runReadSector track sector s =
      match findHeader s track sector with
      | none => .next (respond (.offset none) s)
      | some h =>
        match findData s (BitVec.ofNat 32 h).toNat with
        | none => .next (respond (.offset none) s)
        | some d => execDecodeSector (BitVec.ofNat 32 d) s := by
  cases hh : findHeader s track sector with
  | none => simp [runReadSector, exec_findSectorHeader, hh]
  | some h =>
    cases hd : findData s (BitVec.ofNat 32 h).toNat with
    | none =>
      simp only [runReadSector, exec_findSectorHeader, exec_findSectorData, hh, hd,
        respond_response, findData_respond]
      rfl
    | some d =>
      simp only [runReadSector, exec_findSectorHeader, exec_findSectorData, hh, hd,
        respond_response, findData_respond]
      rfl

end Sys2Proof.Machine
end

