-- ==== Sys2Proof/Tests/Slice0.lean ====
section
/-! SUPPORT. The model's own tests: terms the well-formedness check refuses, every operation's request
bytes written out from 30_encoding R103, vectors of 95_test_vectors on single operations, and for each
statement with hypotheses concrete values that meet them. Expected values come from the spec's tables
and vectors; where it gives none, from its rule by hand. -/

namespace Sys2Proof.Tests

open Sys2Proof Sys2Proof.Machine

/-! ## Helpers -/

/-- A rotating drive in Read mode with `bs` as track 18 under the head, all in zone 0 (the start state
of 95_test_vectors section 4). -/
def disk (bs : List Byte) : State :=
  { State.reset with
    gcrData := memCells (slotBase 18) bs
    trackSize := State.reset.trackSize.setIfInBounds 17 bs.length
    currentTrackSize := bs.length
    motorOn := true
    byteReadyEnable := true }

/-- What the head reads on such a drive. -/
theorem disk_trkRead {bs : List Byte} (h : 0 < bs.length) (o : Nat) :
    trkRead (disk bs) o = bs.getD (o % bs.length) 0 := by
  have hb : curBase (disk bs) = slotBase 18 := by
    simp [curBase, curTrack, disk, State.reset, dirTrack]
  rw [trkRead_of_pos (show 0 < (disk bs).currentTrackSize from h), hb]
  exact memRead_memCells bs (slotBase 18) (o % bs.length)

/-- The state after one operation. -/
def after (i : Instr) (s : State) : State :=
  match exec i s with
  | .next t => t
  | _ => s

/-- What the host sees of one operation. -/
def answer (i : Instr) (s : State) : Response := (after i s).response

/-- The current track's bytes. -/
def trackBytes (s : State) : List Byte := trkReadN s 0 s.currentTrackSize

/-- A payload of zeros. -/
def zeros : List Byte := List.replicate 256 0

/-! ## Well-formedness refuses what the port cannot carry (R103) -/

set_option maxRecDepth 8000 in
theorem test_wf_refuses_short_payload :
    ¬ WellFormed (.encodeSector 18 0 0x41 0x30 (List.replicate 255 0)) := by decide
theorem test_wf_refuses_load_with_short_data :
    ¬ WellFormed (.tsLoadTrack 18 2#16 [0xA0] [0, 0]) := by decide
theorem test_wf_refuses_load_with_long_zones :
    ¬ WellFormed (.tsLoadTrack 18 2#16 [0xA0, 0xA1] [0, 0, 0]) := by decide

/-! ## Every operation's request bytes (R102, R103: opcode, operands, little-endian) -/

theorem test_decode_gcrEnc4 : decode [0x10, 0x08, 0x01, 0x00, 0x12] =
    .ok (.gcrEnc4 ⟨0x08, 0x01, 0x00, 0x12⟩) := rfl
theorem test_decode_gcrDec5 : decode [0x11, 0x52, 0x54, 0xB5, 0x29, 0x72] =
    .ok (.gcrDec5 ⟨0x52, 0x54, 0xB5, 0x29, 0x72⟩) := rfl
set_option maxRecDepth 8000 in
theorem test_decode_encodeSector : decode (0x12 :: 0x12 :: 0x01 :: 0x41 :: 0x30 :: zeros) =
    .ok (.encodeSector 18 1 0x41 0x30 zeros) := rfl
theorem test_decode_decodeSector : decode [0x13, 0x1D, 0x02, 0x00, 0x00] =
    .ok (.decodeSector 541#32) := rfl
theorem test_decode_setHalfTrack : decode [0x20, 0xFB, 0xFF, 0xFF, 0xFF] =
    .ok (.setHalfTrack (-5#32)) := rfl
theorem test_decode_readByteAt : decode [0x21, 0x04, 0x03, 0x02, 0x01] =
    .ok (.readByteAt 0x01020304#32) := rfl
theorem test_decode_writeByteAt : decode [0x22, 0x05, 0x00, 0x00, 0x00, 0x77] =
    .ok (.writeByteAt 5#32 0x77) := rfl
theorem test_decode_tsLoadTrack : decode [0x23, 0x12, 0x02, 0x00, 0xA0, 0xA1, 0x02, 0x03] =
    .ok (.tsLoadTrack 18 2#16 [0xA0, 0xA1] [0x02, 0x03]) := rfl
theorem test_decode_tsClear : decode [0x24] = .ok .tsClear := rfl
theorem test_decode_clearDirty : decode [0x25] = .ok .clearDirty := rfl
theorem test_decode_getDirty : decode [0x26] = .ok .getDirty := rfl
theorem test_decode_tsReadTrack : decode [0x27, 0x12] = .ok (.tsReadTrack 18) := rfl
theorem test_decode_advance : decode [0x30, 0x20, 0x01, 0x00, 0x00, 0x07] =
    .ok (.advance 288#32 true) := rfl
theorem test_decode_syncFound : decode [0x31, 0x64, 0x00, 0x00, 0x00] =
    .ok (.syncFound 100#32) := rfl
theorem test_decode_clkRebase : decode [0x32, 0x80, 0x84, 0x1E, 0x00] =
    .ok (.clkRebase 2000000#32) := rfl
theorem test_decode_findSectorHeader : decode [0x40, 0x12, 0x01] =
    .ok (.findSectorHeader 18 1) := rfl
theorem test_decode_findSectorData : decode [0x41, 0x72, 0x01, 0x00, 0x00] =
    .ok (.findSectorData 370#32) := rfl
theorem test_decode_readDiskByte : decode [0x50, 0x20, 0x00, 0x00, 0x00] =
    .ok (.readDiskByte 32#32) := rfl
theorem test_decode_writeGcr : decode [0x51, 0xB0, 0x04, 0x00, 0x00, 0x55] =
    .ok (.writeGcr 1200#32 0x55) := rfl
theorem test_decode_byteReady : decode [0x52, 0x00, 0x00, 0x00, 0x80] =
    .ok (.byteReady 0x80000000#32) := rfl
theorem test_decode_setByteReady : decode [0x53, 0x00] = .ok (.setByteReady false) := rfl
theorem test_decode_moveHead : decode [0x54, 0xFF, 0xFF, 0xFF, 0xFF] =
    .ok (.moveHead (-1#32)) := rfl
theorem test_decode_updateZoneBits : decode [0x55, 0x0A, 0x00, 0x00, 0x00, 0x03] =
    .ok (.updateZoneBits 10#32 0x03) := rfl
theorem test_decode_motorControl : decode [0x56, 0xE8, 0x03, 0x00, 0x00, 0x01] =
    .ok (.motorControl 1000#32 true) := rfl
theorem test_decode_updatePcr : decode [0x57, 0x2C, 0x00, 0x00, 0x00, 0x22] =
    .ok (.updatePcr 44#32 0x22) := rfl
theorem test_decode_noteAttach : decode [0x58, 0x88, 0x13, 0x00, 0x00] =
    .ok (.noteAttach 5000#32) := rfl
theorem test_decode_noteDetach : decode [0x59, 0x88, 0x13, 0x00, 0x00] =
    .ok (.noteDetach 5000#32) := rfl
theorem test_decode_reset : decode [0x5F] = .ok .reset := rfl

/-- Reserved opcodes and wrong lengths (95_test_vectors V8). -/
theorem test_decode_refuses : decode [0x00] = .error (.reservedOpcode 0x00) ∧
    decode [0x60, 0x00] = .error (.reservedOpcode 0x60) ∧
    decode [0x5F, 0x00] = .error (.wrongLength 0x5F) ∧
    decode [0x50, 0x20, 0x00, 0x00] = .error (.wrongLength 0x50) ∧
    decode [0x27] = .error (.wrongLength 0x27) := ⟨rfl, rfl, rfl, rfl, rfl⟩

/-- An opcode-table row whose operand bits are not given is its request with operands of zero. -/
theorem test_table_words : decodeTableWord 8 0x5F = some .reset ∧
    decodeTableWord 8 0x31 = some (.syncFound 0) ∧
    decodeTableWord 48 0x55000004B051 = some (.writeGcr 1200#32 0x55) := by decide

/-- Such a row presented after power-on is what the next step runs. -/
theorem test_step_table_word :
    step (State.reset.withFetchWord 8 0x25) = exec .clearDirty State.reset ∧
    step (State.reset.withFetchWord 8 0x60) = .next (refuse .badRequest State.reset) :=
  ⟨rfl, rfl⟩

/-! ## Single operations -/

/-- V2.9: sector 0, track 18. -/
theorem test_gcrEnc4_header : answer (.gcrEnc4 ⟨0x08, 0x01, 0x00, 0x12⟩) State.reset =
    .ok (.bytes [0x52, 0x54, 0xB5, 0x29, 0x72]) := by decide
/-- V2.6: nibbles 8 to F in order. -/
theorem test_gcrEnc4_order : answer (.gcrEnc4 ⟨0x89, 0xAB, 0xCD, 0xEF⟩) State.reset =
    .ok (.bytes [0x4E, 0x75, 0xB6, 0xF7, 0xD5]) := by decide
/-- V2.5: nibbles 0 to 7 in order. -/
theorem test_gcrDec5_order : answer (.gcrDec5 ⟨0x52, 0xE5, 0x37, 0x3E, 0xD7⟩) State.reset =
    .ok (.bytes [0x01, 0x23, 0x45, 0x67]) := by decide
/-- V2.13: eight reserved codes 1F, each the free nibble of that code (R95). -/
theorem test_gcrDec5_reserved : answer (.gcrDec5 ⟨0xFF, 0xFF, 0xFF, 0xFF, 0xFF⟩) State.reset =
    .ok (.bytes (List.replicate 4 (Config.invNib 0x1F ++ Config.invNib 0x1F))) := rfl
/-- V2.18 in V2.20: the header block, gap and second sync run of an encoded sector. -/
theorem test_encodeSector_head :
    ((sectorImage 18 0 0x41 0x30 zeros).drop 5).take 29 =
      [0x52, 0x6D, 0x35, 0x29, 0x72, 0x72, 0xE6, 0xA5, 0x55, 0x55] ++ List.replicate 9 0x55 ++
        List.replicate 5 0xFF ++ [0x55, 0xD4, 0xA5, 0x29, 0x4A] := by decide
set_option maxRecDepth 8000 in
/-- V2.21: the last data group holds the data checksum A5; then the tail gap. -/
theorem test_encodeSector_tail :
    ((sectorImage 18 0 0x41 0x30 (0xA5 :: List.replicate 255 0)).drop 349 ==
      [0x52, 0xB4, 0xF5, 0x29, 0x4A] ++ List.replicate 6 0x55) = true := by decide +kernel
set_option maxRecDepth 8000 in
/-- V2.24: an empty track decodes as 260 bytes of eight reserved codes 1F each. -/
theorem test_decodeSector_empty : answer (.decodeSector 0) State.reset =
    .ok (.bytes (List.replicate 260 (Config.invNib 0x1F ++ Config.invNib 0x1F))) := by rfl
/-- V5.1: the clamp below and above. -/
theorem test_setHalfTrack_clamp :
    (after (.setHalfTrack (-5#32)) (disk [1])).currentHalfTrack = 2 ∧
      (after (.setHalfTrack 85#32) (disk [1])).currentHalfTrack = 84 := by decide
/-- V5.1 and R140: half-track 37 is still track 18, offset 0, its size cached. -/
theorem test_setHalfTrack_odd :
    after (.setHalfTrack 37#32) { disk [0xA0, 0xA1] with headOffset := 1, currentTrackSize := 0 } =
      { disk [0xA0, 0xA1] with currentHalfTrack := 37, response := .ok .noValue } := by decide
/-- V5.2: modulo the cached size; V5.3: an empty track reads 0xFF. -/
theorem test_readByteAt : answer (.readByteAt 4) (disk [0xA0, 0xA1, 0xA2]) = .ok (.u8 0xA1) ∧
    answer (.readByteAt 4294967295#32) (disk [0xA0, 0xA1, 0xA2]) = .ok (.u8 0xA0) ∧
    answer (.readByteAt 7) State.reset = .ok (.u8 0xFF) := by decide
/-- V5.2: a write wraps and sets `dirty`. -/
theorem test_writeByteAt : trackBytes (after (.writeByteAt 5 0x77) (disk [0xA0, 0xA1, 0xA2])) =
      [0xA0, 0xA1, 0x77] ∧
    (after (.writeByteAt 5 0x77) (disk [0xA0, 0xA1, 0xA2])).dirty = true := by decide
/-- V5.3: on an empty track nothing is stored, `dirty` is set. -/
theorem test_writeByteAt_empty : after (.writeByteAt 7 0x12) State.reset =
    { State.reset with dirty := true, response := .ok .noValue } := by decide
/-- V5.4: the slot is loaded, the cached size is not. -/
theorem test_tsLoadTrack_stale_cache :
    let s := after (.tsLoadTrack 18 3#16 [0xA0, 0xA1, 0xA2] [2, 2, 2]) State.reset
    trackSizeOf s 18 = 3 ∧ s.currentTrackSize = 0 ∧ memRead s.gcrData 134777 = 0xA1 ∧
      memRead s.speedZone 134778 = 2 ∧ s.dirty = false := by decide
/-- V8: the checks in their order: track, size, zone. -/
theorem test_tsLoadTrack_refused :
    answer (.tsLoadTrack 43 0#16 [] []) State.reset = .refused .badTrack ∧
    answer (.tsLoadTrack 18 1#16 [0xAA] [4]) State.reset = .refused .badZone ∧
    answer (.tsLoadTrack 18 0#16 [] []) State.reset = .ok .noValue := by decide
/-- R146: bytes, sizes and `dirty` cleared, the cached size kept. -/
theorem test_tsClear : after .tsClear { disk [0xA0, 0xA1] with dirty := true } =
    { disk [0xA0, 0xA1] with
      gcrData := [], trackSize := Vector.replicate 42 0, response := .ok .noValue } := by decide
theorem test_clearDirty : after .clearDirty { disk [0xA0] with dirty := true } =
    { disk [0xA0] with response := .ok .noValue } := by decide
theorem test_getDirty : answer .getDirty { disk [0xA0] with dirty := true } =
    .ok (.bool true) := by decide
set_option maxRecDepth 8000 in
/-- R149: the size, and the two slots whole. -/
theorem test_tsReadTrack_size :
    (match answer (.tsReadTrack 18) (disk [0xA0, 0xA1]) with
      | .ok (.track size data zones) => (size, data.take 3, zones.length)
      | _ => (0, [], 0)) = (2, [0xA0, 0xA1, 0x00], 7928) := by decide +kernel
theorem test_tsReadTrack_refused : answer (.tsReadTrack 0) (disk [0xA0]) =
    .refused .badTrack := rfl
/-- R161's example: 32 ticks in zone 0 at the end of a track. -/
theorem test_advance_wraps : after (.advance 32 false) { disk [0xB0, 0xB1] with headOffset := 1 } =
    { disk [0xB0, 0xB1] with
      headOffset := 0, gcrRead := 0xB0, byteReady := true, response := .ok .noValue } := by decide
/-- Trace T6: the byte begun in Write mode is the only one written after a flip to Read. -/
theorem test_advance_flip :
    after (.advance 52 false) { disk [0x11, 0x22, 0x33, 0x44] with
      lastMode := .write, finishByte := true, writeValue := 0xEE, headOffset := 1, bitsMoved := 3 } =
      { disk [0x11, 0xEE, 0x33, 0x44] with
        writeValue := 0xEE, headOffset := 3, gcrRead := 0x44, dirty := true, byteReady := true,
        response := .ok .noValue } := by decide +kernel
/-- Trace T7, calls 1 and 2: one sync byte is no sync mark, two are. -/
theorem test_syncFound :
    answer (.syncFound 0) { disk [0x55, 0xFF, 0xFF, 0x52] with headOffset := 1 } =
      .ok (.bool false) ∧
    answer (.syncFound 0) { disk [0x55, 0xFF, 0xFF, 0x52] with headOffset := 2 } =
      .ok (.bool true) := by decide
/-- V6.6: never in Write mode. -/
theorem test_syncFound_write :
    answer (.syncFound 0) { disk [0xFF, 0xFF] with readWriteMode := .write } =
      .ok (.bool false) := by decide
/-- R170: `rotation_last_clk` follows the clock and is lowered by REBASE_AMOUNT. -/
theorem test_clkRebase :
    (after (.clkRebase rebaseAmount) State.reset).rotationLastClk = lowerClk rebaseAmount := by
  simp [after, exec, execClkRebase, clocked, State.reset, lowerClocks, respond]
/-- V5.8: a header group that ends exactly at the track end (V2.9's group: sector 0, track 18). -/
theorem test_findSectorHeader_at_end :
    answer (.findSectorHeader 18 0) (disk [0x55, 0xFF, 0x52, 0x54, 0xB5, 0x29, 0x72]) =
      .ok (.offset (some 0)) := by decide
/-- V5.10: a track that is all sync. -/
theorem test_findSectorHeader_killer :
    answer (.findSectorHeader 18 0) (disk (List.replicate 20 0xFF)) = .ok (.offset none) := by
  decide
/-- R191: the first offset after the next sync run, across the track end. -/
theorem test_findSectorData : answer (.findSectorData 2) (disk [0xFF, 0x52, 0x55, 0xFF]) =
    .ok (.offset (some 1)) := by decide
/-- V6.1: one tick short of a byte, and on it. -/
theorem test_readDiskByte : answer (.readDiskByte 31) (disk [0xA0, 0xA1, 0xA2, 0xA3]) =
      .ok (.u8 0x00) ∧
    answer (.readDiskByte 32) (disk [0xA0, 0xA1, 0xA2, 0xA3]) = .ok (.u8 0xA1) := by decide
/-- R223: the byte committed on the way still has the old value. -/
theorem test_writeGcr :
    let s := after (.writeGcr 32 0xEE)
      { disk [0x11, 0x22] with readWriteMode := .write, lastMode := .write, writeValue := 0x99 }
    trackBytes s = [0x99, 0x22] ∧ s.writeValue = 0xEE ∧ s.rotationLastClk = 32 := by decide
/-- V6.5: a clock gone back is refused. -/
theorem test_byteReady : answer (.byteReady 32) (disk [0xA0, 0xA1]) = .ok (.bool true) ∧
    answer (.byteReady 99) { disk [0xA0, 0xA1] with rotationLastClk := 100 } =
      .refused .clockWentBack := by decide
theorem test_setByteReady : (after (.setByteReady false)
    { disk [0xA0] with byteReady := true }).byteReady = false := by decide
/-- V6.8: from 36 by -100. -/
theorem test_moveHead : (after (.moveHead (-100#32)) (disk [1])).currentHalfTrack = 2 ∧
    (after (.moveHead 1#32) (disk [1])).currentHalfTrack = 37 := by decide
/-- Trace T9: ticks up to the clock are counted at the old rate. -/
theorem test_updateZoneBits :
    let s := after (.updateZoneBits 10 0xFE) (disk [1, 2, 3, 4])
    s.zone = 2 ∧ s.bitsMoved = 2 ∧ s.accum = 32768 := by decide
/-- V6.4: ticks with the motor off are dropped. -/
theorem test_motorControl : after (.motorControl 1000 true) { disk [1, 2] with motorOn := false } =
    { disk [1, 2] with rotationLastClk := 1000, response := .ok .noValue } := by decide
/-- R229: 0x02 is Write and enabled, and the flip raises `finish_byte`. -/
theorem test_updatePcr : after (.updatePcr 0 0x02) (disk [1, 2]) =
    { disk [1, 2] with
      readWriteMode := .write, finishByte := true, response := .ok .noValue } := by decide
theorem test_noteAttach : after (.noteAttach 5000) (disk [1]) =
    { disk [1] with attachClk := 5000, attachValid := true, response := .ok .noValue } := by decide
theorem test_noteDetach : after (.noteDetach 5000) (disk [1]) =
    { disk [1] with detachClk := 5000, detachValid := true, response := .ok .noValue } := by decide
/-- R271: half-track 36, the size of track 18 cached. -/
theorem test_reset : after .reset { disk [1, 2] with currentHalfTrack := 2, currentTrackSize := 0 } =
    { disk [1, 2] with response := .ok .noValue } := by decide

/-- 95_test_vectors section 3, row 26 and row 4095. -/
theorem test_rotation_table :
    ([0, 1, 2, 3].map fun z => (tBits (BitVec.ofNat 2 z) 26, tFrac (BitVec.ofNat 2 z) 26)) =
      [(6, 32768), (6, 61167), (7, 28086), (7, 65535)] ∧
    ([0, 1, 2, 3].map fun z => (tBits (BitVec.ofNat 2 z) 4095, tFrac (BitVec.ofNat 2 z) 4095)) =
      [(1023, 49152), (1092, 89), (1169, 65459), (1259, 65453)] := by decide
/-- Traces T3 and T4: chunks and carries. -/
theorem test_integrate : integrate 1 10000 0 = (2666, 43908) ∧
    integrate 2 100000 0 = (28571, 26206) := by decide +kernel
/-- 30_encoding R107's example. -/
theorem test_trace_line : showInstr (.writeGcr 1200#32 0x55) = "WRITE_GCR @1200, 0x55" := by
  decide +kernel
/-- R104: `None` as 0xFFFFFFFF, an offset little-endian. -/
theorem test_result_bytes : resultBytes (.offset none) = [0xFF, 0xFF, 0xFF, 0xFF] ∧
    resultBytes (.offset (some 370)) = [0x72, 0x01, 0x00, 0x00] := by decide

/-! ## Values that meet the statements' hypotheses -/

theorem witness_StepRunsDecodedRequest :
    ({ State.reset with requests := [[0x26], [0x5F]] }).requests = [0x26] :: [[0x5F]] ∧
      decode [0x26] = .ok .getDirty := ⟨rfl, rfl⟩
theorem witness_MalformedRequestRefused :
    (({ State.reset with requests := [[0x5F, 0x00]] }).requests = [0x5F, 0x00] :: [] ∧
      decode [0x5F, 0x00] = .error (.wrongLength 0x5F)) ∧ State.reset.requests = [] :=
  ⟨⟨rfl, rfl⟩, rfl⟩
theorem witness_DecodeEncodeAgree :
    WellFormed (.tsLoadTrack 18 2#16 [0xA0, 0xA1] [0x02, 0x03]) ∧ WellFormed .reset := by decide
theorem witness_DecodedRequestsAreWellFormed : decode [0x26] = .ok .getDirty := rfl
theorem witness_AcceptedExactlyAtFormatLength :
    (0x10#8 : Byte) ∈ [0x10#8, 0x11#8, 0x12#8, 0x13#8, 0x20#8, 0x21#8, 0x22#8, 0x23#8, 0x24#8,
      0x25#8, 0x26#8, 0x27#8, 0x30#8, 0x31#8, 0x32#8, 0x40#8, 0x41#8, 0x50#8, 0x51#8, 0x52#8,
      0x53#8, 0x54#8, 0x55#8, 0x56#8, 0x57#8, 0x58#8, 0x59#8, 0x5F#8] ∧
    (0x5E#8 : Byte) ∉ [0x10#8, 0x11#8, 0x12#8, 0x13#8, 0x20#8, 0x21#8, 0x22#8, 0x23#8, 0x24#8,
      0x25#8, 0x26#8, 0x27#8, 0x30#8, 0x31#8, 0x32#8, 0x40#8, 0x41#8, 0x50#8, 0x51#8, 0x52#8,
      0x53#8, 0x54#8, 0x55#8, 0x56#8, 0x57#8, 0x58#8, 0x59#8, 0x5F#8] := by decide
theorem witness_CodecHasNoErrorOutcome :
    (∃ raw, Instr.gcrEnc4 ⟨1, 2, 3, 4⟩ = .gcrEnc4 raw) ∧
    (∃ gcr, Instr.gcrDec5 ⟨0, 0, 0, 0, 0⟩ = .gcrDec5 gcr) ∧
    (∃ offset, Instr.decodeSector 0 = .decodeSector offset) ∧
    (∃ track sector id1 id2 payload,
      Instr.encodeSector 0 0xFF 0 0 zeros = .encodeSector track sector id1 id2 payload) :=
  ⟨⟨_, rfl⟩, ⟨_, rfl⟩, ⟨_, rfl⟩, ⟨_, _, _, _, _, rfl⟩⟩
/-- 0x1F is no nibble's code. -/
theorem witness_GcrDec5ByFields : ∀ n : Nibble, gcrEnc n ≠ 0x1F := by decide
theorem witness_EncodeSectorLayout : zeros.length = 256 := List.length_replicate
/-- Bytes laid from offset 20 on, past the end of a track of 5 bytes more. -/
theorem disk_holdsAt_wrap {bs gap : List Byte} (h : bs.length = 325) (hg : gap.length = 5) :
    holdsAt (disk (bs.drop 310 ++ (gap ++ bs.take 310))) 20 bs := by
  intro k hk
  have hl : (bs.drop 310 ++ (gap ++ bs.take 310)).length = 330 := by simp [h, hg]
  rw [disk_trkRead (by omega), hl]
  by_cases hk' : k < 310
  · rw [Nat.mod_eq_of_lt (by omega)]
    simp only [List.getD, List.getElem?_append, List.length_drop, h, hg,
      if_neg (show ¬ 20 + k < 325 - 310 by omega),
      if_neg (show ¬ 20 + k - (325 - 310) < 5 by omega),
      show 20 + k - (325 - 310) - 5 = k by omega, List.getElem?_take, if_pos hk']
  · rw [show (20 + k) % 330 = k - 310 by omega]
    simp only [List.getD, List.getElem?_append, List.length_drop, h,
      if_pos (show k - 310 < 325 - 310 by omega), List.getElem?_drop,
      show 310 + (k - 310) = k by omega]
/-- A data block that begins at offset 20 of a track of 330 bytes and runs over its end. -/
theorem witness_SectorRoundTripAcrossWrap : zeros.length = 256 ∧
    holdsAt (disk ((encBytes (dataRaw zeros)).drop 310 ++ (List.replicate 5 0x55 ++
      (encBytes (dataRaw zeros)).take 310))) (20#32).toNat (encBytes (dataRaw zeros)) :=
  ⟨List.length_replicate, disk_holdsAt_wrap (by decide +kernel) List.length_replicate⟩
/-- Bytes laid after others, at the track end. -/
theorem disk_holdsAt_tail (pre bs : List Byte) : holdsAt (disk (pre ++ bs)) pre.length bs := by
  intro k hk
  have hl : (pre ++ bs).length = pre.length + bs.length := List.length_append
  rw [disk_trkRead (by omega), hl, Nat.mod_eq_of_lt (by omega)]
  simp only [List.getD, List.getElem?_append_right (Nat.le_add_right ..), Nat.add_sub_cancel_left]
/-- A data block's first group after a sync byte (a candidate that does not match, V5.7), then a
sector. -/
def twoBlocks : List Byte := [0xFF, 0x55, 0xD4, 0xA5, 0x29, 0x4A] ++ sectorImage 18 0 0x41 0x30 zeros
theorem witness_ReadSectorReturnsStoredSector :
    let s := disk twoBlocks
    let a := fun i => 6 * i
    let q := fun i => 10 * i + 1
    zeros.length = 256 ∧ 360 ≤ s.currentTrackSize ∧ s.currentTrackSize ≤ 7928 ∧
    holdsAt s 6 (sectorImage 18 0 0x41 0x30 zeros) ∧ candidates s a q (1 + 1) ∧
    syncSkipped a q (1 + 1) < s.currentTrackSize ∧ (∀ i < 1, ¬ headerAt s 18 0 (q i)) ∧
    q 1 % s.currentTrackSize = (6 + 5) % s.currentTrackSize := by
  have hl : twoBlocks.length = 366 := by decide +kernel
  intro s a q
  have hs : s.currentTrackSize = 366 := hl
  have hr : ∀ o < 366, trkRead s o = twoBlocks.getD o 0 := fun o ho => by
    rw [disk_trkRead (by omega), hl, Nat.mod_eq_of_lt ho]
  have hread : ∀ o < 12, trkRead s o = 0xFF ↔ o = 0 ∨ 6 ≤ o ∧ o < 11 := by
    have hb : ∀ o < 12, twoBlocks.getD o 0 = 0xFF ↔ o = 0 ∨ 6 ≤ o ∧ o < 11 := by decide +kernel
    exact fun o ho => by rw [hr o (by omega), hb o ho]
  have run : ∀ i p, p ≤ 6 * i → 6 * i ≤ 6 → (∀ o, p ≤ o → o < 6 * i → o ≠ 0 ∧ o < 6) →
      (∀ o, 6 * i ≤ o → o < 10 * i + 1 → o = 0 ∨ 6 ≤ o ∧ o < 11) → searchStart q i = p →
      searchStart q i ≤ a i ∧ a i < s.currentTrackSize ∧ a i < q i ∧
      (∀ o, searchStart q i ≤ o → o < a i → trkRead s o ≠ 0xFF) ∧
      (∀ o, a i ≤ o → o < q i → trkRead s o = 0xFF) ∧ trkRead s (q i) ≠ 0xFF := by
    intro i p h1 h2 h3 h4 e
    rw [e, hs]
    refine ⟨h1, show 6 * i < 366 by omega, show 6 * i < 10 * i + 1 by omega, fun o ho1 ho2 => ?_,
      fun o ho1 ho2 => ?_, ?_⟩
    · have := h3 o ho1 ho2
      rw [Ne, hread o (by omega)]; omega
    · have := h4 o ho1 ho2
      rw [hread o (by omega)]; omega
    · show ¬ trkRead s (10 * i + 1) = 0xFF
      rw [hread _ (by omega)]; omega
  refine ⟨List.length_replicate, by omega, by omega, disk_holdsAt_tail _ _, fun i hi => ?_,
    by rw [hs]; decide, fun i hi h => ?_, by rw [hs]⟩
  · obtain rfl | rfl : i = 0 ∨ i = 1 := by omega
    · exact run 0 0 (by omega) (by omega) (fun o _ _ => by omega) (fun o _ _ => by omega) rfl
    · exact run 1 6 (by omega) (by omega) (fun o _ _ => by omega) (fun o _ _ => by omega) rfl
  · obtain rfl : i = 0 := by omega
    have h0 : (dec5 ⟨trkRead s 1, trkRead s 2, trkRead s 3, trkRead s 4, trkRead s 5⟩).r0 = 0x08 :=
      h.1
    rw [hr 1 (by omega), hr 2 (by omega), hr 3 (by omega), hr 4 (by omega), hr 5 (by omega)] at h0
    revert h0
    decide +kernel
/-- A data block's first group does not match, the header group after the second sync run straddles the
track end (V5.7). -/
theorem witness_HeaderFoundAcrossTrackEnd :
    let s := disk [0x29, 0x72, 0xFF, 0x55, 0xD4, 0xA5, 0x29, 0x4A, 0xFF, 0xFF, 0x52, 0x54, 0xB5]
    let a := fun i => 6 * i + 2
    let q := fun i => 7 * i + 3
    candidates s a q (1 + 1) ∧ syncSkipped a q (1 + 1) < s.currentTrackSize ∧
    (∀ i < 1, ¬ headerAt s 18 0 (q i)) ∧ headerAt s 18 0 (q 1) := by decide +kernel
/-- The sync run itself straddles the track end (V5.8 row 3): the search meets its last byte first. -/
theorem witness_HeaderFoundAcrossTrackEnd_run :
    let s := disk [0xFF, 0x52, 0x54, 0xB5, 0x29, 0x72, 0x55, 0xFF]
    let a := fun i => i
    let q := fun i => i + 1
    candidates s a q (0 + 1) ∧ syncSkipped a q (0 + 1) < s.currentTrackSize ∧
    (∀ i < 0, ¬ headerAt s 18 0 (q i)) ∧ headerAt s 18 0 (q 0) := by decide +kernel
/-- The three ends of the search: no sync byte after a candidate that does not match, a candidate whose
group reaches the track end, sync bytes as many as the track's bytes. -/
theorem witness_HeaderNotFoundOnKillerTracks :
    (let s := disk [0xFF, 0x55, 0xD4, 0xA5, 0x29, 0x4A, 0x55]
    candidates s id (· + 1) 1 ∧ syncSkipped id (· + 1) 1 < s.currentTrackSize ∧
    (∀ i < 1, ¬ headerAt s 18 0 (i + 1)) ∧
    (∀ o, searchStart (· + 1) 1 ≤ o → o < s.currentTrackSize → trkRead s o ≠ 0xFF)) ∧
    (let s := disk [0xFF, 0x55, 0xD4, 0xA5, 0x29]
    candidates s id (· + 1) 1 ∧ syncSkipped id (· + 1) 1 < s.currentTrackSize ∧
    (∀ i < 1, ¬ headerAt s 18 0 (i + 1)) ∧ s.currentTrackSize ≤ searchStart (· + 1) 1) ∧
    (let s := disk [0xFF, 0xFF]
    candidates s id (· + 1) 0 ∧ searchStart (· + 1) 0 ≤ 0 ∧ 0 < s.currentTrackSize ∧
    (∀ o, searchStart (· + 1) 0 ≤ o → o < 0 → trkRead s o ≠ 0xFF) ∧
    (∀ o, 0 ≤ o → o < 0 + (s.currentTrackSize - syncSkipped id (· + 1) 0) →
      trkRead s o = 0xFF)) := by
  refine ⟨?_, ?_, ?_⟩ <;> decide +kernel
/-- What the head reads on a track of 499 bytes, a sync byte and a byte 0x52. -/
theorem disk_gap {gap : List Byte} (h : gap.length = 499) (o : Nat) :
    trkRead (disk (gap ++ [0xFF, 0x52])) o =
      if o % 501 < 499 then gap.getD (o % 501) 0
      else ([0xFF, 0x52] : List Byte).getD (o % 501 - 499) 0 := by
  have hl : (gap ++ [0xFF, 0x52]).length = 501 := by rw [List.length_append, h]; rfl
  rw [disk_trkRead (by omega), hl]
  simp only [List.getD, List.getElem?_append, h]
  split <;> rfl
/-- The longest gap the guard allows, 499 bytes, and a sync run of one byte. -/
theorem witness_FindDataReturnsEndOfSyncRun :
    let s := disk (List.replicate 499 0x55 ++ [0xFF, 0x52])
    0 < s.currentTrackSize ∧ 499 < 500 ∧ 0 < 1 ∧
    (∀ k < 499, trkRead s ((0#32).toNat + k) ≠ 0xFF) ∧
    (∀ k < 1, trkRead s ((0#32).toNat + 499 + k) = 0xFF) ∧
    trkRead s ((0#32).toNat + 499 + 1) ≠ 0xFF := by
  have hr := disk_gap (gap := List.replicate 499 0x55) List.length_replicate
  intro s
  refine ⟨?_, by omega, by omega, fun k hk => ?_, fun k hk => ?_, ?_⟩
  · show 0 < (List.replicate 499 0x55 ++ [0xFF, 0x52] : List Byte).length
    rw [List.length_append]
    exact Nat.lt_of_lt_of_le (by decide) (Nat.le_add_left _ _)
  · rw [hr, BitVec.toNat_ofNat, Nat.zero_mod, Nat.zero_add, Nat.mod_eq_of_lt (by omega), if_pos hk,
      List.getD_replicate _ hk]
    decide
  · obtain rfl : k = 0 := by omega
    rw [hr, if_neg (by decide), show ((0#32).toNat + 499 + 0) % 501 - 499 = 0 by decide]
    decide
  · rw [hr, if_neg (by decide), show ((0#32).toNat + 499 + 1) % 501 - 499 = 1 by decide]
    decide
theorem witness_FindDataGuards :
    State.reset.currentTrackSize = 0 ∧
    (∀ k < 500, trkRead (disk [0x55]) ((0#32).toNat + k) ≠ 0xFF) ∧
    (∀ k < (disk [0xFF]).currentTrackSize, trkRead (disk [0xFF]) k = 0xFF) := by
  refine ⟨rfl, fun k _ => ?_, by decide⟩
  rw [disk_trkRead (by decide), List.length_singleton, Nat.mod_one]
  decide
theorem witness_OffsetSteppingIsCircular :
    0 < (disk [1, 2, 3]).currentTrackSize ∧ 2 < (disk [1, 2, 3]).currentTrackSize ∧
      State.reset.currentTrackSize = 0 := by decide
theorem witness_ReadByteAtReadsWindow :
    State.reset.currentTrackSize = 0 ∧ 0 < (disk [1]).currentTrackSize := by decide
theorem witness_WriteByteAtFrame :
    Memory.wf (disk [1, 0, 3]).gcrData = true ∧ 0 < (disk [1, 0, 3]).currentTrackSize ∧
    1 ≠ curBase (disk [1, 0, 3]) + (5#32).toNat % (disk [1, 0, 3]).currentTrackSize ∧
    Memory.wf State.reset.gcrData = true ∧ State.reset.currentTrackSize = 0 := by decide
theorem witness_LoadTrackFillsSlot :
    [0xAA#8].length = (1#16).toNat ∧ [0x03#8].length = (1#16).toNat ∧ 1 ≤ (42#8).toNat ∧
    (42#8).toNat ≤ 42 ∧ (1#16).toNat ≤ 7928 ∧ (∀ z ∈ [0x03#8], z.toNat ≤ 3) := by decide
theorem witness_TrackRequestsTurnedAway :
    ((0#8).toNat = 0 ∨ 42 < (0#8).toNat) ∧ ((43#8).toNat = 0 ∨ 42 < (43#8).toNat) ∧
    (1 ≤ (42#8).toNat ∧ (42#8).toNat ≤ 42 ∧ 7928 < (7929#16).toNat) ∧
    ([0x04#8].length = (1#16).toNat ∧ 1 ≤ (1#8).toNat ∧ (1#8).toNat ≤ 42 ∧
      (1#16).toNat ≤ 7928 ∧ ∃ z ∈ [0x04#8], 3 < z.toNat) := by decide
theorem witness_LoadedTrackReadsBackAfterCacheRefresh : ∃ u v : State,
    [0xAA#8].length = (1#16).toNat ∧ [0x03#8].length = (1#16).toNat ∧ 1 ≤ (18#8).toNat ∧
    (18#8).toNat ≤ 42 ∧ (1#16).toNat ≤ 7928 ∧
    (∀ z ∈ [0x03#8], z.toNat ≤ 3) ∧ (36#32).toNat = 2 * (18#8).toNat ∧
    exec (.tsLoadTrack 18#8 1#16 [0xAA#8] [0x03#8]) (disk [1, 2, 3]) = .next u ∧
    exec (.setHalfTrack 36#32) u = .next v ∧ 0 < (1#16).toNat ∧
    0 < (disk [1, 2, 3]).currentTrackSize ∧ (disk [1, 2, 3]).currentTrackSize ≤ 7928 ∧
    (disk [1, 2, 3]).currentHalfTrack / 2 = (18#8).toNat :=
  ⟨_, _, by decide, by decide, by decide, by decide, by decide, by decide, by decide, rfl, rfl,
    by decide, by decide, by decide, by decide⟩
/-- Its other clauses: a track emptied that is not under the head, and a head on an empty track. -/
theorem witness_LoadedTrackReadsBackAfterCacheRefresh_other : ∃ u v : State,
    exec (.tsLoadTrack 19#8 0#16 [] []) (disk [1, 2, 3]) = .next u ∧
    exec (.setHalfTrack 38#32) u = .next v ∧ (38#32).toNat = 2 * (19#8).toNat ∧
    (disk [1, 2, 3]).headInRange ∧ (disk [1, 2, 3]).currentTrackSize ≤ 7928 ∧
    (disk [1, 2, 3]).currentHalfTrack / 2 ≠ (19#8).toNat ∧ (0#16).toNat = 0 ∧
    State.reset.currentTrackSize = 0 :=
  ⟨_, _, rfl, rfl, by decide, by decide, by decide, by decide, by decide, rfl⟩
/-- V5.4 turned: on a track of three bytes the new byte stands at offset 0 and 0x00 beyond it. -/
theorem test_stale_cache_reads_new_bytes :
    let s := after (.tsLoadTrack 18 1#16 [0xAA] [3]) (disk [1, 2, 3])
    answer (.readByteAt 3) s = .ok (.u8 0xAA) ∧ answer (.readByteAt 1) s = .ok (.u8 0x00) := by decide
theorem witness_ReadTrackReturnsSlot :
    1 ≤ (1#8).toNat ∧ (1#8).toNat ≤ 42 ∧ 1 ≤ (42#8).toNat ∧ (42#8).toNat ≤ 42 := by decide
theorem witness_IntegrateConservesBits : 0 < accumMax ∧ 65535 < accumMax := by decide
theorem witness_CommitTransfersOneByte :
    Memory.wf (disk [1, 0, 3]).gcrData = true ∧ 0 < (disk [1, 0, 3]).currentTrackSize ∧
    (disk [1, 0, 3]).headOffset < (disk [1, 0, 3]).currentTrackSize ∧
    Memory.wf State.reset.gcrData = true ∧ State.reset.currentTrackSize = 0 := by decide
theorem witness_AdvanceSignalAndIdle :
    State.reset.motorOn = false ∧
      ({ disk [1] with byteReadyEnable := false }).byteReadyEnable = false := by decide
theorem witness_AdvanceBelowOneByte :
    (disk [1, 2]).motorOn = true ∧ (disk [1, 2]).byteReadyEnable = true ∧
    (disk [1, 2]).bitsMoved +
      (integrate (disk [1, 2]).zone (31#32).toNat (disk [1, 2]).accum).1 < 8 ∧
    (disk [1, 2]).bitsMoved ≤ 7 := by decide
/-- No flip pending, then a flip there and back within the byte on an empty track. -/
theorem witness_AdvanceInReadMode :
    (let s := disk [1, 2]
    s.motorOn = true ∧ s.byteReadyEnable = true ∧ s.readWriteMode = .read ∧
    (s.finishByte = false ∨ s.lastMode = .read) ∧
    16 = s.bitsMoved + (integrate s.zone (64#32).toNat s.accum).1 ∧ 2 = 16 / 8 ∧ 0 < 2) ∧
    (let s := { disk [] with finishByte := true }
    s.motorOn = true ∧ s.byteReadyEnable = true ∧ s.readWriteMode = .read ∧
    (s.finishByte = false ∨ s.lastMode = .read) ∧ s.currentTrackSize = 0 ∧
    8 = s.bitsMoved + (integrate s.zone (32#32).toNat s.accum).1 ∧ 1 = 8 / 8 ∧ 0 < 1) := by
  decide
/-- No flip pending, then a flip there and back within the byte on an empty track. -/
theorem witness_AdvanceInWriteMode :
    (let s := { disk [1, 2] with readWriteMode := .write, lastMode := .write }
    s.motorOn = true ∧ s.byteReadyEnable = true ∧ s.readWriteMode = .write ∧
    (s.finishByte = false ∨ s.lastMode = .write) ∧ Memory.wf s.gcrData = true ∧
    16 = s.bitsMoved + (integrate s.zone (64#32).toNat s.accum).1 ∧ 2 = 16 / 8 ∧ 0 < 2 ∧
    0 < s.currentTrackSize ∧
    (∀ j < 2, 0 ≠ curBase s + (s.headOffset + j) % s.currentTrackSize)) ∧
    (let s := { disk [] with readWriteMode := .write, lastMode := .write, finishByte := true }
    s.motorOn = true ∧ s.byteReadyEnable = true ∧ s.readWriteMode = .write ∧
    (s.finishByte = false ∨ s.lastMode = .write) ∧ Memory.wf s.gcrData = true ∧
    8 = s.bitsMoved + (integrate s.zone (32#32).toNat s.accum).1 ∧ 1 = 8 / 8 ∧ 0 < 1 ∧
    s.currentTrackSize = 0) := by decide
/-- One byte passed on a track of two, then two bytes on an empty track. -/
theorem witness_FlipWriteToReadStoresOneByte :
    (let s := { disk [1, 2] with lastMode := .write, finishByte := true }
    s.motorOn = true ∧ s.byteReadyEnable = true ∧ s.readWriteMode = .read ∧
    s.finishByte = true ∧ s.lastMode = .write ∧ Memory.wf s.gcrData = true ∧
    8 = s.bitsMoved + (integrate s.zone (32#32).toNat s.accum).1 ∧ 1 = 8 / 8 ∧ 0 < 1 ∧
    0 < s.currentTrackSize ∧ 0 ≠ curBase s + s.headOffset % s.currentTrackSize) ∧
    (let s := { disk [] with lastMode := .write, finishByte := true }
    s.motorOn = true ∧ s.byteReadyEnable = true ∧ s.readWriteMode = .read ∧
    s.finishByte = true ∧ s.lastMode = .write ∧ Memory.wf s.gcrData = true ∧
    16 = s.bitsMoved + (integrate s.zone (64#32).toNat s.accum).1 ∧ 2 = 16 / 8 ∧ 0 < 2 ∧
    s.currentTrackSize = 0) := by decide
/-- Two bytes passed on a track of two, then one byte on an empty track. -/
theorem witness_FlipReadToWriteReadsOneByte :
    (let s := { disk [1, 2] with readWriteMode := .write, finishByte := true }
    s.motorOn = true ∧ s.byteReadyEnable = true ∧ s.readWriteMode = .write ∧
    s.finishByte = true ∧ s.lastMode = .read ∧ Memory.wf s.gcrData = true ∧
    16 = s.bitsMoved + (integrate s.zone (64#32).toNat s.accum).1 ∧ 2 = 16 / 8 ∧ 0 < 2 ∧
    0 < s.currentTrackSize ∧ (1 ≤ 1 ∧ 1 < 2) ∧
    (∀ j < 2, 1 ≤ j → 0 ≠ curBase s + (s.headOffset + j) % s.currentTrackSize)) ∧
    (let s := { disk [] with readWriteMode := .write, finishByte := true }
    s.motorOn = true ∧ s.byteReadyEnable = true ∧ s.readWriteMode = .write ∧
    s.finishByte = true ∧ s.lastMode = .read ∧ Memory.wf s.gcrData = true ∧
    8 = s.bitsMoved + (integrate s.zone (32#32).toNat s.accum).1 ∧ 1 = 8 / 8 ∧ 0 < 1 ∧
    s.currentTrackSize = 0) := by decide
theorem witness_ClockedReadsAdvanceFirst :
    (disk [1]).rotationLastClk.toNat ≤ (0#32).toNat ∧ (disk [1]).attachValid = false := by decide
theorem witness_ClockedWritesAdvanceFirst :
    (disk [1]).rotationLastClk.toNat ≤ (0xFFFFFFFF#32).toNat := by decide
theorem witness_UpdatePcrRaisesFinishByteOnFlip :
    ({ disk [1] with rotationLastClk := 100 }).rotationLastClk.toNat ≤ (100#32).toNat := by decide
/-- Inside the window whatever its length: the clock is below the recorded attach itself. -/
theorem witness_ReadDiskByteSettlingWindow :
    (({ disk [1] with attachClk := 1, attachValid := true }).attachValid = true ∧
      (0#32).toNat < ({ disk [1] with attachClk := 1, attachValid := true }).attachClk.toNat +
        attachSettleClks) ∧
    (¬ (({ disk [1] with rotationLastClk := 100 }).attachValid = true ∧
        (99#32).toNat < ({ disk [1] with rotationLastClk := 100 }).attachClk.toNat +
          attachSettleClks) ∧
      (99#32).toNat < ({ disk [1] with rotationLastClk := 100 }).rotationLastClk.toNat) ∧
    (¬ ((disk [1]).attachValid = true ∧
        (0#32).toNat < (disk [1]).attachClk.toNat + attachSettleClks) ∧
      (disk [1]).rotationLastClk.toNat ≤ (0#32).toNat) :=
  ⟨⟨rfl, Nat.lt_add_right _ (by decide)⟩, ⟨fun h => Bool.noConfusion h.1, by decide⟩,
    fun h => Bool.noConfusion h.1, by decide⟩
theorem witness_RebaseLowersClocksAfterLastAdvance :
    (disk [1]).rotationLastClk.toNat ≤ rebaseAmount.toNat ∧
      rebaseAmount.toNat ≤ rebaseAmount.toNat := ⟨Nat.zero_le _, Nat.le_refl _⟩
theorem witness_SameClockRepeatsAreIdempotent : ∃ t1 t2 t3 t4 : State,
    exec (.readDiskByte 32) (disk [1, 2]) = .next t1 ∧
    exec (.byteReady 32) (disk [1, 2]) = .next t2 ∧
    exec (.syncFound 32) (disk [1, 2]) = .next t3 ∧
    exec (.writeGcr 32 0xEE) (disk [1, 2]) = .next t4 := ⟨_, _, _, _, rfl, rfl, rfl, rfl⟩
theorem witness_DirtyClearedOnlyByHost : ∃ t : State,
    exec (.writeByteAt 0 1) { disk [1] with dirty := true } = .next t ∧
    ({ disk [1] with dirty := true }).dirty = true ∧ Instr.writeByteAt 0 1 ≠ .clearDirty ∧
    Instr.writeByteAt 0 1 ≠ .tsClear := ⟨_, rfl, rfl, by decide, by decide⟩
theorem witness_ByteReadyClearedOnlyBySetByteReady : ∃ t : State,
    exec (.setByteReady true) { disk [1] with byteReady := true } = .next t ∧
    ({ disk [1] with byteReady := true }).byteReady = true ∧
    Instr.setByteReady true ≠ .setByteReady false := ⟨_, rfl, rfl, by decide⟩
/-- CLEAR_DIRTY meets the hypothesis of every clause at once. -/
theorem witness_EachControlFieldHasItsWriters : ∃ t : State,
    exec .clearDirty (disk [1]) = .next t ∧
    (∀ k size data zones, Instr.clearDirty ≠ .tsLoadTrack k size data zones) ∧
    Instr.clearDirty ≠ .tsClear ∧ (∀ n, Instr.clearDirty ≠ .setHalfTrack n) ∧
    (∀ n, Instr.clearDirty ≠ .moveHead n) ∧ Instr.clearDirty ≠ .reset ∧
    (∀ clk v, Instr.clearDirty ≠ .updateZoneBits clk v) ∧
    (∀ clk flag, Instr.clearDirty ≠ .motorControl clk flag) ∧
    (∀ clk v, Instr.clearDirty ≠ .updatePcr clk v) ∧
    (∀ clk value, Instr.clearDirty ≠ .writeGcr clk value) ∧
    (∀ clk, Instr.clearDirty ≠ .noteAttach clk) ∧ (∀ clk, Instr.clearDirty ≠ .noteDetach clk) ∧
    (∀ clk, Instr.clearDirty ≠ .clkRebase clk) := by
  refine ⟨_, rfl, ?_⟩
  simp
theorem witness_OnlyClockedOperationsTurnTheDisk : ∃ t u : State,
    exec (.moveHead 1) (disk [1]) = .next t ∧ clockOf (.moveHead 1) (disk [1]) = none ∧
    (∀ delta changed, Instr.moveHead 1 ≠ .advance delta changed) ∧
    exec (.byteReady 32) (disk [1]) = .next u ∧
    (∀ clk, Instr.byteReady 32 ≠ .clkRebase clk) := ⟨_, _, rfl, rfl, by simp, rfl, by simp⟩
/-- The byte below the window and the byte just above it. -/
theorem witness_StoresStayInCurrentTrackWindow : ∃ t : State,
    exec (.writeByteAt 0 1) (disk [1, 2]) = .next t ∧
    (∀ k size data zones, Instr.writeByteAt 0 1 ≠ .tsLoadTrack k size data zones) ∧
    Instr.writeByteAt 0 1 ≠ .tsClear ∧ 134775 < curBase (disk [1, 2]) ∧
    curBase (disk [1, 2]) + (disk [1, 2]).currentTrackSize ≤ 134778 := by
  refine ⟨_, rfl, by simp, by simp, by decide, by decide⟩
theorem witness_PureReadsChangeNothing : ∃ t1 t2 t3 t4 t5 t6 t7 t8 t9 : State,
    exec (.gcrEnc4 ⟨0, 0, 0, 0⟩) (disk [1]) = .next t1 ∧
    exec (.gcrDec5 ⟨0, 0, 0, 0, 0⟩) (disk [1]) = .next t2 ∧
    exec (.encodeSector 0 0 0 0 zeros) (disk [1]) = .next t3 ∧
    exec (.decodeSector 0) (disk [1]) = .next t4 ∧ exec (.readByteAt 0) (disk [1]) = .next t5 ∧
    exec .getDirty (disk [1]) = .next t6 ∧ exec (.tsReadTrack 0) (disk [1]) = .next t7 ∧
    exec (.findSectorHeader 0 0) (disk [1]) = .next t8 ∧
    exec (.findSectorData 0) (disk [1]) = .next t9 :=
  ⟨_, _, _, _, _, _, _, _, _, rfl, rfl, rfl, rfl, rfl, rfl, rfl, rfl, rfl⟩
/-- The three ends of READ_SECTOR: no header, no data (500 bytes 0x00 after the header group), both
found. -/
theorem witness_PseudoOperationsExpand :
    findHeader State.reset 18 0 = none ∧
    (let s := { disk [0xFF, 0x52, 0x54, 0xB5, 0x29, 0x72] with currentTrackSize := 506 }
    findHeader s 18 0 = some 6 ∧ findData s (BitVec.ofNat 32 6).toNat = none) ∧
    (let s := disk [0xFF, 0x52, 0x54, 0xB5, 0x29, 0x72]
    findHeader s 18 0 = some 0 ∧ findData s (BitVec.ofNat 32 0).toNat = some 1) := by
  decide +kernel
/-- A state that is not the power-on one: a byte under way in Write mode, a request pending. -/
theorem witness_StepKeepsInvariants :
    let s := { disk [1, 2] with
      readWriteMode := .write, lastMode := .write, bitsMoved := 7, accum := 65535,
      requests := [[0x5F]] }
    s.Inv ∧ ∃ t : State, step s = .next t := by
  refine ⟨by decide, _, rfl⟩

end Sys2Proof.Tests
end

section
/-! The current track as a ring (20_memory R66): each step is by one place inside the track and wraps
at its end, so the two steps undo each other. -/

namespace Sys2Proof.Machine

open Sys2Proof

/-! ## Offset stepping inside the track and at its ends -/

theorem nextOff_of_succ_lt {s : State} {o : Nat} (h : o + 1 < s.currentTrackSize) :
    nextOff s o = o + 1 := by
  rw [nextOff_of_pos (by omega), Nat.mod_eq_of_lt h]

theorem nextOff_last {s : State} (h : 0 < s.currentTrackSize) :
    nextOff s (s.currentTrackSize - 1) = 0 := by
  rw [nextOff_of_pos h, Nat.sub_add_cancel h, Nat.mod_self]

theorem prevOff_succ {s : State} {o : Nat} (h : o < s.currentTrackSize) :
    prevOff s (o + 1) = o := by
  rw [prevOff_of_pos (by omega), Nat.add_right_comm, Nat.add_sub_cancel, Nat.add_mod_right,
    Nat.mod_eq_of_lt h]

theorem prevOff_zero {s : State} (h : 0 < s.currentTrackSize) :
    prevOff s 0 = s.currentTrackSize - 1 := by
  rw [prevOff_of_pos h, Nat.zero_add, Nat.mod_eq_of_lt (by omega)]

/-! ## The two steps undo each other -/

theorem prevOff_nextOff {s : State} {o : Nat} (h : o < s.currentTrackSize) :
    prevOff s (nextOff s o) = o := by
  have hpos : 0 < s.currentTrackSize := by omega
  by_cases hlast : o + 1 < s.currentTrackSize
  · rw [nextOff_of_succ_lt hlast, prevOff_succ h]
  · obtain rfl : o = s.currentTrackSize - 1 := by omega
    rw [nextOff_last hpos, prevOff_zero hpos]

theorem nextOff_prevOff {s : State} {o : Nat} (h : o < s.currentTrackSize) :
    nextOff s (prevOff s o) = o := by
  cases o with
  | zero => rw [prevOff_zero h, nextOff_last h]
  | succ o => rw [prevOff_succ (by omega), nextOff_of_succ_lt h]

/-- Settles O23: the two steps by their equations, the wraps at the ends of the track, and that each
step undoes the other. -/
theorem offsetSteppingIsCircular : Obligations.OffsetSteppingIsCircular := fun _ =>
  ⟨fun o h => nextOff_of_pos h o,
    fun o h => prevOff_of_pos h o,
    fun o h => ⟨nextOff_of_empty h o, prevOff_of_empty h o⟩,
    fun h => ⟨nextOff_last h, prevOff_zero h⟩,
    fun _ h => ⟨prevOff_nextOff h, nextOff_prevOff h⟩⟩

end Sys2Proof.Machine
end

section
/-! The codec is a set of pure functions (40_gcr_codec R128): each of its four operations answers with
bytes, whatever its operands and whatever lies on the track. -/

namespace Sys2Proof.Machine

open Sys2Proof

/-- Settles O9, by cases on the codec operation: the answer is the bytes its arm's equation names. -/
theorem codecHasNoErrorOutcome : Obligations.CodecHasNoErrorOutcome := by
  rintro s i (⟨raw, rfl⟩ | ⟨gcr, rfl⟩ | ⟨offset, rfl⟩ | ⟨track, sector, id1, id2, payload, rfl⟩)
  · exact ⟨gcrBytes (enc4 raw), exec_gcrEnc4 raw s⟩
  · exact ⟨rawBytes (dec5 gcr), exec_gcrDec5 gcr s⟩
  · exact ⟨decBytes (trkReadN s offset.toNat gcrBlockLen), exec_decodeSector offset s⟩
  · exact ⟨sectorImage track sector id1 id2 payload,
      exec_encodeSector track sector id1 id2 payload s⟩

end Sys2Proof.Machine
end

section
/-! The dirty flag's own two operations (41_track_store R147, R148): both are one-byte requests; the
one writes `dirty` alone, the other only answers with it. -/

namespace Sys2Proof.Machine

open Sys2Proof

/-- Settles O31: the request by its opcode's table row, the state by the arm's equation, whose one
update besides the answer is of `dirty`. -/
theorem clearDirtyTouchesOnlyDirty : Obligations.ClearDirtyTouchesOnlyDirty := by
  refine ⟨rfl, rfl, fun s => ⟨respond .noValue { s with dirty := false }, exec_clearDirty s, ?_, ?_⟩⟩
  · exact respond_dirty _ _
  · rfl

/-- Settles O32: the request by its opcode's table row, the state by the arm's equation, which only
records the answer. -/
theorem getDirtyReturnsDirty : Obligations.GetDirtyReturnsDirty :=
  ⟨rfl, rfl, fun s => exec_getDirty s⟩

end Sys2Proof.Machine
end

section
/-! One byte under the head (42_rotation_engine R164): a Write commit is one `TrkWrite` followed by a
head step, a Read commit is a head step followed by one `TrkRead`. -/

namespace Sys2Proof.Machine

open Sys2Proof

/-! ## What a Write commit leaves on the track -/

theorem memRead_commit_write_self {s : State} (hw : Memory.wf s.gcrData = true)
    (hz : 0 < s.currentTrackSize) :
    memRead (commit .write s).gcrData (curBase s + s.headOffset % s.currentTrackSize) =
      s.writeValue := by
  rw [commit_write_gcrData, memRead_trkWrite_self hw hz]

theorem memRead_commit_write_ne {s : State} {a : Nat}
    (h : s.currentTrackSize = 0 ∨ a ≠ curBase s + s.headOffset % s.currentTrackSize) :
    memRead (commit .write s).gcrData a = memRead s.gcrData a := by
  rw [commit_write_gcrData, memRead_trkWrite_ne h]

/-! ## A commit on an empty track -/

theorem commit_headOffset_of_empty {s : State} (h : s.currentTrackSize = 0) (m : Mode) :
    (commit m s).headOffset = 0 := by
  rw [commit_headOffset, nextOff_of_empty h]

theorem commit_read_gcrRead_of_empty {s : State} (h : s.currentTrackSize = 0) :
    (commit .read s).gcrRead = syncByte := by
  rw [commit_read_gcrRead, trkRead_of_empty h]

/-- Settles O36: the frame of a commit in either mode, the byte a Write commit stores and the ones it
does not, and the empty track. -/
theorem commitTransfersOneByte : Obligations.CommitTransfersOneByte := by
  intro s hw
  refine ⟨⟨commit_eq .write s, fun hz => ⟨?stored, fun a ha => ?others⟩⟩,
    ⟨trkRead s (nextOff s s.headOffset), commit_eq .read s, rfl⟩, fun he => ?empty⟩
  case stored => exact memRead_commit_write_self hw hz
  case others => exact memRead_commit_write_ne (.inr ha)
  case empty =>
    exact ⟨fun a => memRead_commit_write_ne (.inl he), commit_read_gcrRead_of_empty he,
      commit_headOffset_of_empty he .write, commit_headOffset_of_empty he .read⟩

end Sys2Proof.Machine
end

section
/-! The sync condition (42_rotation_engine R168): a function of the mode and of two bytes of the
current track, none of which the control bits or the settling window reach. -/

namespace Sys2Proof.Machine

open Sys2Proof

theorem prevOff_congr {s t : State} (h : t.currentTrackSize = s.currentTrackSize) (o : Nat) :
    prevOff t o = prevOff s o := by simp only [prevOff, h]

theorem syncNow_iff (s : State) :
    syncNow s = true ↔ s.readWriteMode = .read ∧ trkRead s s.headOffset = syncByte ∧
      trkRead s (prevOff s s.headOffset) = syncByte := by
  simp only [syncNow, Bool.and_eq_true, beq_iff_eq]

/-- Sync sees the mode, the head and the current track's bytes, nothing else. -/
theorem syncNow_congr {s t : State} (hm : t.readWriteMode = s.readWriteMode)
    (ho : t.headOffset = s.headOffset) (hg : t.gcrData = s.gcrData)
    (hz : t.currentTrackSize = s.currentTrackSize)
    (hh : t.currentHalfTrack = s.currentHalfTrack) : syncNow t = syncNow s := by
  simp only [syncNow, hm, ho, prevOff_congr hz, trkRead_congr hg hz hh]

/-- Settles O43: the condition read off its definition, and that it sees none of the six fields. -/
theorem syncNeedsTwoBytesInReadMode : Obligations.SyncNeedsTwoBytesInReadMode := fun s =>
  ⟨syncNow_iff s, fun _ _ _ _ _ _ => syncNow_congr rfl rfl rfl rfl rfl⟩

end Sys2Proof.Machine
end

section
/-! What an operation does, said once (00_scope R11, 45_drive_session_api R221, 60_exceptions R252):
a failing check and nothing else, or the clocked prologue, the operation's own write and the answer.
Every rule about all operations is a rule about the prologue and the own writes. -/

namespace Sys2Proof.Machine

open Sys2Proof

/-! ## The two parts of an operation that is served -/

/-- The state after the clocked prologue: integrated up to the operation's clock, if it has one. -/
def prologue (i : Instr) (s : State) : State :=
  match clockOf i s with
  | some clk => syncTo clk s
  | none => s

/-- What an operation itself writes once it is served, its answer apart. -/
def ownWrite (i : Instr) (s : State) : State :=
  match i with
  | .setHalfTrack n => positionHead (intOf32 n) s
  | .moveHead step => positionHead ((s.currentHalfTrack : Int) + intOf32 step) s
  | .reset => positionHead (2 * (dirTrack : Int)) s
  | .writeByteAt offset value => trkWrite offset.toNat value s
  | .tsLoadTrack t size data zones => loadTrack t.toNat size.toNat data zones s
  | .tsClear =>
    { s with gcrData := [], speedZone := [], trackSize := Vector.replicate 42 0, dirty := false }
  | .clearDirty => { s with dirty := false }
  | .advance delta changed => advanceCore delta.toNat changed s
  | .clkRebase clk => lowerClocks clk s
  | .writeGcr _ value => { s with writeValue := value }
  | .setByteReady flag => { s with byteReady := flag }
  | .updateZoneBits _ v => { s with zone := zoneOfOperand v }
  | .motorControl _ flag => { s with motorOn := flag }
  | .updatePcr _ v =>
    { s with
      byteReadyEnable := pcrEnable v
      readWriteMode := pcrMode v
      finishByte := s.finishByte || decide (pcrMode v ≠ s.readWriteMode) }
  | .noteAttach clk => { s with attachClk := clk, attachValid := true }
  | .noteDetach clk => { s with detachClk := clk, detachValid := true }
  | _ => s

/-- How an operation ends: refused with the first failing check's reason, or served. -/
def EndsAsRefusalOf (i : Instr) (s : State) : Prop :=
  (∃ why, refusalOf i s = some why ∧ exec i s = .next (refuse why s)) ∨
    (refusalOf i s = none ∧ ∃ r, exec i s = .next (respond r (ownWrite i (prologue i s))))

/-- An operation whose one check is that of its clock. -/
theorem endsAsRefusalOf_clocked {i : Instr} {s : State} {clk : Clk} {answer : State → Result}
    (hclk : clockOf i s = some clk)
    (hcheck : refusalOf i s =
      if clk.toNat < s.rotationLastClk.toNat then some .clockWentBack else none)
    (hexec : exec i s =
      .next (clocked clk (fun s1 => respond (answer s1) (ownWrite i s1)) s)) :
    EndsAsRefusalOf i s := by
  unfold EndsAsRefusalOf
  rw [hcheck, hexec, prologue, hclk]
  by_cases hback : clk.toNat < s.rotationLastClk.toNat
  · rw [clocked_refused hback, if_pos hback]
    exact .inl ⟨_, rfl, rfl⟩
  · rw [clocked_ok (by omega), if_neg hback]
    exact .inr ⟨rfl, _, rfl⟩

/-- Every operation is refused with its first failing check's reason, or served: the prologue, the
own write, the answer. -/
theorem exec_endsAsRefusalOf (i : Instr) (s : State) : EndsAsRefusalOf i s := by
  cases i with
  | tsLoadTrack t size data zones =>
    unfold EndsAsRefusalOf
    rw [exec_tsLoadTrack]
    simp only [refusalOf]
    by_cases htrack : isTrack t = false
    · exact .inl ⟨.badTrack, by simp [htrack]⟩
    by_cases hsize : maxBytesPerTrack < size.toNat
    · exact .inl ⟨.badSize, by simp [htrack, hsize]⟩
    by_cases hzone : someBadZone (zones.take size.toNat) = true
    · exact .inl ⟨.badZone, by simp [htrack, hsize, hzone]⟩
    · refine .inr ⟨by simp [htrack, hsize, hzone], .noValue, ?_⟩
      rw [if_neg htrack, if_neg hsize, if_neg hzone]
      rfl
  | tsReadTrack t =>
    unfold EndsAsRefusalOf
    rw [exec_tsReadTrack]
    simp only [refusalOf]
    by_cases htrack : isTrack t = false
    · exact .inl ⟨.badTrack, by simp [htrack]⟩
    · exact .inr ⟨if_neg htrack, _, congrArg _ (if_neg htrack)⟩
  | clkRebase clk =>
    by_cases hearly : clk.toNat < rebaseAmount.toNat
    · exact .inl ⟨.rebaseTooEarly, by simp [refusalOf, hearly],
        by rw [exec_clkRebase, if_pos hearly]⟩
    · exact endsAsRefusalOf_clocked rfl (by simp [refusalOf, hearly])
        (by rw [exec_clkRebase, if_neg hearly]; rfl)
  | readDiskByte clk =>
    by_cases hwindow : inAttachWindow clk s
    · have hclk : clockOf (.readDiskByte clk) s = none := if_pos hwindow
      refine .inr ⟨by simp only [refusalOf, hclk], .u8 0x00, ?_⟩
      rw [exec_readDiskByte, if_pos hwindow, prologue, hclk]
      rfl
    · have hclk : clockOf (.readDiskByte clk) s = some clk := if_neg hwindow
      exact endsAsRefusalOf_clocked hclk (by simp only [refusalOf, hclk])
        (by rw [exec_readDiskByte, if_neg hwindow]; rfl)
  | syncFound clk => exact endsAsRefusalOf_clocked rfl rfl (exec_syncFound clk s)
  | byteReady clk => exact endsAsRefusalOf_clocked rfl rfl (exec_byteReady clk s)
  | writeGcr clk value => exact endsAsRefusalOf_clocked rfl rfl (exec_writeGcr clk value s)
  | updateZoneBits clk v => exact endsAsRefusalOf_clocked rfl rfl (exec_updateZoneBits clk v s)
  | motorControl clk flag => exact endsAsRefusalOf_clocked rfl rfl (exec_motorControl clk flag s)
  | updatePcr clk v =>
    refine endsAsRefusalOf_clocked (answer := fun _ => .noValue) (clk := clk) rfl rfl ?_
    simp only [exec_updatePcr, writePcr_eq]
    rfl
  | gcrEnc4 | gcrDec5 | encodeSector | decodeSector | setHalfTrack | readByteAt | writeByteAt
  | tsClear | clearDirty | getDirty | advance | findSectorHeader | findSectorData | setByteReady
  | moveHead | noteAttach | noteDetach | reset => exact .inr ⟨rfl, _, rfl⟩

/-! ## The answer -/

theorem refuse_injective {why why' : RefuseReason} {s : State} (h : refuse why s = refuse why' s) :
    why = why' := by
  simpa using congrArg State.response h

theorem respond_ne_refuse {r : Result} {why : RefuseReason} {s t : State} :
    respond r s ≠ refuse why t := fun h => by
  simpa using congrArg State.response h

/-- The induction over an operation, packaged once: what neither an answer nor the prologue nor the
operation's own write disturbs holds after it. The own write may count on the checks. -/
theorem exec_induction {P : State → Prop} {i : Instr} {s t : State} (h : exec i s = .next t)
    (hrefuse : ∀ why, P (refuse why s))
    (hserved : refusalOf i s = none → ∀ r, P (respond r (ownWrite i (prologue i s)))) : P t := by
  rcases exec_endsAsRefusalOf i s with ⟨why, _, he⟩ | ⟨hr, r, he⟩
  · obtain rfl := Host.Outcome.next.inj (he.symm.trans h)
    exact hrefuse why
  · obtain rfl := Host.Outcome.next.inj (he.symm.trans h)
    exact hserved hr r

/-- Settles O7: a served operation answers with a result, a refused one is the old state and the
reason. -/
theorem everyOperationEndsOkOrRefused : Obligations.EveryOperationEndsOkOrRefused := by
  intro i s
  rcases exec_endsAsRefusalOf i s with ⟨why, _, he⟩ | ⟨_, r, he⟩
  · exact ⟨_, he, .inr ⟨why, rfl⟩⟩
  · exact ⟨_, he, .inl ⟨r, respond_response _ _⟩⟩

/-- Settles O8: the reason shown is the check's that failed, and a served operation shows none. -/
theorem refusedExactlyWhen : Obligations.RefusedExactlyWhen := by
  intro i s why
  change exec i s = .next (refuse why s) ↔ _
  rcases exec_endsAsRefusalOf i s with ⟨why', hr, he⟩ | ⟨hr, r, he⟩ <;> rw [he, hr]
  · rw [Host.Outcome.next.injEq, Option.some.injEq]
    exact ⟨refuse_injective, fun e => e ▸ rfl⟩
  · rw [Host.Outcome.next.injEq]
    exact iff_of_false respond_ne_refuse (Option.some_ne_none why).symm

end Sys2Proof.Machine
end

section
/-! The request port (30_encoding part B): what a step does with its oldest request, each format
there and back, and the opcode map row by row. -/

namespace Sys2Proof

/-! ## Formats: the operands an encoder writes are the operands read -/

theorem form32_bytesOf32 (op : Byte) (k : U32 → Instr) (x : U32) :
    form32 op k (bytesOf32 x) = .ok (k x) :=
  form32_ok.mpr ⟨_, _, _, _, rfl, by rw [le32_byte32]⟩

theorem form32B_bytesOf32 (op : Byte) (k : U32 → Byte → Instr) (x : U32) (v : Byte) :
    form32B op k (bytesOf32 x ++ [v]) = .ok (k x v) :=
  form32B_ok.mpr ⟨_, _, _, _, _, rfl, by rw [le32_byte32]⟩

theorem formES_payload (op : Byte) (k : Byte → Byte → Byte → Byte → List Byte → Instr)
    (b0 b1 b2 b3 : Byte) {payload : List Byte} (h : payload.length = payloadLen) :
    formES op k (b0 :: b1 :: b2 :: b3 :: payload) = .ok (k b0 b1 b2 b3 payload) :=
  formES_ok.mpr ⟨_, _, _, _, _, rfl, h, rfl⟩

theorem formLT_track (op : Byte) (k : Byte → U16 → List Byte → List Byte → Instr) (t : Byte)
    {size : U16} {data zones : List Byte} (hd : data.length = size.toNat)
    (hz : zones.length = size.toNat) :
    formLT op k (t :: (bytesOf16 size ++ (data ++ zones))) = .ok (k t size data zones) := by
  refine formLT_ok.mpr ⟨t, byte16 size 0, byte16 size 1, data ++ zones, rfl, ?_, ?_⟩
  · rw [le16_byte16, List.length_append, hd, hz, Nat.two_mul]
  · rw [le16_byte16, ← hd, List.take_left, List.drop_left]

/-- Settles O3, by cases on the operation: its opcode selects its own format, which reads back the
operands it wrote. -/
theorem decodeEncodeAgree : Obligations.DecodeEncodeAgree := by
  intro i hwf
  cases i with
  | gcrEnc4 | gcrDec5 | tsClear | clearDirty | getDirty | tsReadTrack | findSectorHeader
  | reset => rfl
  | encodeSector track sector id1 id2 payload => exact formES_payload _ _ track sector id1 id2 hwf
  | tsLoadTrack t size data zones => exact formLT_track _ _ t hwf.1 hwf.2
  | setByteReady flag =>
    exact congrArg (fun b => Except.ok (Instr.setByteReady b)) (boolOfByte_byteOfBool flag)
  | advance delta changed =>
    exact (form32B_bytesOf32 0x30#8 (fun d b => .advance d (boolOfByte b)) delta _).trans
      (by rw [boolOfByte_byteOfBool])
  | motorControl clk flag =>
    exact (form32B_bytesOf32 0x56#8 (fun c b => .motorControl c (boolOfByte b)) clk _).trans
      (by rw [boolOfByte_byteOfBool])
  | writeByteAt offset value => exact form32B_bytesOf32 0x22#8 _ offset value
  | writeGcr clk value => exact form32B_bytesOf32 0x51#8 _ clk value
  | updateZoneBits clk v => exact form32B_bytesOf32 0x55#8 _ clk v
  | updatePcr clk v => exact form32B_bytesOf32 0x57#8 _ clk v
  | decodeSector offset => exact form32_bytesOf32 0x13#8 _ offset
  | setHalfTrack n => exact form32_bytesOf32 0x20#8 _ n
  | readByteAt offset => exact form32_bytesOf32 0x21#8 _ offset
  | syncFound clk => exact form32_bytesOf32 0x31#8 _ clk
  | clkRebase clk => exact form32_bytesOf32 0x32#8 _ clk
  | findSectorData offset => exact form32_bytesOf32 0x41#8 _ offset
  | readDiskByte clk => exact form32_bytesOf32 0x50#8 _ clk
  | byteReady clk => exact form32_bytesOf32 0x52#8 _ clk
  | moveHead step => exact form32_bytesOf32 0x54#8 _ step
  | noteAttach clk => exact form32_bytesOf32 0x58#8 _ clk
  | noteDetach clk => exact form32_bytesOf32 0x59#8 _ clk

/-! ## The opcode map (R103) -/

/-- The opcodes of the map. -/
abbrev opcodeMap : List Byte :=
  [0x10#8, 0x11#8, 0x12#8, 0x13#8, 0x20#8, 0x21#8, 0x22#8, 0x23#8, 0x24#8, 0x25#8, 0x26#8,
   0x27#8, 0x30#8, 0x31#8, 0x32#8, 0x40#8, 0x41#8, 0x50#8, 0x51#8, 0x52#8, 0x53#8, 0x54#8,
   0x55#8, 0x56#8, 0x57#8, 0x58#8, 0x59#8, 0x5F#8]

/-- A request with opcode `op` is accepted exactly at its format's length and is of the wrong length
otherwise; what it decodes to is well-formed and is encoded in that length. -/
def MapRow (op : Byte) : Prop :=
  ∀ args : List Byte,
    ((∃ i, decode (op :: args) = .ok i) ↔ (op :: args).length = requestLength (op :: args)) ∧
    ((∃ i, decode (op :: args) = .ok i) ∨ decode (op :: args) = .error (.wrongLength op)) ∧
    ∀ i, decode (op :: args) = .ok i →
      WellFormed i ∧ (encode i).length = (op :: args).length

/-- An operation as its row has it: well-formed and encoded in `n` bytes. -/
abbrev ShapedAs (n : Nat) (i : Instr) : Prop := WellFormed i ∧ (encode i).length = n

section Formats

variable {op : Byte}

theorem mapRow_of_form {f : List Byte → Except DecodeError Instr} {n : List Byte → Nat}
    (hdecode : ∀ args, decode (op :: args) = f args)
    (hlength : ∀ args, requestLength (op :: args) = n args + 1)
    (haccepts : ∀ args, ((∃ j, f args = .ok j) ↔ args.length = n args) ∧
      ((∃ j, f args = .ok j) ∨ f args = .error (.wrongLength op)))
    (hshape : ∀ args i, f args = .ok i → ShapedAs (args.length + 1) i) : MapRow op := by
  intro args
  rw [hdecode, hlength, List.length_cons, Nat.add_right_cancel_iff]
  exact ⟨(haccepts args).1, (haccepts args).2, hshape args⟩

theorem mapRow_formZ {i : Instr} (hdecode : ∀ args, decode (op :: args) = formZ op i args)
    (hlength : ∀ args, requestLength (op :: args) = 1) (hshape : ShapedAs 1 i) : MapRow op := by
  refine mapRow_of_form (n := fun _ => 0) hdecode hlength (fun _ => formZ_accepts) ?_
  intro args j h
  obtain ⟨rfl, rfl⟩ := formZ_ok.mp h
  exact hshape

theorem mapRow_formB {k : Byte → Instr} (hdecode : ∀ args, decode (op :: args) = formB op k args)
    (hlength : ∀ args, requestLength (op :: args) = 2) (hshape : ∀ b, ShapedAs 2 (k b)) :
    MapRow op := by
  refine mapRow_of_form (n := fun _ => 1) hdecode hlength (fun _ => formB_accepts) ?_
  intro args j h
  obtain ⟨b, rfl, rfl⟩ := formB_ok.mp h
  exact hshape b

theorem mapRow_formBB {k : Byte → Byte → Instr}
    (hdecode : ∀ args, decode (op :: args) = formBB op k args)
    (hlength : ∀ args, requestLength (op :: args) = 3) (hshape : ∀ b c, ShapedAs 3 (k b c)) :
    MapRow op := by
  refine mapRow_of_form (n := fun _ => 2) hdecode hlength (fun _ => formBB_accepts) ?_
  intro args j h
  obtain ⟨b, c, rfl, rfl⟩ := formBB_ok.mp h
  exact hshape b c

theorem mapRow_form32 {k : U32 → Instr}
    (hdecode : ∀ args, decode (op :: args) = form32 op k args)
    (hlength : ∀ args, requestLength (op :: args) = 5) (hshape : ∀ x, ShapedAs 5 (k x)) :
    MapRow op := by
  refine mapRow_of_form (n := fun _ => 4) hdecode hlength (fun _ => form32_accepts) ?_
  intro args j h
  obtain ⟨_, _, _, _, rfl, rfl⟩ := form32_ok.mp h
  exact hshape _

theorem mapRow_form32B {k : U32 → Byte → Instr}
    (hdecode : ∀ args, decode (op :: args) = form32B op k args)
    (hlength : ∀ args, requestLength (op :: args) = 6) (hshape : ∀ x v, ShapedAs 6 (k x v)) :
    MapRow op := by
  refine mapRow_of_form (n := fun _ => 5) hdecode hlength (fun _ => form32B_accepts) ?_
  intro args j h
  obtain ⟨_, _, _, _, _, rfl, rfl⟩ := form32B_ok.mp h
  exact hshape _ _

theorem mapRow_formG4 {k : RawGroup → Instr}
    (hdecode : ∀ args, decode (op :: args) = formG4 op k args)
    (hlength : ∀ args, requestLength (op :: args) = 5) (hshape : ∀ r, ShapedAs 5 (k r)) :
    MapRow op := by
  refine mapRow_of_form (n := fun _ => 4) hdecode hlength (fun _ => formG4_accepts) ?_
  intro args j h
  obtain ⟨r, rfl, rfl⟩ := formG4_ok.mp h
  exact hshape r

theorem mapRow_formG5 {k : GcrGroup → Instr}
    (hdecode : ∀ args, decode (op :: args) = formG5 op k args)
    (hlength : ∀ args, requestLength (op :: args) = 6) (hshape : ∀ g, ShapedAs 6 (k g)) :
    MapRow op := by
  refine mapRow_of_form (n := fun _ => 5) hdecode hlength (fun _ => formG5_accepts) ?_
  intro args j h
  obtain ⟨g, rfl, rfl⟩ := formG5_ok.mp h
  exact hshape g

end Formats

theorem mapRow_encodeSector : MapRow 0x12#8 := by
  refine mapRow_of_form (f := formES 0x12#8 .encodeSector) (n := fun _ => 260) (fun _ => rfl)
    (fun _ => rfl) (fun _ => formES_accepts) ?_
  intro args i h
  obtain ⟨_, _, _, _, payload, rfl, hp, rfl⟩ := formES_ok.mp h
  exact ⟨hp, rfl⟩

theorem mapRow_tsLoadTrack : MapRow 0x23#8 := by
  refine mapRow_of_form (f := formLT 0x23#8 .tsLoadTrack)
    (n := fun args => 3 + 2 * (le16 (args.getD 1 0) (args.getD 2 0)).toNat) (fun _ => rfl)
    (fun args => ?length) (fun _ => formLT_accepts) ?shape
  case length =>
    show 4 + 2 * (le16 (args.getD 1 0) (args.getD 2 0)).toNat = _
    omega
  case shape =>
    intro args i h
    obtain ⟨t, s0, s1, rest, rfl, hrest, rfl⟩ := formLT_ok.mp h
    refine ⟨⟨?_, ?_⟩, ?_⟩
    · rw [List.length_take, hrest]; omega
    · rw [List.length_drop, hrest]; omega
    · simp [encode]
      omega

/-- The opcode map, row by row. -/
theorem mapRow_of_mem {op : Byte} (h : op ∈ opcodeMap) : MapRow op := by
  simp only [opcodeMap, List.mem_cons, List.not_mem_nil, or_false] at h
  rcases h with rfl | rfl | rfl | rfl | rfl | rfl | rfl | rfl | rfl | rfl | rfl | rfl | rfl | rfl |
    rfl | rfl | rfl | rfl | rfl | rfl | rfl | rfl | rfl | rfl | rfl | rfl | rfl | rfl
  · exact mapRow_formG4 (fun _ => rfl) (fun _ => rfl) (fun _ => ⟨trivial, rfl⟩)
  · exact mapRow_formG5 (fun _ => rfl) (fun _ => rfl) (fun _ => ⟨trivial, rfl⟩)
  · exact mapRow_encodeSector
  · exact mapRow_form32 (fun _ => rfl) (fun _ => rfl) (fun _ => ⟨trivial, rfl⟩)
  · exact mapRow_form32 (fun _ => rfl) (fun _ => rfl) (fun _ => ⟨trivial, rfl⟩)
  · exact mapRow_form32 (fun _ => rfl) (fun _ => rfl) (fun _ => ⟨trivial, rfl⟩)
  · exact mapRow_form32B (fun _ => rfl) (fun _ => rfl) (fun _ _ => ⟨trivial, rfl⟩)
  · exact mapRow_tsLoadTrack
  · exact mapRow_formZ (fun _ => rfl) (fun _ => rfl) ⟨trivial, rfl⟩
  · exact mapRow_formZ (fun _ => rfl) (fun _ => rfl) ⟨trivial, rfl⟩
  · exact mapRow_formZ (fun _ => rfl) (fun _ => rfl) ⟨trivial, rfl⟩
  · exact mapRow_formB (fun _ => rfl) (fun _ => rfl) (fun _ => ⟨trivial, rfl⟩)
  · exact mapRow_form32B (k := fun d b => .advance d (boolOfByte b))
      (fun _ => rfl) (fun _ => rfl) (fun _ _ => ⟨trivial, rfl⟩)
  · exact mapRow_form32 (fun _ => rfl) (fun _ => rfl) (fun _ => ⟨trivial, rfl⟩)
  · exact mapRow_form32 (fun _ => rfl) (fun _ => rfl) (fun _ => ⟨trivial, rfl⟩)
  · exact mapRow_formBB (fun _ => rfl) (fun _ => rfl) (fun _ _ => ⟨trivial, rfl⟩)
  · exact mapRow_form32 (fun _ => rfl) (fun _ => rfl) (fun _ => ⟨trivial, rfl⟩)
  · exact mapRow_form32 (fun _ => rfl) (fun _ => rfl) (fun _ => ⟨trivial, rfl⟩)
  · exact mapRow_form32B (fun _ => rfl) (fun _ => rfl) (fun _ _ => ⟨trivial, rfl⟩)
  · exact mapRow_form32 (fun _ => rfl) (fun _ => rfl) (fun _ => ⟨trivial, rfl⟩)
  · exact mapRow_formB (fun _ => rfl) (fun _ => rfl) (fun _ => ⟨trivial, rfl⟩)
  · exact mapRow_form32 (fun _ => rfl) (fun _ => rfl) (fun _ => ⟨trivial, rfl⟩)
  · exact mapRow_form32B (fun _ => rfl) (fun _ => rfl) (fun _ _ => ⟨trivial, rfl⟩)
  · exact mapRow_form32B (k := fun c b => .motorControl c (boolOfByte b))
      (fun _ => rfl) (fun _ => rfl) (fun _ _ => ⟨trivial, rfl⟩)
  · exact mapRow_form32B (fun _ => rfl) (fun _ => rfl) (fun _ _ => ⟨trivial, rfl⟩)
  · exact mapRow_form32 (fun _ => rfl) (fun _ => rfl) (fun _ => ⟨trivial, rfl⟩)
  · exact mapRow_form32 (fun _ => rfl) (fun _ => rfl) (fun _ => ⟨trivial, rfl⟩)
  · exact mapRow_formZ (fun _ => rfl) (fun _ => rfl) ⟨trivial, rfl⟩

theorem decode_reserved {op : Byte} (args : List Byte) (h : op ∉ opcodeMap) :
    decode (op :: args) = .error (.reservedOpcode op) := by
  simp only [opcodeMap, List.mem_cons, List.not_mem_nil, or_false, not_or] at h
  simp only [decode, h, if_false]

/-- Settles O5: the rows of the opcode map, and every other opcode. -/
theorem acceptedExactlyAtFormatLength : Obligations.AcceptedExactlyAtFormatLength :=
  ⟨fun _ args h => ⟨(mapRow_of_mem h args).1, (mapRow_of_mem h args).2.1⟩,
    fun _ args h => decode_reserved args h, rfl⟩

/-- Settles O4: an accepted request has an opcode of the map, whose row says the rest. -/
theorem decodedRequestsAreWellFormed : Obligations.DecodedRequestsAreWellFormed := by
  intro r i h
  cases r with
  | nil => cases h
  | cons op args =>
    have hrow : MapRow op := mapRow_of_mem (by
      by_contra hreserved
      rw [decode_reserved args hreserved] at h
      cases h)
    obtain ⟨haccepts, _, hshape⟩ := hrow args
    obtain ⟨hwf, hlen⟩ := hshape i h
    exact ⟨hwf, haccepts.mp ⟨i, h⟩, hlen⟩

/-- Settles O6: each request's opcode selects its format, which reads its operands. -/
theorem specRequestBytesDecode : Obligations.SpecRequestBytesDecode :=
  ⟨rfl, rfl, rfl, rfl, rfl, rfl⟩

end Sys2Proof

namespace Sys2Proof.Machine

open Sys2Proof

/-! ## A step -/

theorem step_of_decode_ok {s : State} {r : List Byte} {rest : List (List Byte)} {i : Instr}
    (hreq : s.requests = r :: rest) (hdec : decode r = .ok i) :
    step s = exec i { s with requests := rest } := by
  simp only [step, takeRequest, hreq, hdec]

theorem step_of_decode_error {s : State} {r : List Byte} {rest : List (List Byte)}
    {e : DecodeError} (hreq : s.requests = r :: rest) (hdec : decode r = .error e) :
    step s = .next (refuse .badRequest { s with requests := rest }) := by
  simp only [step, takeRequest, hreq, hdec]

theorem step_of_no_request {s : State} (hreq : s.requests = []) : step s = .next s := by
  simp only [step, takeRequest, hreq]

/-- All that a step can do: wait, turn bytes away that are no request, or run an operation. -/
theorem step_cases {s t : State} (h : step s = .next t) :
    t = s ∨ (∃ rest, t = refuse .badRequest { s with requests := rest }) ∨
      ∃ i rest, exec i { s with requests := rest } = .next t := by
  rcases hreq : s.requests with _ | ⟨r, rest⟩
  · rw [step_of_no_request hreq] at h
    exact .inl (Host.Outcome.next.inj h).symm
  · cases hdec : decode r with
    | error e =>
      rw [step_of_decode_error hreq hdec] at h
      exact .inr (.inl ⟨rest, (Host.Outcome.next.inj h).symm⟩)
    | ok i => exact .inr (.inr ⟨i, rest, step_of_decode_ok hreq hdec ▸ h⟩)

/-- Settles O1, by what a step does with a request that decodes. -/
theorem stepRunsDecodedRequest : Obligations.StepRunsDecodedRequest :=
  fun _ _ _ _ hreq hdec => step_of_decode_ok hreq hdec

/-- Settles O2, by what a step does with bytes that do not decode, and with none. -/
theorem malformedRequestRefused : Obligations.MalformedRequestRefused :=
  ⟨fun _ _ _ _ hreq hdec => step_of_decode_error hreq hdec, fun _ hreq => step_of_no_request hreq⟩

end Sys2Proof.Machine
end

section
/-! The invariants of 10_state section 10: the part about the medium is kept by every commit, so by
every advance; the part about the byte under way is settled once per advance, after its last commit.
Each own write is checked against both. -/

namespace Sys2Proof.Machine

open Sys2Proof

/-! ## Canonical byte spaces within the reachable slots -/

/-- A byte space in canonical form, with nothing beyond the slots any rule can address (R62). -/
abbrev SpaceCanonical (m : Memory) : Prop :=
  Memory.wf m = true ∧ m.all (fun c => decide (c.1 < reachableBytes)) = true

theorem spaceCanonical_iff {m : Memory} :
    SpaceCanonical m ↔ Memory.wf m = true ∧ ∀ c ∈ m, c.1 < reachableBytes := by
  simp only [SpaceCanonical, List.all_eq_true, decide_eq_true_eq]

theorem spaceCanonical_nil : SpaceCanonical [] := ⟨rfl, rfl⟩

/-- A byte under the head lies in the current slot, which is one of the reachable ones. -/
theorem spaceCanonical_trkWrite {s : State} {o : Nat} {v : Byte} (hhead : s.headInRange)
    (hsize : s.currentTrackSize ≤ maxBytesPerTrack) (h : SpaceCanonical s.gcrData) :
    SpaceCanonical (trkWrite o v s).gcrData := by
  rw [spaceCanonical_iff] at h ⊢
  refine ⟨wf_trkWrite h.1, fun c hc => ?_⟩
  rcases mem_trkWrite hc with hold | ⟨hpos, rfl⟩
  · exact h.2 c hold
  · have hoff := Nat.mod_lt o hpos
    have hslot := curBase_le hhead
    show curBase s + o % s.currentTrackSize < reachableBytes
    omega

theorem slotBase_le {t : Nat} (h1 : 1 ≤ t) (h2 : t ≤ 42) :
    slotBase t + maxBytesPerTrack ≤ reachableBytes := by
  rw [slotBase_end h1]
  exact Nat.mul_le_mul_right 7928 h2

theorem spaceCanonical_memLoadSlot {m : Memory} {t : Nat} {bs : List Byte} (h1 : 1 ≤ t)
    (h2 : t ≤ 42) (hlen : bs.length ≤ maxBytesPerTrack) (h : SpaceCanonical m) :
    SpaceCanonical (memLoadSlot m (slotBase t) bs) := by
  rw [spaceCanonical_iff] at h ⊢
  refine ⟨wf_memLoadSlot h.1 hlen, fun c hc => ?_⟩
  rcases mem_memLoadSlot hc with hold | ⟨_, hlt, _⟩
  · exact h.2 c hold
  · have := slotBase_le h1 h2
    omega

/-! ## The medium: head, sizes and store -/

/-- The invariants about the medium: items 1, 2, 3 and 6 of R44, and the canonical store. -/
structure MediumInv (s : State) : Prop where
  head : s.headInRange
  sizes : s.sizesFit
  offset : s.offsetInTrack
  zones : s.zonesLegal
  store : s.storeCanonical

theorem inv_iff {s : State} : s.Inv ↔ MediumInv s ∧ s.subByte ∧ s.modesAgree :=
  ⟨fun ⟨hhead, hsizes, hoffset, hsub, hmodes, hzones, hstore⟩ =>
      ⟨⟨hhead, hsizes, hoffset, hzones, hstore⟩, hsub, hmodes⟩,
    fun ⟨⟨hhead, hsizes, hoffset, hzones, hstore⟩, hsub, hmodes⟩ =>
      ⟨hhead, hsizes, hoffset, hsub, hmodes, hzones, hstore⟩⟩

theorem nextOff_inTrack (s : State) (o : Nat) :
    nextOff s o < s.currentTrackSize ∨ (s.currentTrackSize = 0 ∧ nextOff s o = 0) := by
  rcases Nat.eq_zero_or_pos s.currentTrackSize with hz | hz
  · exact .inr ⟨hz, nextOff_of_empty hz o⟩
  · exact .inl (nextOff_lt hz o)

theorem mediumInv_trkWrite {s : State} {o : Nat} {v : Byte} (h : MediumInv s) :
    MediumInv (trkWrite o v s) where
  head := h.head
  sizes := h.sizes
  offset := h.offset
  zones := h.zones
  store := ⟨spaceCanonical_trkWrite h.head h.offset.1 h.store.1, h.store.2⟩

theorem mediumInv_commit (m : Mode) {s : State} (h : MediumInv s) : MediumInv (commit m s) := by
  have hoff := nextOff_inTrack s s.headOffset
  cases m with
  | read => exact ⟨h.head, h.sizes, ⟨h.offset.1, hoff⟩, h.zones, h.store⟩
  | write =>
    obtain ⟨hhead, hsizes, hoffset, hzones, hstore⟩ :=
      mediumInv_trkWrite (o := s.headOffset) (v := s.writeValue) h
    exact ⟨hhead, hsizes, ⟨hoffset.1, hoff⟩, hzones, hstore⟩

theorem mediumInv_advanceCore (delta : Nat) (changed : Bool) {s : State} (h : MediumInv s) :
    MediumInv (advanceCore delta changed s) :=
  advanceCore_induction (fun m _ h => mediumInv_commit m h)
    (fun _ _ _ _ ⟨hhead, hsizes, hoffset, hzones, hstore⟩ =>
      ⟨hhead, hsizes, hoffset, hzones, hstore⟩)
    (fun _ _ _ ⟨hhead, hsizes, hoffset, hzones, hstore⟩ =>
      ⟨hhead, hsizes, hoffset, hzones, hstore⟩) delta changed h

theorem mediumInv_positionHead (n : Int) {s : State} (h : MediumInv s) :
    MediumInv (positionHead n s) where
  head := clampHalfTrack_range n
  sizes := h.sizes
  offset := by
    have hrange := clampHalfTrack_range n
    have hfits := h.sizes (clampHalfTrack n / 2 - 1) (by omega)
    rw [show clampHalfTrack n / 2 - 1 + 1 = clampHalfTrack n / 2 by omega] at hfits
    refine ⟨hfits, ?_⟩
    rw [positionHead_headOffset]
    omega
  zones := h.zones
  store := h.store

/-- A loaded track, its operands checked. -/
theorem mediumInv_loadTrack {t : Byte} {size : U16} {data zones : List Byte} {s : State}
    (htrack : isTrack t = true) (hsize : size.toNat ≤ maxBytesPerTrack)
    (hzone : someBadZone (zones.take size.toNat) = false) (h : MediumInv s) :
    MediumInv (loadTrack t.toNat size.toNat data zones s) := by
  obtain ⟨h1, h42⟩ := (isTrack_iff t).mp htrack
  have htake : ∀ bs : List Byte, (bs.take size.toNat).length ≤ maxBytesPerTrack := fun bs => by
    rw [List.length_take]; omega
  refine ⟨h.head, fun k hk => ?sizes, h.offset, ?zones,
    spaceCanonical_memLoadSlot h1 h42 (htake data) h.store.1,
    spaceCanonical_memLoadSlot h1 h42 (htake zones) h.store.2⟩
  case sizes =>
    by_cases hkt : k + 1 = t.toNat
    · rw [hkt, loadTrack_size h1 h42]; exact hsize
    · rw [loadTrack_size_other h1 (by omega) hkt]; exact h.sizes k hk
  case zones =>
    refine List.all_eq_true.mpr fun c hc => decide_eq_true ?_
    rcases mem_memLoadSlot hc with hold | ⟨_, _, hz⟩
    · exact of_decide_eq_true (List.all_eq_true.mp h.zones c hold)
    · by_contra hbad
      exact Bool.false_ne_true (hzone ▸ (someBadZone_iff _).mpr ⟨c.2, hz, by omega⟩)

theorem mediumInv_clear {s : State} (h : MediumInv s) : MediumInv (ownWrite .tsClear s) where
  head := h.head
  sizes := fun k _ => (getD_replicate k).trans_le (Nat.zero_le _)
  offset := h.offset
  zones := rfl
  store := ⟨spaceCanonical_nil, spaceCanonical_nil⟩

/-! ## The byte under way: pending bits and modes -/

theorem commitBytes_accum (s : State) : (commitBytes s).accum = s.accum := by
  have hpending : (finishPending s).accum = s.accum := by
    unfold finishPending
    split
    · show (commit s.lastMode s).accum = s.accum
      rw [commit_eq]
    · rfl
  obtain ⟨_, _, hloop, _⟩ :=
    commitLoop_flags ((finishPending s).bitsMoved / 8) (finishPending s)
  unfold commitBytes
  split
  · rw [reArm_accum, hloop, hpending]
  · rfl

theorem modesAgree_finishPending {s : State} (h : s.modesAgree) : (finishPending s).modesAgree := by
  cases hf : s.finishByte with
  | false => rw [finishPending_none hf]; exact h
  | true =>
    rw [finishPending_some hf]
    intro _
    show s.readWriteMode = (commit s.lastMode s).readWriteMode
    rw [commit_eq]

theorem modesAgree_commitBytes {s : State} (h : s.modesAgree) : (commitBytes s).modesAgree := by
  unfold commitBytes
  split
  · obtain ⟨hfinish, hlast, _, _⟩ :=
      commitLoop_flags ((finishPending s).bitsMoved / 8) (finishPending s)
    intro hnone
    rw [reArm_finishByte, hfinish] at hnone
    rw [reArm_lastMode, hlast, reArm_readWriteMode, commitLoop_frame_mode]
    exact modesAgree_finishPending h hnone
  · exact h

theorem modesAgree_advanceCore (delta : Nat) (changed : Bool) {s : State} (h : s.modesAgree) :
    (advanceCore delta changed s).modesAgree := by
  unfold advanceCore
  split
  · exact fun hnone => absurd hnone (by simp)
  · split
    · exact modesAgree_commitBytes h
    · exact h

theorem subByte_advanceCore (delta : Nat) (changed : Bool) {s : State} (h : s.subByte) :
    (advanceCore delta changed s).subByte := by
  cases changed with
  | true => exact h
  | false =>
    by_cases hr : rotating s = true
    · refine ⟨?_, by rw [advanceCore_bitsMoved hr]; omega⟩
      rw [advanceCore, if_neg Bool.false_ne_true, if_pos hr, commitBytes_accum]
      exact integrate_accum_lt _ _ h.1
    · rw [advanceCore_idle (by simpa using hr)]
      exact h

/-- A mode that changes raises the flag, so without it the modes still agree. -/
theorem modesAgree_updatePcr (clk : Clk) (v : Byte) {s : State} (h : s.modesAgree) :
    (ownWrite (.updatePcr clk v) s).modesAgree := by
  intro hnone
  obtain ⟨hfinish, hsame⟩ := Bool.or_eq_false_iff.mp hnone
  have hmode : pcrMode v = s.readWriteMode := not_not.mp (of_decide_eq_false hsame)
  show s.lastMode = pcrMode v
  rw [hmode]
  exact h hfinish

/-! ## Every operation and every step -/

theorem inv_advanceCore (delta : Nat) (changed : Bool) {s : State} (h : s.Inv) :
    (advanceCore delta changed s).Inv := by
  obtain ⟨hmedium, hsub, hmodes⟩ := inv_iff.mp h
  exact inv_iff.mpr ⟨mediumInv_advanceCore delta changed hmedium,
    subByte_advanceCore delta changed hsub, modesAgree_advanceCore delta changed hmodes⟩

theorem inv_prologue (i : Instr) {s : State} (h : s.Inv) : (prologue i s).Inv := by
  unfold prologue
  split
  · exact inv_advanceCore _ false h
  · exact h

/-- An operation's own write keeps the invariants if no check turned the operation away. -/
theorem inv_ownWrite {i : Instr} {s0 s : State} (hchecks : refusalOf i s0 = none) (h : s.Inv) :
    (ownWrite i s).Inv := by
  obtain ⟨hmedium, hsub, hmodes⟩ := inv_iff.mp h
  cases i with
  | setHalfTrack | moveHead | reset =>
    exact inv_iff.mpr ⟨mediumInv_positionHead _ hmedium, hsub, hmodes⟩
  | writeByteAt => exact inv_iff.mpr ⟨mediumInv_trkWrite hmedium, hsub, hmodes⟩
  | tsLoadTrack t size data zones =>
    simp only [refusalOf] at hchecks
    split_ifs at hchecks with htrack hsize hzone
    exact inv_iff.mpr ⟨mediumInv_loadTrack (by simpa using htrack) (by omega) (by simpa using hzone)
      hmedium, hsub, hmodes⟩
  | tsClear => exact inv_iff.mpr ⟨mediumInv_clear hmedium, hsub, hmodes⟩
  | advance delta changed => exact inv_advanceCore delta.toNat changed h
  | updatePcr clk v =>
    exact ⟨hmedium.head, hmedium.sizes, hmedium.offset, hsub, modesAgree_updatePcr clk v hmodes,
      hmedium.zones, hmedium.store⟩
  | gcrEnc4 | gcrDec5 | encodeSector | decodeSector | readByteAt | clearDirty | getDirty
  | tsReadTrack | syncFound | clkRebase | findSectorHeader | findSectorData | readDiskByte
  | writeGcr | byteReady | setByteReady | updateZoneBits | motorControl | noteAttach
  | noteDetach => exact h

/-- Every operation keeps the invariants. -/
theorem inv_exec {i : Instr} {s t : State} (he : exec i s = .next t) (h : s.Inv) : t.Inv :=
  exec_induction (P := State.Inv) he (fun _ => h) fun hchecks _ =>
    inv_ownWrite hchecks (inv_prologue i h)

/-- Settles O59: a step waits, refuses or runs one operation. -/
theorem stepKeepsInvariants : Obligations.StepKeepsInvariants := by
  intro s t hinv hstep
  rcases step_cases hstep with rfl | ⟨rest, rfl⟩ | ⟨i, rest, he⟩
  · exact hinv
  · exact hinv
  · exact inv_exec he hinv

/-- Settles O58: every field has its power-on value. -/
theorem powerOnMeetsInvariants : Obligations.PowerOnMeetsInvariants := by
  unfold Obligations.PowerOnMeetsInvariants
  decide

end Sys2Proof.Machine
end

section
/-! Groups by their fields (30_encoding sections A.1, A.2): the eight codes of a 40-bit group and
their places among its five bytes, and from them the codec's answers, its round trips and its sync
bytes. Bit fields are compared as numbers, where concatenation and extraction are arithmetic. -/

namespace Sys2Proof.Machine

open Sys2Proof

/-! ## Bit fields as numbers -/

theorem toNat_append_eq {m n : Nat} (x : BitVec m) (y : BitVec n) :
    (x ++ y).toNat = x.toNat * 2 ^ n + y.toNat := by
  rw [BitVec.toNat_append, ← Nat.shiftLeft_add_eq_or_of_lt y.isLt, Nat.shiftLeft_eq]

theorem toNat_extract_eq {w : Nat} (x : BitVec w) (start len : Nat) :
    (x.extractLsb' start len).toNat = x.toNat / 2 ^ start % 2 ^ len := by
  rw [BitVec.extractLsb'_toNat, Nat.shiftRight_eq_div_pow]

/-! ## The eight codes of a group -/

/-- Code `k` of a 40-bit group, the first in the most significant place (R125). -/
def codeAt (x : BitVec 40) (k : Nat) : Code := x.extractLsb' (35 - 5 * k) 5

theorem groupNibble_eq (g : GcrGroup) (k : Nat) :
    groupNibble g k = gcrDec (codeAt (groupBits g) k) := rfl

theorem codeAt_toNat (x : BitVec 40) (k : Nat) :
    (codeAt x k).toNat = x.toNat / 2 ^ (35 - 5 * k) % 2 ^ 5 := toNat_extract_eq ..

/-- A group is what its eight codes say. -/
theorem eq_of_codeAt_eq {x y : BitVec 40} (h : ∀ k < 8, codeAt x k = codeAt y k) : x = y := by
  have hcode : ∀ k < 8,
      x.toNat / 2 ^ (35 - 5 * k) % 2 ^ 5 = y.toNat / 2 ^ (35 - 5 * k) % 2 ^ 5 := fun k hk => by
    rw [← codeAt_toNat, ← codeAt_toNat, h k hk]
  have h0 := hcode 0 (by decide)
  have h1 := hcode 1 (by decide)
  have h2 := hcode 2 (by decide)
  have h3 := hcode 3 (by decide)
  have h4 := hcode 4 (by decide)
  have h5 := hcode 5 (by decide)
  have h6 := hcode 6 (by decide)
  have h7 := hcode 7 (by decide)
  apply BitVec.eq_of_toNat_eq
  omega

/-- Nibble `k` of a raw group, high nibble first (R93). -/
def rawNibble (r : RawGroup) : Nat → Nibble
  | 0 => hiNibble r.r0
  | 1 => loNibble r.r0
  | 2 => hiNibble r.r1
  | 3 => loNibble r.r1
  | 4 => hiNibble r.r2
  | 5 => loNibble r.r2
  | 6 => hiNibble r.r3
  | _ => loNibble r.r3

theorem codeAt_groupCodes (r : RawGroup) {k : Nat} (hk : k < 8) :
    codeAt (groupCodes r) k = gcrEnc (rawNibble r k) := by
  apply BitVec.eq_of_toNat_eq
  rw [codeAt_toNat]
  simp only [groupCodes, toNat_append_eq]
  interval_cases k <;> simp only [rawNibble] <;> omega

/-- The code at each place of a GCR group, cut from the bytes it spans (R94). -/
def fieldCode (g : GcrGroup) : Nat → Code
  | 0 => g.g0.extractLsb' 3 5
  | 1 => g.g0.extractLsb' 0 3 ++ g.g1.extractLsb' 6 2
  | 2 => g.g1.extractLsb' 1 5
  | 3 => g.g1.extractLsb' 0 1 ++ g.g2.extractLsb' 4 4
  | 4 => g.g2.extractLsb' 0 4 ++ g.g3.extractLsb' 7 1
  | 5 => g.g3.extractLsb' 2 5
  | 6 => g.g3.extractLsb' 0 2 ++ g.g4.extractLsb' 5 3
  | _ => g.g4.extractLsb' 0 5

theorem codeAt_groupBits (g : GcrGroup) {k : Nat} (hk : k < 8) :
    codeAt (groupBits g) k = fieldCode g k := by
  apply BitVec.eq_of_toNat_eq
  rw [codeAt_toNat]
  simp only [groupBits, toNat_append_eq]
  interval_cases k <;> simp only [fieldCode, toNat_append_eq, toNat_extract_eq] <;> omega

/-- The five bytes of a group of eight codes, each cut from the codes it spans (R94). -/
def groupFields (c0 c1 c2 c3 c4 c5 c6 c7 : Code) : GcrGroup where
  g0 := c0 ++ c1.extractLsb' 2 3
  g1 := c1.extractLsb' 0 2 ++ c2 ++ c3.extractLsb' 4 1
  g2 := c3.extractLsb' 0 4 ++ c4.extractLsb' 1 4
  g3 := c4.extractLsb' 0 1 ++ c5 ++ c6.extractLsb' 3 2
  g4 := c6.extractLsb' 0 3 ++ c7

theorem groupBits_groupFields (c0 c1 c2 c3 c4 c5 c6 c7 : Code) :
    groupBits (groupFields c0 c1 c2 c3 c4 c5 c6 c7) =
      c0 ++ c1 ++ c2 ++ c3 ++ c4 ++ c5 ++ c6 ++ c7 := by
  apply BitVec.eq_of_toNat_eq
  simp only [groupBits, groupFields, toNat_append_eq, toNat_extract_eq]
  omega

theorem enc4_eq_groupFields (r : RawGroup) :
    enc4 r = groupFields (gcrEnc (hiNibble r.r0)) (gcrEnc (loNibble r.r0))
      (gcrEnc (hiNibble r.r1)) (gcrEnc (loNibble r.r1)) (gcrEnc (hiNibble r.r2))
      (gcrEnc (loNibble r.r2)) (gcrEnc (hiNibble r.r3)) (gcrEnc (loNibble r.r3)) :=
  groupBits_injective ((groupBits_enc4 r).trans (groupBits_groupFields ..).symm)

/-- Settles O10: the sixteen codes by the table, the five bytes by the group's fields. -/
theorem gcrEnc4ByFields : Obligations.GcrEnc4ByFields := by
  refine ⟨by decide, fun r s => ?_⟩
  rw [exec_gcrEnc4, enc4_eq_groupFields]
  rfl

/-! ## Decoding -/

theorem gcrDec_of_not_gcrEnc {c : Code} (h : ∀ n, gcrEnc n ≠ c) : gcrDec c = Config.invNib c := by
  unfold gcrDec
  cases htable : gcrDecTable.getD c.toNat none with
  | none => rfl
  | some n => exact absurd (gcrEnc_of_table htable) (h n)

/-- Settles O11: the code table there and back, the free value, and each code at its place. -/
theorem gcrDec5ByFields : Obligations.GcrDec5ByFields := by
  refine ⟨gcrDec_gcrEnc, fun _ h => gcrDec_of_not_gcrEnc h, fun g s => ?_⟩
  rw [exec_gcrDec5]
  simp only [dec5, rawBytes, groupNibble_eq, codeAt_groupBits g (by decide : 0 < 8),
    codeAt_groupBits g (by decide : 1 < 8), codeAt_groupBits g (by decide : 2 < 8),
    codeAt_groupBits g (by decide : 3 < 8), codeAt_groupBits g (by decide : 4 < 8),
    codeAt_groupBits g (by decide : 5 < 8), codeAt_groupBits g (by decide : 6 < 8),
    codeAt_groupBits g (by decide : 7 < 8)]
  rfl

/-! ## Round trips of a group -/

theorem hiNibble_append_loNibble (b : Byte) : hiNibble b ++ loNibble b = b := by
  apply BitVec.eq_of_toNat_eq
  rw [toNat_append_eq, hiNibble, loNibble, toNat_extract_eq, toNat_extract_eq]
  omega

theorem hiNibble_append (a b : Nibble) : hiNibble (a ++ b) = a := by
  apply BitVec.eq_of_toNat_eq
  rw [hiNibble, toNat_extract_eq, toNat_append_eq]
  omega

theorem loNibble_append (a b : Nibble) : loNibble (a ++ b) = b := by
  apply BitVec.eq_of_toNat_eq
  rw [loNibble, toNat_extract_eq, toNat_append_eq]
  omega

theorem groupNibble_enc4 (r : RawGroup) {k : Nat} (hk : k < 8) :
    groupNibble (enc4 r) k = rawNibble r k := by
  rw [groupNibble_eq, groupBits_enc4, codeAt_groupCodes r hk, gcrDec_gcrEnc]

theorem rawNibble_dec5 (g : GcrGroup) {k : Nat} (hk : k < 8) :
    rawNibble (dec5 g) k = groupNibble g k := by
  interval_cases k <;> simp only [rawNibble, dec5, hiNibble_append, loNibble_append]

theorem dec5_enc4 (r : RawGroup) : dec5 (enc4 r) = r := by
  simp only [dec5, groupNibble_enc4 r (by decide : 0 < 8), groupNibble_enc4 r (by decide : 1 < 8),
    groupNibble_enc4 r (by decide : 2 < 8), groupNibble_enc4 r (by decide : 3 < 8),
    groupNibble_enc4 r (by decide : 4 < 8), groupNibble_enc4 r (by decide : 5 < 8),
    groupNibble_enc4 r (by decide : 6 < 8), groupNibble_enc4 r (by decide : 7 < 8), rawNibble,
    hiNibble_append_loNibble]

/-- Code `k` of a group decoded and encoded again. -/
theorem codeAt_enc4_dec5 (g : GcrGroup) {k : Nat} (hk : k < 8) :
    codeAt (groupBits (enc4 (dec5 g))) k = gcrEnc (gcrDec (codeAt (groupBits g) k)) := by
  rw [groupBits_enc4, codeAt_groupCodes _ hk, rawNibble_dec5 g hk, groupNibble_eq]

/-- Settles O12: code by code, since a group is what its codes say. -/
theorem groupRoundTrip : Obligations.GroupRoundTrip := by
  refine ⟨dec5_enc4, fun g => ⟨fun h k hk => ?_, fun h => ?_⟩⟩
  · have hcode := codeAt_enc4_dec5 g hk
    rw [h] at hcode
    exact ⟨_, hcode.symm⟩
  · refine groupBits_injective (eq_of_codeAt_eq fun k hk => ?_)
    obtain ⟨n, hn⟩ := h k hk
    have hn : gcrEnc n = codeAt (groupBits g) k := hn
    rw [codeAt_enc4_dec5 g hk, ← hn, gcrDec_gcrEnc]

/-! ## Sync bytes -/

theorem gcrEnc_toNat_lt (n : Nibble) : (gcrEnc n).toNat < 31 := by
  revert n; decide

theorem gcrEnc_ends_in_ones_iff (n : Nibble) : (gcrEnc n).toNat % 16 = 15 ↔ n = 5#4 := by
  revert n; decide

theorem gcrEnc_starts_with_ones_iff (n : Nibble) : (gcrEnc n).toNat / 2 = 15 ↔ n = 0xE#4 := by
  revert n; decide

theorem eq_syncByte_iff (b : Byte) : b = syncByte ↔ b.toNat = 255 := BitVec.toNat_inj.symm

/-- Settles O13: a byte that spans a whole code holds a zero, for no code is all ones; the third
byte spans the end of one code and the start of the next. -/
theorem syncByteInsideGroup : Obligations.SyncByteInsideGroup := by
  intro r
  rw [enc4_eq_groupFields]
  simp only [groupFields, ne_eq, eq_syncByte_iff, toNat_append_eq, toNat_extract_eq]
  have h0 := gcrEnc_toNat_lt (hiNibble r.r0)
  have h2 := gcrEnc_toNat_lt (hiNibble r.r1)
  have h5 := gcrEnc_toNat_lt (loNibble r.r2)
  have h7 := gcrEnc_toNat_lt (loNibble r.r3)
  refine ⟨by omega, by omega, by omega, by omega, ?_⟩
  have h3 := gcrEnc_ends_in_ones_iff (loNibble r.r1)
  have h4 := gcrEnc_starts_with_ones_iff (hiNibble r.r2)
  have h4lt := gcrEnc_toNat_lt (hiNibble r.r2)
  show _ ↔ loNibble r.r1 = 5#4 ∧ hiNibble r.r2 = 0xE#4
  rw [← h3, ← h4]
  omega

end Sys2Proof.Machine
end

section
/-! Blocks and sectors (30_encoding section A.4, 40_gcr_codec): the sector image part by part, the
block read group by group, and the round trip of a block that lies on the track. -/

namespace Sys2Proof.Machine

open Sys2Proof

/-! ## The parts of a sector image -/

section Image

variable (track sector id1 id2 : Byte) (payload : List Byte)

/-- The image from the second sync run on. -/
def dataPart : List Byte :=
  List.replicate syncLen syncByte ++
    (encBytes (dataRaw payload) ++ List.replicate tailGapLen gapByte)

theorem sectorImage_eq :
    sectorImage track sector id1 id2 payload =
      List.replicate syncLen syncByte ++ (encBytes (hdrRaw track sector id1 id2) ++
        (List.replicate hdrGapLen gapByte ++ dataPart payload)) := rfl

theorem sectorImage_drop_sync :
    (sectorImage track sector id1 id2 payload).drop 5 =
      encBytes (hdrRaw track sector id1 id2) ++
        (List.replicate hdrGapLen gapByte ++ dataPart payload) := List.drop_left' rfl

theorem sectorImage_drop_header :
    (sectorImage track sector id1 id2 payload).drop 15 =
      List.replicate hdrGapLen gapByte ++ dataPart payload := by
  rw [show 15 = 5 + 10 from rfl, ← List.drop_drop, sectorImage_drop_sync]
  exact List.drop_left' rfl

theorem sectorImage_drop_gap :
    (sectorImage track sector id1 id2 payload).drop 24 = dataPart payload := by
  rw [show 24 = 15 + 9 from rfl, ← List.drop_drop, sectorImage_drop_header]
  exact List.drop_left' rfl

theorem sectorImage_drop_data_sync :
    (sectorImage track sector id1 id2 payload).drop 29 =
      encBytes (dataRaw payload) ++ List.replicate tailGapLen gapByte := by
  rw [show 29 = 24 + 5 from rfl, ← List.drop_drop, sectorImage_drop_gap]
  exact List.drop_left' rfl

variable {payload}

theorem sectorImage_drop_data (h : payload.length = payloadLen) :
    (sectorImage track sector id1 id2 payload).drop 354 = List.replicate tailGapLen gapByte := by
  rw [show 354 = 29 + 325 from rfl, ← List.drop_drop, sectorImage_drop_data_sync]
  exact List.drop_left' (encBytes_dataRaw_length h)

/-- Group `k` of the data block in the image. -/
theorem sectorImage_data_group (h : payload.length = payloadLen) {k : Nat} (hk : k < 65) :
    ((sectorImage track sector id1 id2 payload).drop (29 + 5 * k)).take 5 =
      gcrBytes (enc4 ⟨(dataRaw payload).getD (4 * k) 0, (dataRaw payload).getD (4 * k + 1) 0,
        (dataRaw payload).getD (4 * k + 2) 0, (dataRaw payload).getD (4 * k + 3) 0⟩) := by
  have hraw : (dataRaw payload).length = 260 := dataRaw_length h
  have henc : (encBytes (dataRaw payload)).length = 325 := encBytes_dataRaw_length h
  rw [← List.drop_drop, sectorImage_drop_data_sync, List.drop_append_of_le_length (by omega),
    List.take_append_of_le_length (by rw [List.length_drop]; omega),
    encBytes_drop_take (by omega)]

end Image

/-- Settles O14, part by part of the image. -/
theorem encodeSectorLayout : Obligations.EncodeSectorLayout := by
  intro track sector id1 id2 payload s h
  refine ⟨sectorImage track sector id1 id2 payload, exec_encodeSector .., ?length, ?sync, ?header,
    ?gap, ?dataSync, ?tail, ?data⟩
  case length => exact sectorImage_length track sector id1 id2 h
  case sync => exact List.take_left' rfl
  case header => rw [sectorImage_drop_sync]; exact List.take_left' rfl
  case gap => rw [sectorImage_drop_header]; exact List.take_left' rfl
  case dataSync => rw [sectorImage_drop_gap]; exact List.take_left' rfl
  case tail => exact sectorImage_drop_data track sector id1 id2 h
  case data =>
    rintro k hk raw rfl
    exact sectorImage_data_group track sector id1 id2 h hk

/-! ## Blocks read from the track -/

/-- Settles O15: the length and each group of what 325 bytes of the track decode to. -/
theorem decodeSectorGroupByGroup : Obligations.DecodeSectorGroupByGroup := by
  intro offset s
  refine ⟨_, exec_decodeSector offset s, ?_, fun k hk => ?_⟩
  · rw [decBytes_length, trkReadN_length]; rfl
  · have hin : 5 * k + 5 ≤ gcrBlockLen := by show _ ≤ 325; omega
    rw [decBytes_drop_take (by rw [trkReadN_length]; exact hin), trkReadN_getD s (by omega),
      trkReadN_getD s (by omega), trkReadN_getD s (by omega), trkReadN_getD s (by omega),
      trkReadN_getD s (by omega)]
    rfl

/-- Whole groups are decoded back from their encoding. -/
theorem decBytes_encBytes {raw : List Byte} (h : raw.length % 4 = 0) :
    decBytes (encBytes raw) = raw := by
  fun_induction encBytes raw with
  | case1 a b c d rest ih =>
    rw [decBytes_group, dec5_enc4, ih (by simp only [List.length_cons] at h; omega)]
    rfl
  | case2 raw hshort =>
    rcases raw with _ | ⟨a, _ | ⟨b, _ | ⟨c, _ | ⟨d, rest⟩⟩⟩⟩
    · rfl
    iterate 3 simp at h
    exact absurd rfl (hshort a b c d rest)

/-- What `DECODE_SECTOR` answers where a data block's encoding lies on the track. -/
theorem decBytes_of_holdsAt {payload : List Byte} {o : Nat} {s : State}
    (h : payload.length = payloadLen) (hon : holdsAt s o (encBytes (dataRaw payload))) :
    decBytes (trkReadN s o gcrBlockLen) = dataRaw payload := by
  have hread := trkReadN_of_holdsAt hon
  rw [encBytes_dataRaw_length h] at hread
  rw [hread, decBytes_encBytes (by rw [dataRaw_length h]; rfl)]

/-- Settles O16: the bytes read are the encoding, and whole groups decode back. -/
theorem sectorRoundTripAcrossWrap : Obligations.SectorRoundTripAcrossWrap := by
  intro payload offset s h hon
  rw [exec_decodeSector, decBytes_of_holdsAt h hon]
  rfl

end Sys2Proof.Machine
end

section
/-! The header search (43_sector_locator R190): from candidate to candidate to the first match, its
ends without one, and what any offset it returns means. -/

namespace Sys2Proof.Machine

open Sys2Proof

/-! ## The search finds the first candidate that matches -/

theorem findHeader_found {track sector : Byte} {s : State} {a q : Nat → Nat} {m : Nat}
    (hcand : candidates s a q (m + 1)) (hsync : syncSkipped a q (m + 1) < s.currentTrackSize)
    (hno : ∀ i < m, ¬ headerAt s track sector (q i)) (hmatch : headerAt s track sector (q m)) :
    findHeader s track sector = some ((q m + 5) % s.currentTrackSize) := by
  have hle := candidates_le hcand m (by omega)
  have hlt := (hcand m (by omega)).2.1
  rw [findHeader_after (by omega) (fun i hi => hcand i (by omega))
      (Nat.lt_of_le_of_lt (syncSkipped_le (Nat.le_succ m)) hsync) hno,
    show s.currentTrackSize + 1 - m = s.currentTrackSize - m + 1 by omega,
    headerScan_candidate hcand hsync, if_pos (headerMatches_iff.mpr hmatch)]

/-- Settles O18, by the search's result. -/
theorem headerFoundAcrossTrackEnd : Obligations.HeaderFoundAcrossTrackEnd := by
  intro track sector s a q m hcand hsync hno hmatch
  rw [exec_findSectorHeader, findHeader_found hcand hsync hno hmatch]
  rfl

/-! ## The ends of a search without a match -/

theorem headerScan_at_end {s : State} {track sector : Byte} {a : ScanPoint} (fuel : Nat)
    (h : s.currentTrackSize ≤ a.p ∨ a.wrapped = true) :
    headerScan s track sector fuel a = none := by
  cases fuel with
  | zero => rfl
  | succ fuel => exact if_pos h

theorem findHeader_of_empty {track sector : Byte} {s : State} (h : s.currentTrackSize = 0) :
    findHeader s track sector = none := headerScan_at_end _ (.inl h.le)

section NoMatch

variable {s : State} {track sector : Byte} {a q : Nat → Nat} {m : Nat}

theorem candidatePoint_p (h : searchStart q m < s.currentTrackSize) :
    (candidatePoint s a q m).p = searchStart q m := Nat.mod_eq_of_lt h

/-- The last candidate reached the track end. -/
theorem headerScan_past_end (fuel : Nat) (h : s.currentTrackSize ≤ searchStart q m) :
    headerScan s track sector fuel (candidatePoint s a q m) = none :=
  headerScan_at_end fuel (.inr (decide_eq_true h))

/-- No sync byte is left before the track end. -/
theorem headerScan_no_sync_left (fuel : Nat) (hstart : searchStart q m < s.currentTrackSize)
    (h : ∀ o, searchStart q m ≤ o → o < s.currentTrackSize → trkRead s o ≠ syncByte) :
    headerScan s track sector fuel (candidatePoint s a q m) = none := by
  cases fuel with
  | zero => rfl
  | succ fuel =>
    refine headerScan_no_sync ?_
    rw [candidatePoint_p hstart]
    exact skipToSync_none hstart h

/-- The next run brings the sync bytes of the whole search to the track size. -/
theorem headerScan_sync_guard (fuel : Nat) (hcount : syncSkipped a q m < s.currentTrackSize)
    (hstart : searchStart q m ≤ a m) (hin : a m < s.currentTrackSize)
    (hbefore : ∀ o, searchStart q m ≤ o → o < a m → trkRead s o ≠ syncByte)
    (hrun : ∀ o, a m ≤ o → o < a m + (s.currentTrackSize - syncSkipped a q m) →
      trkRead s o = syncByte) :
    headerScan s track sector fuel (candidatePoint s a q m) = none := by
  cases fuel with
  | zero => rfl
  | succ fuel =>
    refine headerScan_guard (p := a m) ?_ ?_
    · rw [candidatePoint_p (by omega)]
      exact skipToSync_finds hstart hin (hrun _ le_rfl (by omega)) hbefore (by omega)
    · exact skipSyncRun_guard (a := { candidatePoint s a q m with p := a m }) hin
        (fun k hk => hrun _ (Nat.le_add_right ..) (Nat.add_lt_add_left hk _)) hcount

end NoMatch

/-- Settles O19: the search goes on after the candidates that do not match, to one of its ends. -/
theorem headerNotFoundOnKillerTracks : Obligations.HeaderNotFoundOnKillerTracks := by
  intro track sector s a q m hcand hcount hno hend
  suffices h : findHeader s track sector = none by rw [exec_findSectorHeader, h]; rfl
  rcases Nat.eq_zero_or_pos s.currentTrackSize with hz | hz
  · exact findHeader_of_empty hz
  have hsum : syncSkipped a q m < s.currentTrackSize := by
    rcases Nat.eq_zero_or_pos m with rfl | hm
    · exact hz
    · exact hcount hm
  rw [findHeader_after hz hcand hsum hno]
  rcases Nat.lt_or_ge (searchStart q m) s.currentTrackSize with hstart | hpast
  · rcases hend with hpast | hnone | ⟨hle, hin, hbefore, hrun⟩
    · omega
    · exact headerScan_no_sync_left _ hstart hnone
    · exact headerScan_sync_guard _ hsum hle hin hbefore hrun
  · exact headerScan_past_end _ hpast

/-! ## What a found offset means -/

theorem headerScan_sound {s : State} {track sector : Byte} {fuel p : Nat} {a : ScanPoint}
    (h : headerScan s track sector fuel a = some p) :
    ∃ q < s.currentTrackSize, p = (q + 5) % s.currentTrackSize ∧
      trkRead s (prevOff s q) = syncByte ∧ headerAt s track sector q := by
  induction fuel generalizing a with
  | zero => cases h
  | succ fuel ih =>
    by_cases hend : s.currentTrackSize ≤ a.p ∨ a.wrapped = true
    · rw [headerScan_at_end _ hend] at h
      cases h
    · obtain ⟨hp, hw⟩ := not_or.mp hend
      cases hskip : skipToSync s (s.currentTrackSize - a.p) a.p with
      | none => rw [headerScan_no_sync hskip] at h; cases h
      | some o =>
        obtain ⟨ho, hosync⟩ := skipToSync_some (by omega) hskip
        cases hrun : skipSyncRun s (s.currentTrackSize + 1) { a with p := o } with
        | none => rw [headerScan_guard hskip hrun] at h; cases h
        | some b =>
          obtain ⟨hb, _, hprev⟩ := skipSyncRun_some (a := { a with p := o }) ho hrun
          rw [headerScan_round (by omega) (by simpa using hw) hskip hrun hb] at h
          split at h
          · next hm =>
            obtain rfl := Option.some.inj h
            exact ⟨b.p, hb, rfl, hprev hosync, headerMatches_iff.mp hm⟩
          · exact ih h

/-- Settles O20, by what a found offset means. -/
theorem headerResultIsAfterMatchingGroup : Obligations.HeaderResultIsAfterMatchingGroup := by
  intro track sector s
  refine ⟨findHeader s track sector, exec_findSectorHeader track sector s, fun p hp => ?_⟩
  obtain ⟨q, hq, rfl, hprev, hat⟩ := headerScan_sound hp
  exact ⟨Nat.mod_lt _ (by omega), q, hq, rfl, hprev, hat⟩

end Sys2Proof.Machine
end

section
/-! The data search (43_sector_locator R191): a gap and a run of sync bytes, both on the ring, and
the three ways the search finds nothing. -/

namespace Sys2Proof.Machine

open Sys2Proof

/-- A read from an offset of the ring and one from the same offset modulo the track size agree. -/
theorem trkRead_mod_add (s : State) (o k : Nat) :
    trkRead s (o % s.currentTrackSize + k) = trkRead s (o + k) :=
  trkRead_congr_mod (Nat.mod_add_mod ..)

/-- A sync run that ends is shorter than the track. -/
theorem sync_run_lt {s : State} {o run : Nat} (hz : 0 < s.currentTrackSize)
    (hrun : ∀ k < run, trkRead s (o + k) = syncByte) (hend : trkRead s (o + run) ≠ syncByte) :
    run < s.currentTrackSize := by
  by_contra hge
  refine hend ?_
  have hback := hrun (run - s.currentTrackSize) (by omega)
  rwa [← trkRead_add_size, show o + (run - s.currentTrackSize) + s.currentTrackSize = o + run by
    omega] at hback

theorem findData_found {s : State} {o gap run : Nat} (hz : 0 < s.currentTrackSize)
    (hguard : gap < 500) (hpos : 0 < run) (hgap : ∀ k < gap, trkRead s (o + k) ≠ syncByte)
    (hrun : ∀ k < run, trkRead s (o + gap + k) = syncByte)
    (hend : trkRead s (o + gap + run) ≠ syncByte) :
    findData s o = some ((o + gap + run) % s.currentTrackSize) := by
  have hshort := sync_run_lt hz hrun hend
  refine findData_of (p := (o + gap) % s.currentTrackSize) hz ?_ ?_
  · rw [skipGap_finds (gap := gap) hz (fun k hk => by rw [trkRead_mod_add]; exact hgap k hk)
      (by rw [trkRead_mod_add]; exact hrun 0 hpos) (fuel := dataSearchGuard) hguard
      (Nat.mod_lt _ hz), Nat.mod_add_mod]
  · rw [skipDataSync_finds (run := run) hz (fun k hk => by rw [trkRead_mod_add]; exact hrun k hk)
      (by rw [trkRead_mod_add]; exact hend) hshort (Nat.mod_lt _ hz), Nat.mod_add_mod]

/-- Settles O21, by the search's result. -/
theorem findDataReturnsEndOfSyncRun : Obligations.FindDataReturnsEndOfSyncRun := by
  intro offset s gap run hz hguard hpos hgap hrun hend
  rw [exec_findSectorData, findData_found hz hguard hpos hgap hrun hend]
  rfl

theorem findData_of_empty {s : State} (o : Nat) (h : s.currentTrackSize = 0) :
    findData s o = none := if_pos h

theorem findData_of_long_gap {s : State} {o : Nat} (hz : 0 < s.currentTrackSize)
    (h : ∀ k < 500, trkRead s (o + k) ≠ syncByte) : findData s o = none := by
  have hgap : skipGap s dataSearchGuard (o % s.currentTrackSize) = none :=
    skipGap_none fun k hk => by rw [trkRead_mod_add]; exact h k hk
  rw [findData, if_neg (by omega), hgap]

theorem findData_of_all_sync {s : State} {o : Nat} (hz : 0 < s.currentTrackSize)
    (h : ∀ o, trkRead s o = syncByte) : findData s o = none :=
  findData_of hz (skipGap_finds (gap := 0) hz (by omega) (h _) (by decide) (Nat.mod_lt _ hz))
    (skipDataSync_none h)

/-- Settles O22: the empty track, the long gap and the track that is all sync. -/
theorem findDataGuards : Obligations.FindDataGuards := by
  intro offset s hcase
  suffices h : findData s offset.toNat = none by rw [exec_findSectorData, h]; rfl
  rcases Nat.eq_zero_or_pos s.currentTrackSize with hz | hz
  · exact findData_of_empty _ hz
  · rcases hcase with hempty | hgap | hall
    · omega
    · exact findData_of_long_gap hz hgap
    · exact findData_of_all_sync hz (trkRead_all_sync hall)

end Sys2Proof.Machine
end

section
/-! READ_SECTOR end to end (30_encoding part C): the sector image's parts on the ring, which the two
searches and the decoder meet one after the other. -/

namespace Sys2Proof.Machine

open Sys2Proof

/-! ## What lies on the ring -/

theorem holdsAt_mod {s : State} {o : Nat} {bs : List Byte} (h : holdsAt s o bs) :
    holdsAt s (o % s.currentTrackSize) bs := fun k hk => by rw [trkRead_mod_add, h k hk]

theorem groupAt_of_holdsAt {s : State} {o : Nat} {g : GcrGroup} (h : holdsAt s o (gcrBytes g)) :
    groupAt s o = g := by
  have hbyte : ∀ k < 5, trkRead s (o + k) = (gcrBytes g).getD k 0 := h
  have h0 : trkRead s o = g.g0 := hbyte 0 (by decide)
  have h1 : trkRead s (o + 1) = g.g1 := hbyte 1 (by decide)
  have h2 : trkRead s (o + 2) = g.g2 := hbyte 2 (by decide)
  have h3 : trkRead s (o + 3) = g.g3 := hbyte 3 (by decide)
  have h4 : trkRead s (o + 4) = g.g4 := hbyte 4 (by decide)
  rw [groupAt, h0, h1, h2, h3, h4]

/-- The parts of a sector image on the ring, each at its place. -/
theorem holdsAt_sectorImage {track sector id1 id2 : Byte} {payload : List Byte} {s : State}
    {b : Nat} (h : holdsAt s b (sectorImage track sector id1 id2 payload)) :
    holdsAt s (b + 5) (gcrBytes (enc4 ⟨hdrMarker, hdrCk track sector id1 id2, sector, track⟩)) ∧
      holdsAt s (b + 10) (gcrBytes (enc4 ⟨id1, id2, hdrPad, hdrPad⟩)) ∧
      holdsAt s (b + 15) (List.replicate hdrGapLen gapByte) ∧
      holdsAt s (b + 24) (List.replicate syncLen syncByte) ∧
      holdsAt s (b + 29) (encBytes (dataRaw payload)) := by
  obtain ⟨_, hfromHeader⟩ := holdsAt_append (sectorImage_eq .. ▸ h)
  obtain ⟨hheader, hfromGap⟩ := holdsAt_append hfromHeader
  obtain ⟨hgap, hfromSync⟩ := holdsAt_append hfromGap
  obtain ⟨hsync, hfromData⟩ := holdsAt_append hfromSync
  obtain ⟨hdata, _⟩ := holdsAt_append hfromData
  obtain ⟨hfirst, hsecond⟩ := holdsAt_append (as := gcrBytes (enc4 ⟨hdrMarker, _, _, _⟩)) hheader
  exact ⟨hfirst, hsecond, hgap, hsync, hdata⟩

/-! ## From the header to the data block -/

/-- The second group of a header holds no sync byte: its third byte would need the padding's high
nibble to be 0xE. -/
theorem gcrBytes_header_padding_ne_sync (id1 id2 : Byte) {k : Nat} (hk : k < 5) :
    (gcrBytes (enc4 ⟨id1, id2, hdrPad, hdrPad⟩)).getD k 0 ≠ syncByte := by
  obtain ⟨h0, h1, h3, h4, h2⟩ := syncByteInsideGroup ⟨id1, id2, hdrPad, hdrPad⟩
  have h2 : (enc4 ⟨id1, id2, hdrPad, hdrPad⟩).g2 ≠ syncByte := fun e =>
    absurd (h2.mp e).2 (by decide : hdrPad.extractLsb' 4 4 ≠ 0xE#4)
  interval_cases k
  · exact h0
  · exact h1
  · exact h2
  · exact h3
  · exact h4

/-- The encoding of a data block begins with no sync byte. -/
theorem encBytes_dataRaw_first_ne_sync {payload : List Byte} (h : payload.length = payloadLen) :
    (encBytes (dataRaw payload)).getD 0 0 ≠ syncByte := by
  rcases payload with _ | ⟨p0, _ | ⟨p1, _ | ⟨p2, rest⟩⟩⟩
  iterate 3 simp [payloadLen] at h
  exact (syncByteInsideGroup ⟨dataMarker, p0, p1, p2⟩).1

theorem trkRead_of_holdsAt_replicate {s : State} {o n : Nat} {v : Byte}
    (h : holdsAt s o (List.replicate n v)) {k : Nat} (hk : k < n) : trkRead s (o + k) = v := by
  rw [h k (by rwa [List.length_replicate])]
  simp [List.getD, hk]

section Stored

variable {track sector id1 id2 : Byte} {payload : List Byte} {s : State} {b : Nat}

/-- The first group of a stored header matches. -/
theorem headerAt_of_stored (h : holdsAt s b (sectorImage track sector id1 id2 payload)) {o : Nat}
    (ho : o % s.currentTrackSize = (b + 5) % s.currentTrackSize) : headerAt s track sector o := by
  obtain ⟨hheader, _⟩ := holdsAt_sectorImage h
  rw [← headerMatches_iff, ← groupAt_mod, ho, groupAt_mod, groupAt_of_holdsAt hheader, dec5_enc4]
  simp [headerMatches]

/-- From the header's second group on, the data search meets 14 bytes that are no sync bytes, then
the 5 of the run before the data block. -/
theorem findData_of_stored (h : holdsAt s b (sectorImage track sector id1 id2 payload))
    (hlen : payload.length = payloadLen) (hz : 0 < s.currentTrackSize) :
    findData s ((b + 10) % s.currentTrackSize) = some ((b + 29) % s.currentTrackSize) := by
  obtain ⟨_, hpad, hgap, hsync, hdata⟩ := holdsAt_sectorImage h
  have hread : ∀ k, trkRead s ((b + 10) % s.currentTrackSize + k) = trkRead s (b + 10 + k) :=
    trkRead_mod_add s (b + 10)
  rw [findData_found (gap := 14) (run := 5) hz (by omega) (by omega) ?gap ?run ?data]
  · rw [Nat.add_assoc, Nat.mod_add_mod]
  case gap =>
    intro k hk
    rw [hread]
    rcases Nat.lt_or_ge k 5 with hk5 | hk5
    · rw [hpad k hk5]
      exact gcrBytes_header_padding_ne_sync id1 id2 hk5
    · have hin : k - 5 < hdrGapLen := by show k - 5 < 9; omega
      rw [show b + 10 + k = b + 15 + (k - 5) by omega, trkRead_of_holdsAt_replicate hgap hin]
      decide
  case run =>
    intro k hk
    rw [Nat.add_assoc, hread, show b + 10 + (14 + k) = b + 24 + k by omega,
      trkRead_of_holdsAt_replicate hsync (show k < syncLen from hk)]
  case data =>
    rw [Nat.add_assoc, hread, show b + 10 + (14 + 5) = b + 29 + 0 by omega,
      hdata 0 (by rw [encBytes_dataRaw_length hlen]; decide)]
    exact encBytes_dataRaw_first_ne_sync hlen

end Stored

/-- An offset on a track fits a 32-bit operand. -/
theorem toNat_ofNat_offset {o size : Nat} (hz : 0 < size) (hsize : size ≤ 7928) :
    (BitVec.ofNat 32 (o % size)).toNat = o % size := by
  have := Nat.mod_lt o hz
  rw [BitVec.toNat_ofNat, Nat.mod_eq_of_lt (by omega)]

/-- Settles O17: the header search's first match is the stored header, the data search goes from it
to the stored block, which decodes back. -/
theorem readSectorReturnsStoredSector : Obligations.ReadSectorReturnsStoredSector := by
  intro track sector id1 id2 payload s b m a q hlen hmin hmax hon hcand hsync hno hq
  have hz : 0 < s.currentTrackSize := by omega
  have hheader : findHeader s track sector = some ((b + 10) % s.currentTrackSize) := by
    rw [findHeader_found hcand hsync hno (headerAt_of_stored hon hq), ← Nat.mod_add_mod, hq,
      Nat.mod_add_mod]
  have hdata := findData_of_stored hon hlen hz
  rw [← toNat_ofNat_offset hz hmax (o := b + 10)] at hdata
  obtain ⟨_, _, _, _, hblock⟩ := holdsAt_sectorImage hon
  have hdecode : decBytes (trkReadN s (BitVec.ofNat 32 ((b + 29) % s.currentTrackSize)).toNat
      gcrBlockLen) = dataRaw payload := by
    rw [toNat_ofNat_offset hz hmax]
    exact decBytes_of_holdsAt hlen (holdsAt_mod hblock)
  refine ⟨?_, ?_, ?_⟩
  · rw [exec_findSectorHeader, hheader]; rfl
  · rw [exec_findSectorData, hdata]; rfl
  · show runReadSector track sector s = _
    rw [runReadSector_eq, hheader]
    simp only [hdata, execDecodeSector, hdecode]
    rfl

/-- Settles O57: each expansion is the operation it lists, and READ_SECTOR goes on as long as the
locates find something. -/
theorem pseudoOperationsExpand : Obligations.PseudoOperationsExpand := by
  refine ⟨fun _ _ => rfl, fun _ => ⟨rfl, rfl⟩, fun _ _ => rfl, fun _ _ => ⟨rfl, rfl, rfl, rfl⟩, ?_⟩
  intro track sector s
  have hrun : runPseudo (.readSector track sector) s = _ := runReadSector_eq track sector s
  refine ⟨findHeader s track sector, exec_findSectorHeader .., fun hnone => ?_, fun h hh => ?_⟩
  · rw [hrun, hnone]
    rfl
  · rw [hh] at hrun
    refine ⟨findData s (BitVec.ofNat 32 h).toNat, exec_findSectorData .., fun hnone => ?_,
      fun d hd => ?_⟩
    · rw [hrun]
      simp only [hnone]
      rfl
    · rw [hrun]
      simp only [hd]
      rfl

end Sys2Proof.Machine
end

section
/-! The Track Store's operations (20_memory, 41_track_store): head movements, single bytes through
the current window, and whole slots loaded, read and cleared. -/

namespace Sys2Proof.Machine

open Sys2Proof

/-! ## Head movements -/

/-- Settles O24: each movement is `positionHead`, whose clamp is to [2, 84]. -/
theorem headMovementsClampAndCache : Obligations.HeadMovementsClampAndCache := by
  refine ⟨fun n s => ?_, fun step s => ?_, fun s => rfl⟩
  · obtain ⟨hlow, hhigh⟩ := clampHalfTrack_range (intOf32 n)
    exact ⟨_, hlow, hhigh, clampHalfTrack_eq _, exec_setHalfTrack n s⟩
  · obtain ⟨hlow, hhigh⟩ := clampHalfTrack_range (s.currentHalfTrack + intOf32 step)
    exact ⟨_, hlow, hhigh, clampHalfTrack_eq _, exec_moveHead step s⟩

/-! ## Single bytes -/

/-- Settles O25: a read is `TrkRead`, by the two cases of the cached size. -/
theorem readByteAtReadsWindow : Obligations.ReadByteAtReadsWindow := by
  refine fun offset s => ⟨fun hz => ?_, fun hz => ?_⟩
  · rw [exec_readByteAt, trkRead_of_empty hz]
    rfl
  · rw [exec_readByteAt, trkRead_of_pos hz]
    rfl

/-- Settles O26: the frame of `TrkWrite`, the byte it stores and the ones it does not. -/
theorem writeByteAtFrame : Obligations.WriteByteAtFrame := by
  intro offset value s hw
  refine ⟨_, exec_writeByteAt offset value s, rfl, fun hz => ?_, fun a ha => ?_⟩
  · exact memRead_trkWrite_self hw hz
  · exact memRead_trkWrite_ne ha

/-! ## Whole slots -/

theorem isTrack_of_range {t : Byte} (h1 : 1 ≤ t.toNat) (h42 : t.toNat ≤ 42) : isTrack t = true :=
  (isTrack_iff t).mpr ⟨h1, h42⟩

theorem someBadZone_false {zones : List Byte} (h : ∀ z ∈ zones, z.toNat ≤ 3) :
    someBadZone zones = false := by
  rw [← Bool.not_eq_true, someBadZone_iff]
  rintro ⟨z, hz, hbad⟩
  exact absurd (h z hz) (by omega)

/-- A load whose checks all pass. -/
theorem exec_tsLoadTrack_ok {t : Byte} {size : U16} {data zones : List Byte} (s : State)
    (h1 : 1 ≤ t.toNat) (h42 : t.toNat ≤ 42) (hsize : size.toNat ≤ 7928)
    (hzones : ∀ z ∈ zones, z.toNat ≤ 3) :
    exec (.tsLoadTrack t size data zones) s =
      .next (respond .noValue (loadTrack t.toNat size.toNat data zones s)) := by
  have htrack := isTrack_of_range h1 h42
  have hzone := someBadZone_false fun z hz => hzones z (List.mem_of_mem_take (i := size.toNat) hz)
  rw [exec_tsLoadTrack, if_neg (by rw [htrack]; decide),
    if_neg (show ¬ maxBytesPerTrack < size.toNat from Nat.not_lt.mpr hsize),
    if_neg (by rw [hzone]; decide)]

section Loaded

variable {m : Memory} {t : Nat} {bs : List Byte}

theorem memRead_slot_in {k : Nat} (hk : k < 7928) :
    memRead (memLoadSlot m (slotBase t) bs) ((t - 1) * 7928 + k) = bs.getD k 0 :=
  memRead_memLoadSlot_in hk

theorem memRead_slot_out {a : Nat} (hlen : bs.length ≤ 7928) (h1 : 1 ≤ t)
    (ha : a < (t - 1) * 7928 ∨ t * 7928 ≤ a) :
    memRead (memLoadSlot m (slotBase t) bs) a = memRead m a :=
  memRead_memLoadSlot_out hlen (ha.imp id fun h => (slotBase_end h1).trans_le h)

end Loaded

/-- Settles O27: the slot inside and outside in both byte spaces, and the sizes. -/
theorem loadTrackFillsSlot : Obligations.LoadTrackFillsSlot := by
  intro t size data zones s hdata hzones h1 h42 hsize hlegal
  have hd : data.take size.toNat = data := List.take_of_length_le (by omega)
  have hz : zones.take size.toNat = zones := List.take_of_length_le (by omega)
  refine ⟨_, exec_tsLoadTrack_ok s h1 h42 hsize hlegal, rfl, fun k hk => ?_, fun a ha => ?_,
    loadTrack_size (data := data) (zones := zones) h1 h42,
    fun k hk1 _ hne => loadTrack_size_other (data := data) (zones := zones) h1 hk1 hne⟩
  all_goals rw [respond_gcrData, respond_speedZone, loadTrack_gcrData, loadTrack_speedZone, hd, hz]
  · exact ⟨memRead_slot_in hk, memRead_slot_in hk⟩
  · exact ⟨memRead_slot_out (by omega) h1 ha, memRead_slot_out (by omega) h1 ha⟩

/-- Settles O28: the checks in their order. -/
theorem trackRequestsTurnedAway : Obligations.TrackRequestsTurnedAway := by
  refine ⟨fun t size data zones s h => ?track, fun t size data zones s h1 h42 hsize => ?size,
    fun t size data zones s hlen h1 h42 hsize hbad => ?zone⟩
  case track =>
    have htrack := (isTrack_false_iff t).mpr h
    rw [exec_tsLoadTrack, exec_tsReadTrack, if_pos htrack, if_pos htrack]
    exact ⟨rfl, rfl⟩
  case size =>
    rw [exec_tsLoadTrack, if_neg (by rw [isTrack_of_range h1 h42]; decide),
      if_pos (show maxBytesPerTrack < size.toNat from hsize)]
    rfl
  case zone =>
    have hzone : someBadZone (zones.take size.toNat) = true := by
      rw [List.take_of_length_le (by omega)]
      exact (someBadZone_iff zones).mpr hbad
    rw [exec_tsLoadTrack, if_neg (by rw [isTrack_of_range h1 h42]; decide),
      if_neg (show ¬ maxBytesPerTrack < size.toNat from Nat.not_lt.mpr hsize), if_pos hzone]
    rfl

/-- Settles O30: the two byte spaces emptied, the sizes zeroed, and the frame. -/
theorem clearZeroesTrackStore : Obligations.ClearZeroesTrackStore := fun s =>
  ⟨_, exec_tsClear s, rfl, fun _ => ⟨rfl, rfl⟩, fun k => getD_replicate (k - 1)⟩

/-- Settles O33: the slots are read whole. -/
theorem readTrackReturnsSlot : Obligations.ReadTrackReturnsSlot := by
  intro t s h1 h42
  refine ⟨memReadN s.gcrData (slotBase t.toNat) maxBytesPerTrack,
    memReadN s.speedZone (slotBase t.toNat) maxBytesPerTrack, ?_, memReadN_length ..,
    memReadN_length .., fun k hk => ⟨memReadN_getD hk, memReadN_getD hk⟩⟩
  rw [exec_tsReadTrack, if_neg (by rw [isTrack_of_range h1 h42]; decide)]
  rfl

/-! ## The stale cache -/

/-- A head movement to a whole track lands on it. -/
theorem clampHalfTrack_of_track {half : U32} {t : Nat} (h1 : 1 ≤ t) (h42 : t ≤ 42)
    (hhalf : half.toNat = 2 * t) : clampHalfTrack (intOf32 half) = 2 * t := by
  have hint : intOf32 half = (half.toNat : Int) := BitVec.toInt_eq_toNat_of_lt (by omega)
  have hclamp := clampHalfTrack_eq (intOf32 half)
  omega

/-- Slots of different tracks do not meet. -/
theorem slots_disjoint {t t' k : Nat} (h1 : 1 ≤ t) (h1' : 1 ≤ t') (hne : t' ≠ t) (hk : k < 7928) :
    slotBase t' + k < (t - 1) * 7928 ∨ t * 7928 ≤ slotBase t' + k := by
  rw [slotBase_eq]
  omega

section Stale

variable {u : State} {m : Memory} {t size : Nat} {bs : List Byte}

/-- What the head reads on a track whose slot has been loaded, modulo the cached size. -/
theorem trkRead_of_loaded (hdata : u.gcrData = memLoadSlot m (slotBase t) bs)
    (htrack : u.currentHalfTrack / 2 = t) (hcached : u.currentTrackSize = size) (hz : 0 < size)
    (hsize : size ≤ 7928) (o : Nat) : trkRead u o = bs.getD (o % size) 0 := by
  subst hcached
  have hoff := Nat.mod_lt o hz
  rw [trkRead_of_pos hz, hdata, show curBase u = slotBase t from congrArg slotBase htrack]
  exact memRead_memLoadSlot_in (by rw [maxBytesPerTrack_eq]; omega)

/-- Loading another track leaves what the head reads. -/
theorem trkRead_of_loaded_other {s : State}
    (hdata : u.gcrData = memLoadSlot s.gcrData (slotBase t) bs) (hlen : bs.length ≤ 7928)
    (hhalf : u.currentHalfTrack = s.currentHalfTrack)
    (hcached : u.currentTrackSize = s.currentTrackSize) (h1 : 1 ≤ t) (hhead : s.headInRange)
    (hsize : s.currentTrackSize ≤ 7928) (hne : s.currentHalfTrack / 2 ≠ t) (o : Nat) :
    trkRead u o = trkRead s o := by
  rcases Nat.eq_zero_or_pos s.currentTrackSize with hz | hz
  · rw [trkRead_of_empty hz, trkRead_of_empty (hcached.trans hz)]
  · have hoff := Nat.mod_lt o hz
    have htrack : 1 ≤ s.currentHalfTrack / 2 := by have := hhead.1; omega
    rw [trkRead_of_pos hz, trkRead_of_pos (hcached ▸ hz), hdata, hcached, curBase_congr hhalf]
    exact memRead_slot_out hlen h1 (slots_disjoint h1 htrack hne (by omega))

end Stale

theorem exec_readByteAt_of_trkRead {offset : U32} {s : State} {b : Byte}
    (h : trkRead s offset.toNat = b) :
    exec (.readByteAt offset) s = .next { s with response := .ok (.u8 b) } := by
  rw [exec_readByteAt, h]
  rfl

/-- Settles O29: what the head reads on the loaded and on another track, under the old cached size
and under the new one. -/
theorem loadedTrackReadsBackAfterCacheRefresh :
    Obligations.LoadedTrackReadsBackAfterCacheRefresh := by
  intro t size data zones s u v offset half hdata hzones h1 h42 hsize hlegal hhalf hu hv
  rw [exec_tsLoadTrack_ok s h1 h42 hsize hlegal] at hu
  rw [exec_setHalfTrack] at hv
  have hu := (Host.Outcome.next.inj hu).symm
  have hv := (Host.Outcome.next.inj hv).symm
  have hclamp := clampHalfTrack_of_track h1 h42 hhalf
  have hucached : u.currentTrackSize = s.currentTrackSize := by rw [hu]; rfl
  have huhalf : u.currentHalfTrack = s.currentHalfTrack := by rw [hu]; rfl
  have hudata : u.gcrData = memLoadSlot s.gcrData (slotBase t.toNat) data := by
    rw [hu, respond_gcrData, loadTrack_gcrData, List.take_of_length_le (by omega)]
  have husize : trackSizeOf u t.toNat = size.toNat := by
    rw [hu]
    exact loadTrack_size (data := data) (zones := zones) h1 h42
  have hvdata : v.gcrData = memLoadSlot s.gcrData (slotBase t.toNat) data := by
    rw [hv]
    exact hudata
  have hvhalf : v.currentHalfTrack / 2 = t.toNat := by
    rw [hv, respond_currentHalfTrack, positionHead_currentHalfTrack, hclamp]
    omega
  have hvcached : v.currentTrackSize = size.toNat := by
    rw [hv, respond_currentTrackSize, positionHead_currentTrackSize, hclamp,
      Nat.mul_div_cancel_left _ (by decide), husize]
  refine ⟨hucached, fun hz => ?_, fun hz hcap htrack => ?_, fun hhead hcap hne => ?_,
    fun hz => ?_, fun hz => ?_⟩ <;> apply exec_readByteAt_of_trkRead
  · exact trkRead_of_empty (hucached.trans hz) _
  · exact trkRead_of_loaded hudata (by rw [huhalf, htrack]) hucached hz hcap _
  · exact trkRead_of_loaded_other hudata (by omega) huhalf hucached h1 hhead hcap hne _
  · exact trkRead_of_empty (hvcached.trans hz) _
  · exact trkRead_of_loaded hvdata hvhalf hvcached hz hsize _

end Sys2Proof.Machine
end

section
/-! Time turned into bits (42_rotation_engine sections 1 and 2): the rotation table's error, and the
chunks of an integration, each of which conserves bits and fraction together. -/

namespace Sys2Proof.Machine

open Sys2Proof

/-- Settles O34: the entry is two floors, the second of the first one's remainder. -/
theorem rotationTableNeverOvercounts : Obligations.RotationTableNeverOvercounts := by
  intro z j
  simp only [tBits, tFrac, clockHz, accumMax]
  generalize j * zoneBps z = scaled
  omega

/-- A table entry in units of 1/`ACCUM_MAX` bit. -/
def entryUnits (z : BitVec 2) (j : Nat) : Nat := tBits z j * accumMax + tFrac z j

/-- Bits and fraction together, in units of 1/`ACCUM_MAX` bit. -/
def totalUnits (r : Nat × Nat) : Nat := r.1 * accumMax + r.2

theorem entryUnits_zero (z : BitVec 2) : entryUnits z 0 = 0 := by
  simp [entryUnits, tBits, tFrac]

theorem totalUnits_applyEntry (z : BitVec 2) (j : Nat) (r : Nat × Nat) :
    totalUnits (applyEntry z j r) = totalUnits r + entryUnits z j := applyEntry_conserves z j r

theorem chunk_of_le {d : Nat} (h : d ≤ 4095) : chunk d = d :=
  if_neg (by show ¬ 4096 ≤ d; omega)

theorem chunk_of_gt {d : Nat} (h : 4095 < d) : chunk d = 4095 := if_pos h

/-- The loop applies whole chunks of 4095 ticks and one entry for the rest. -/
theorem totalUnits_integrateLoop (z : BitVec 2) {fuel d : Nat} (r : Nat × Nat)
    (hfuel : d ≤ 4095 * fuel) :
    totalUnits (integrateLoop z fuel d r) =
      totalUnits r + (d - 1) / 4095 * entryUnits z 4095 +
        entryUnits z (d - 4095 * ((d - 1) / 4095)) := by
  induction fuel generalizing d r with
  | zero =>
    obtain rfl : d = 0 := by omega
    simp [integrateLoop_zero, entryUnits_zero]
  | succ fuel ih =>
    rcases Nat.eq_zero_or_pos d with rfl | hd
    · simp [integrateLoop_zero, entryUnits_zero]
    rw [integrateLoop_succ z fuel r hd]
    rcases Nat.lt_or_ge 4095 d with hlong | hshort
    · have hcount : (d - 1) / 4095 = (d - 4095 - 1) / 4095 + 1 := by omega
      have hrest : d - 4095 * ((d - 4095 - 1) / 4095 + 1) =
          d - 4095 - 4095 * ((d - 4095 - 1) / 4095) := by omega
      rw [chunk_of_gt hlong, ih _ (by omega), totalUnits_applyEntry, hcount, hrest,
        Nat.add_one_mul ((d - 4095 - 1) / 4095)]
      omega
    · rw [chunk_of_le hshort, Nat.sub_self, integrateLoop_zero, totalUnits_applyEntry,
        show (d - 1) / 4095 = 0 by omega]
      simp

/-- Settles O35: the loop from no bits and the accumulator, with fuel for every chunk. -/
theorem integrateConservesBits : Obligations.IntegrateConservesBits := by
  intro z delta accum haccum
  have hunits := totalUnits_integrateLoop z (fuel := delta / 4095 + 1) (d := delta) (0, accum)
    (by omega)
  rw [show totalUnits (0, accum) = accum by simp [totalUnits]] at hunits
  exact ⟨integrate_accum_lt z delta haccum, hunits, integrate_zero z accum⟩

end Sys2Proof.Machine
end

section
/-! What an advance does in each mode and across a mode flip (42_rotation_engine sections 2 and 6):
the whole bytes counted once, the runs of commits by their laws, and the re-arm after them. -/

namespace Sys2Proof.Machine

open Sys2Proof

/-! ## No byte passes -/

theorem rotating_eq_true {s : State} (hmotor : s.motorOn = true)
    (henable : s.byteReadyEnable = true) : rotating s = true := by
  rw [rotating, hmotor, henable]
  rfl

theorem rotating_eq_false {s : State} (h : s.motorOn = false ∨ s.byteReadyEnable = false) :
    rotating s = false := by
  rw [rotating, Bool.and_eq_false_iff]
  exact h

/-- Settles O37: the signal's one write, and the idle engine. -/
theorem advanceSignalAndIdle : Obligations.AdvanceSignalAndIdle := by
  refine ⟨fun delta s => ?_, fun delta s hidle => ?_⟩
  · rw [exec_advance, advanceCore_signal]
    rfl
  · rw [exec_advance, advanceCore_idle (rotating_eq_false hidle)]
    rfl

theorem integrateInto_zero (s : State) : integrateInto 0 s = s := by
  simp only [integrateInto, integrate_zero, Nat.add_zero]

/-- Over no ticks an engine with less than a byte pending stays where it is. -/
theorem advanceCore_zero {s : State} (h : rotating s = true → s.bitsMoved < 8) :
    advanceCore 0 false s = s := by
  cases hr : rotating s with
  | false => exact advanceCore_idle hr
  | true => rw [advanceCore_below hr (by rw [integrateInto_zero]; exact h hr), integrateInto_zero]

/-- Settles O38: below one byte an advance only counts, and over no ticks it counts nothing. -/
theorem advanceBelowOneByte : Obligations.AdvanceBelowOneByte := by
  refine ⟨fun delta s hmotor henable hbits => ?_, fun s hbits => ?_⟩
  · rw [exec_advance, advanceCore_below (rotating_eq_true hmotor henable) hbits]
    rfl
  · rw [exec_advance, show (0 : U32).toNat = 0 from rfl,
      advanceCore_zero fun _ => Nat.lt_succ_of_le hbits]
    rfl

/-! ## A run of commits and its re-arm, in each mode -/

theorem reArm_of_read {s : State} (h : s.readWriteMode = .read) :
    reArm s = { s with byteReady := s.byteReady || trkRead s s.headOffset != syncByte } := by
  rw [reArm, armsByteReady, h]
  rfl

theorem reArm_of_write {s : State} (h : s.readWriteMode = .write) :
    reArm s = { s with byteReady := true } := by
  have harms : armsByteReady s = true := by rw [armsByteReady, h]; rfl
  rw [reArm, harms, Bool.or_true]

theorem reArm_commitLoop_read {s : State} (h : s.readWriteMode = .read) :
    reArm (commitLoop (s.bitsMoved / 8) s) = { s with
      headOffset := headAfter s (s.bitsMoved / 8)
      gcrRead :=
        if s.bitsMoved < 8 then s.gcrRead else trkRead s (s.headOffset + s.bitsMoved / 8)
      bitsMoved := s.bitsMoved % 8
      byteReady := s.byteReady || trkRead s (s.headOffset + s.bitsMoved / 8) != syncByte } := by
  rw [reArm_of_read ((commitLoop_frame_mode _ s).trans h), commitLoop_read_eq h le_rfl,
    ← trkRead_headAfter]
  rfl

theorem reArm_commitLoop_write {s : State} (h : s.readWriteMode = .write) :
    reArm (commitLoop (s.bitsMoved / 8) s) = { s with
      gcrData := (commitLoop (s.bitsMoved / 8) s).gcrData
      dirty := s.dirty || decide (8 ≤ s.bitsMoved)
      headOffset := headAfter s (s.bitsMoved / 8)
      bitsMoved := s.bitsMoved % 8
      byteReady := true } := by
  rw [reArm_of_write ((commitLoop_frame_mode _ s).trans h)]
  conv_lhs => rw [commitLoop_write_eq h le_rfl]

/-! ## Every byte in one mode -/

theorem exec_advance_of_core {delta : U32} {s t : State}
    (h : advanceCore delta.toNat false s = t) :
    exec (.advance delta false) s = .next (respond .noValue t) := by
  rw [exec_advance, h]

/-- Settles O39: one run of Read commits. -/
theorem advanceInReadMode : Obligations.AdvanceInReadMode := by
  intro delta s hmotor henable hmode hone total k htotal hk hpos
  have hbits : (integrateInto delta.toNat s).bitsMoved = total := htotal.symm
  have hrun := reArm_commitLoop_read (s := integrateInto delta.toNat s) hmode
  rw [hbits, ← hk, headAfter_integrateInto, headAfter_pos s hpos,
    if_neg (show ¬ total < 8 by omega)] at hrun
  rw [exec_advance, advanceCore_oneMode (rotating_eq_true hmotor henable) (by omega)
    (by rw [hmode]; exact hone), hbits, ← hk, hrun]
  rfl

/-- Settles O40: one run of Write commits. -/
theorem advanceInWriteMode : Obligations.AdvanceInWriteMode := by
  intro delta s hmotor henable hmode hone hw total k htotal hk hpos
  have hbits : (integrateInto delta.toNat s).bitsMoved = total := htotal.symm
  have hrun := reArm_commitLoop_write (s := integrateInto delta.toNat s) hmode
  obtain ⟨hstored, hothers⟩ :=
    commitLoop_write_mem (s := integrateInto delta.toNat s) hmode le_rfl hw
  rw [hbits, ← hk] at hstored hothers
  rw [hbits, ← hk, headAfter_integrateInto, headAfter_pos s hpos,
    decide_eq_true (show 8 ≤ total by omega), Bool.or_true] at hrun
  have hcore := advanceCore_oneMode (delta := delta.toNat) (rotating_eq_true hmotor henable)
    (by omega) (by rw [hmode]; exact hone)
  rw [hbits, ← hk, hrun] at hcore
  exact ⟨_, exec_advance_of_core hcore, rfl, hstored, hothers⟩

/-! ## Across a mode flip -/

/-- The state after the pending byte of a flip: one commit under the previous mode. -/
def afterFlip (s : State) : State :=
  { commit s.lastMode s with finishByte := false, lastMode := s.readWriteMode }

theorem advanceCore_flip {delta : Nat} {s : State} (hr : rotating s = true)
    (hflip : s.finishByte = true) (hb : 8 ≤ (integrateInto delta s).bitsMoved) :
    advanceCore delta false s = reArm (commitLoop
      ((afterFlip (integrateInto delta s)).bitsMoved / 8) (afterFlip (integrateInto delta s))) := by
  rw [advanceCore_bytes hr hb, finishPending_some (s := integrateInto delta s) hflip]
  rfl

theorem afterFlip_bitsMoved (s : State) : (afterFlip s).bitsMoved = s.bitsMoved - 8 :=
  commit_bitsMoved s.lastMode s

theorem afterFlip_headOffset (s : State) : (afterFlip s).headOffset = nextOff s s.headOffset :=
  commit_headOffset s.lastMode s

theorem afterFlip_readWriteMode (s : State) : (afterFlip s).readWriteMode = s.readWriteMode := by
  show (commit s.lastMode s).readWriteMode = _
  rw [commit_eq]

theorem headAfter_afterFlip (s : State) (k : Nat) :
    headAfter (afterFlip s) k = headAfter s (k + 1) := headAfter_succ s k s.lastMode

/-- The places after a flip's first byte are those of the run, one further on. -/
theorem afterFlip_place {s : State} (hz : 0 < s.currentTrackSize) (j : Nat) :
    ((afterFlip s).headOffset + j) % s.currentTrackSize =
      (s.headOffset + (j + 1)) % s.currentTrackSize := by
  rw [afterFlip_headOffset, nextOff_of_pos hz, Nat.mod_add_mod, Nat.add_assoc, Nat.add_comm 1 j]

theorem afterFlip_currentTrackSize (s : State) :
    (afterFlip s).currentTrackSize = s.currentTrackSize := by
  show (commit s.lastMode s).currentTrackSize = _
  rw [commit_eq]

/-- What lies at a place after a flip's first byte. -/
theorem trkRead_afterFlip_place (s : State) (j : Nat) :
    trkRead (afterFlip s) ((afterFlip s).headOffset + j) =
      trkRead (afterFlip s) (s.headOffset + (j + 1)) := by
  have hsize := afterFlip_currentTrackSize s
  rcases Nat.eq_zero_or_pos s.currentTrackSize with hz | hz
  · rw [trkRead_of_empty (hsize.trans hz), trkRead_of_empty (hsize.trans hz)]
  · refine trkRead_congr_mod ?_
    rw [hsize]
    exact afterFlip_place hz j

theorem afterFlip_of_write {s : State} (hlast : s.lastMode = .write)
    (hmode : s.readWriteMode = .read) :
    afterFlip s = { commit .write s with finishByte := false, lastMode := .read } := by
  rw [afterFlip, hlast, hmode]

theorem afterFlip_of_read {s : State} (hlast : s.lastMode = .read)
    (hmode : s.readWriteMode = .write) :
    afterFlip s = { commit .read s with
      gcrRead := trkRead s (s.headOffset + 1), finishByte := false, lastMode := .write } := by
  rw [afterFlip, hlast, hmode, ← trkRead_nextOff]
  rfl

/-- Settles O41: one Write commit at the head, then a run of Read commits. -/
theorem flipWriteToReadStoresOneByte : Obligations.FlipWriteToReadStoresOneByte := by
  intro delta s hmotor henable hmode hflip hlast hw total k htotal hk hpos
  have hbits : (integrateInto delta.toNat s).bitsMoved = total := htotal.symm
  have hcore := advanceCore_flip (delta := delta.toNat) (rotating_eq_true hmotor henable) hflip
    (by omega)
  have hrun := reArm_commitLoop_read (s := afterFlip (integrateInto delta.toNat s))
    ((afterFlip_readWriteMode _).trans hmode)
  rw [hrun, afterFlip_bitsMoved, hbits, show (total - 8) / 8 = k - 1 by omega,
    show (total - 8) % 8 = total % 8 by omega, trkRead_afterFlip_place, headAfter_afterFlip,
    Nat.sub_add_cancel hpos, headAfter_integrateInto, headAfter_pos s hpos,
    afterFlip_of_write (s := integrateInto delta.toNat s) hlast hmode] at hcore
  simp only [show total - 8 < 8 ↔ k = 1 by omega] at hcore
  exact ⟨_, exec_advance_of_core hcore, rfl,
    fun hz => memRead_commit_write_self (s := integrateInto delta.toNat s) hw hz,
    fun a ha => memRead_commit_write_ne (s := integrateInto delta.toNat s) ha⟩

/-- After a Read byte under the previous mode, the Write run stores at the places after the
head's. -/
theorem commitLoop_afterFlip_mem {s : State} (hlast : s.lastMode = .read)
    (hmode : s.readWriteMode = .write) (hw : Memory.wf s.gcrData = true) :
    (0 < s.currentTrackSize → ∀ j, 1 ≤ j → j < s.bitsMoved / 8 →
      memRead (commitLoop ((afterFlip s).bitsMoved / 8) (afterFlip s)).gcrData
        (curBase s + (s.headOffset + j) % s.currentTrackSize) = s.writeValue) ∧
    (∀ a, (s.currentTrackSize = 0 ∨ ∀ j, 1 ≤ j → j < s.bitsMoved / 8 →
        a ≠ curBase s + (s.headOffset + j) % s.currentTrackSize) →
      memRead (commitLoop ((afterFlip s).bitsMoved / 8) (afterFlip s)).gcrData a =
        memRead s.gcrData a) := by
  have hafter := afterFlip_of_read hlast hmode
  have hsize := afterFlip_currentTrackSize s
  have hbits := afterFlip_bitsMoved s
  have hbase : curBase (afterFlip s) = curBase s := by rw [hafter]; rfl
  have hvalue : (afterFlip s).writeValue = s.writeValue := by rw [hafter]; rfl
  have hdata : (afterFlip s).gcrData = s.gcrData := by rw [hafter]; rfl
  obtain ⟨hstored, hothers⟩ := commitLoop_write_mem (s := afterFlip s)
    ((afterFlip_readWriteMode s).trans hmode) le_rfl (by rw [hdata]; exact hw)
  rw [hsize, hbase, hvalue] at hstored
  rw [hsize, hbase, hdata] at hothers
  refine ⟨fun hz j hpos hj => ?_, fun a ha => hothers a ?_⟩
  · have hplace := hstored hz (j - 1) (by omega)
    rwa [afterFlip_place hz, Nat.sub_add_cancel hpos] at hplace
  · rcases Nat.eq_zero_or_pos s.currentTrackSize with hz | hz
    · exact .inl hz
    · refine .inr fun j hj => ?_
      rw [afterFlip_place hz]
      exact ha.resolve_left (by omega) (j + 1) (by omega) (by omega)

/-- Settles O42: one Read commit at the head, then a run of Write commits one place further on. -/
theorem flipReadToWriteReadsOneByte : Obligations.FlipReadToWriteReadsOneByte := by
  intro delta s hmotor henable hmode hflip hlast hw total k htotal hk hpos
  have hbits : (integrateInto delta.toNat s).bitsMoved = total := htotal.symm
  have hcore := advanceCore_flip (delta := delta.toNat) (rotating_eq_true hmotor henable) hflip
    (by omega)
  have hrun := reArm_commitLoop_write (s := afterFlip (integrateInto delta.toNat s))
    ((afterFlip_readWriteMode _).trans hmode)
  have hmem := commitLoop_afterFlip_mem (s := integrateInto delta.toNat s) hlast hmode hw
  rw [hbits, ← hk, afterFlip_bitsMoved, hbits, show (total - 8) / 8 = k - 1 by omega,
    afterFlip_of_read (s := integrateInto delta.toNat s) hlast hmode] at hmem
  rw [hrun, afterFlip_bitsMoved, hbits, show (total - 8) / 8 = k - 1 by omega,
    show (total - 8) % 8 = total % 8 by omega, headAfter_afterFlip, Nat.sub_add_cancel hpos,
    headAfter_integrateInto, headAfter_pos s hpos,
    afterFlip_of_read (s := integrateInto delta.toNat s) hlast hmode] at hcore
  simp only [show 8 ≤ total - 8 ↔ 1 < k by omega] at hcore
  exact ⟨_, exec_advance_of_core hcore, rfl, hmem⟩

end Sys2Proof.Machine
end

section
/-! Clocked operations (42_rotation_engine section 3, 45_drive_session_api section 2): each is the
advance over the elapsed ticks, the clock, and the operation's own write or answer; and the session
writes that no clock gates. -/

namespace Sys2Proof.Machine

open Sys2Proof

/-! ## The prologue as an advance -/

/-- The state ADVANCE over the elapsed ticks answers with. -/
def advanced (clk : Clk) (s : State) : State :=
  respond .noValue (advanceCore (clk - s.rotationLastClk).toNat false s)

theorem exec_advance_elapsed (clk : Clk) (s : State) :
    exec (.advance (clk - s.rotationLastClk) false) s = .next (advanced clk s) := exec_advance ..

/-- What a clocked operation answers when its clock has not gone back. -/
theorem clocked_eq {clk : Clk} {s : State} (h : s.rotationLastClk.toNat ≤ clk.toNat)
    (rest : State → State) :
    clocked clk rest s = rest { advanceCore (clk - s.rotationLastClk).toNat false s with
      rotationLastClk := clk } := by
  rw [clocked_ok h, syncTo_eq h]

/-! ## Reads -/

theorem exec_readDiskByte_outside {clk : Clk} {s : State} (hout : ¬ inAttachWindow clk s)
    (h : s.rotationLastClk.toNat ≤ clk.toNat) :
    exec (.readDiskByte clk) s = .next { advanced clk s with
      rotationLastClk := clk, response := .ok (.u8 (advanced clk s).gcrRead) } := by
  rw [exec_readDiskByte, if_neg hout, clocked_eq h]
  rfl

theorem byteReadyLine_syncTo (clk : Clk) (s : State) :
    byteReadyLine (syncTo clk s) =
      (s.motorOn && s.byteReadyEnable && (syncTo clk s).byteReady) := by
  rw [byteReadyLine, rotating, syncTo_motorOn, syncTo_byteReadyEnable]

/-- Settles O44: the answer of each read, taken after the advance. -/
theorem clockedReadsAdvanceFirst : Obligations.ClockedReadsAdvanceFirst := by
  intro clk s h
  refine ⟨advanced clk s, exec_advance_elapsed clk s, ?_, ?_, fun hnone => ?_⟩
  · rw [exec_syncFound, clocked_eq h]
    rfl
  · rw [exec_byteReady, clocked_ok h, byteReadyLine_syncTo, syncTo_eq h]
    rfl
  · exact exec_readDiskByte_outside (fun hwindow => Bool.false_ne_true (hnone ▸ hwindow.1)) h

/-- Settles O47: inside the window, and outside it by the clock's check. -/
theorem readDiskByteSettlingWindow : Obligations.ReadDiskByteSettlingWindow := by
  refine fun clk s => ⟨fun hin => ?_, fun hout => ⟨fun hback => ?_, fun h => ?_⟩⟩
  · rw [exec_readDiskByte, if_pos hin]
    rfl
  · rw [exec_readDiskByte, if_neg hout, clocked_refused hback]
    rfl
  · exact ⟨advanced clk s, exec_advance_elapsed clk s, exec_readDiskByte_outside hout h⟩

/-! ## Writes -/

theorem zoneOfOperand_toNat (v : Byte) : (zoneOfOperand v).toNat = v.toNat % 4 := by
  rw [zoneOfOperand, toNat_extract_eq]
  omega

/-- Settles O45: each write's one field, after the advance under the old setting. -/
theorem clockedWritesAdvanceFirst : Obligations.ClockedWritesAdvanceFirst := by
  intro clk s h
  refine ⟨advanced clk s, exec_advance_elapsed clk s, fun value => ?_, fun flag => ?_,
    fun v => ⟨zoneOfOperand v, zoneOfOperand_toNat v, ?_⟩⟩
  · rw [exec_writeGcr, clocked_eq h]
    rfl
  · rw [exec_motorControl, clocked_eq h]
    rfl
  · rw [exec_updateZoneBits, clocked_eq h]
    rfl

/-- Settles O46: the control write after the advance, which leaves the mode. -/
theorem updatePcrRaisesFinishByteOnFlip : Obligations.UpdatePcrRaisesFinishByteOnFlip := by
  intro clk v s h
  refine ⟨advanced clk s, exec_advance_elapsed clk s, pcrMode v, pcrMode_read_iff v, ?_⟩
  rw [exec_updatePcr, clocked_ok h, writePcr_eq, syncTo_readWriteMode, pcrEnable_eq, syncTo_eq h]
  rfl

/-- Settles O48: the three clocks lowered after the last advance. -/
theorem rebaseLowersClocksAfterLastAdvance : Obligations.RebaseLowersClocksAfterLastAdvance := by
  intro clk s h hamount
  refine ⟨advanced clk s, respond .noValue (lowerClocks clk (syncTo clk s)),
    exec_advance_elapsed clk s, ?_, ?_, lowerClk_toNat clk, ?_, ?_⟩
  · rw [exec_clkRebase, if_neg (by omega), clocked_ok h]
  · rw [syncTo_eq h]
    rfl
  · rw [respond_attachClk, lowerClocks_attachClk, syncTo_attachValid, syncTo_attachClk]
    split
    · exact lowerClk_toNat _
    · rfl
  · rw [respond_detachClk, lowerClocks_detachClk, syncTo_detachValid, syncTo_detachClk]
    split
    · exact lowerClk_toNat _
    · rfl

/-- Settles O49: each operation's one record. -/
theorem unclockedSessionWrites : Obligations.UnclockedSessionWrites :=
  ⟨exec_setByteReady, exec_noteAttach, exec_noteDetach⟩

/-! ## Repeats at the same clock -/

/-- A state in which `SYNC_TO` has nothing left to do. -/
structure SettledAt (clk : Clk) (s : State) : Prop where
  clock : s.rotationLastClk = clk
  bits : rotating s = true → s.bitsMoved < 8

theorem settledAt_syncTo (clk : Clk) (s : State) : SettledAt clk (syncTo clk s) where
  clock := rfl
  bits := fun hr => by
    rw [rotating, syncTo_motorOn, syncTo_byteReadyEnable] at hr
    show (advanceCore _ false s).bitsMoved < 8
    rw [advanceCore_bitsMoved (s := s) hr]
    exact Nat.mod_lt _ (by decide)

theorem syncTo_of_settledAt {clk : Clk} {s : State} (h : SettledAt clk s) : syncTo clk s = s := by
  obtain ⟨rfl, hbits⟩ := h
  rw [syncTo, Nat.sub_self, advanceCore_zero hbits]

/-- A clocked operation whose rest keeps a settled state settled, and twice is as once, is
idempotent. -/
theorem clocked_repeat {clk : Clk} {rest : State → State} (s : State)
    (hsettled : ∀ t, SettledAt clk t → SettledAt clk (rest t))
    (hrest : ∀ t, SettledAt clk t → rest (rest t) = rest t) :
    clocked clk rest (clocked clk rest s) = clocked clk rest s := by
  rcases Nat.lt_or_ge clk.toNat s.rotationLastClk.toNat with hback | hok
  · rw [clocked_refused hback, clocked_refused (s := refuse _ s) hback]
    rfl
  · have ht := settledAt_syncTo clk s
    have hagain := hsettled _ ht
    rw [clocked_ok hok, clocked_ok (by rw [hagain.clock]), syncTo_of_settledAt hagain, hrest _ ht]

/-- A clocked operation that only answers, with what an answer does not change, is idempotent. -/
theorem clocked_respond_repeat {clk : Clk} {answer : State → Result} (s : State)
    (hanswer : ∀ r t, answer (respond r t) = answer t) :
    clocked clk (fun t => respond (answer t) t) (clocked clk (fun t => respond (answer t) t) s) =
      clocked clk (fun t => respond (answer t) t) s :=
  clocked_repeat s (fun _ ht => ⟨ht.clock, ht.bits⟩) fun t _ =>
    congrArg (fun r => respond r t) (hanswer (answer t) t)

/-- A clocked operation moves no recorded attach, so the settling window stays. -/
theorem inAttachWindow_clocked_read {clk : Clk} {s : State} :
    inAttachWindow clk (clocked clk (fun t => respond (.u8 t.gcrRead) t) s) ↔
      inAttachWindow clk s := by
  unfold clocked
  split
  · rfl
  · simp only [inAttachWindow, respond_attachValid, respond_attachClk, syncTo_attachValid,
      syncTo_attachClk]

/-- Settles O50, operation by operation: the second `SYNC_TO` finds a settled state. -/
theorem sameClockRepeatsAreIdempotent : Obligations.SameClockRepeatsAreIdempotent := by
  rintro i clk s t (rfl | rfl | rfl | ⟨value, rfl⟩) he
  · rw [exec_readDiskByte] at he ⊢
    obtain rfl := Host.Outcome.next.inj he
    by_cases hin : inAttachWindow clk s
    · rw [if_pos hin, if_pos (show inAttachWindow clk (respond _ s) from hin)]
      rfl
    · rw [if_neg hin, if_neg (fun h => hin (inAttachWindow_clocked_read.mp h)),
        clocked_respond_repeat s fun _ _ => rfl]
  · rw [exec_byteReady] at he ⊢
    obtain rfl := Host.Outcome.next.inj he
    rw [clocked_respond_repeat s fun _ _ => rfl]
  · rw [exec_syncFound] at he ⊢
    obtain rfl := Host.Outcome.next.inj he
    rw [clocked_respond_repeat s fun _ _ => rfl]
  · rw [exec_writeGcr] at he ⊢
    obtain rfl := Host.Outcome.next.inj he
    exact congrArg _ (clocked_repeat s (fun _ ht => ⟨ht.clock, ht.bits⟩) fun _ _ => rfl)

end Sys2Proof.Machine
end

section
/-! Rules of the whole machine (10_state, 20_memory sections 1, 2 and 5): what the prologue and each
own write leave alone, and from it which operations can touch a field, the clock or a byte of the
store. -/

namespace Sys2Proof.Machine

open Sys2Proof

/-! ## Control fields -/

/-- The control fields of a state: all but those the Rotation Engine, the clock's record and the
answer write, which are set to their power-on values. -/
def control (s : State) : State :=
  { s with
    gcrData := [], dirty := false, headOffset := 0, bitsMoved := 0, accum := 0
    finishByte := false, lastMode := .read, rotationLastClk := 0, gcrRead := 0
    byteReady := false, response := .noneYet }

theorem control_of_engineFrame {s t : State} (h : EngineFrame s t) : control t = control s := by
  unfold EngineFrame at h
  rw [h]
  rfl

theorem control_advanceCore (delta : Nat) (changed : Bool) (s : State) :
    control (advanceCore delta changed s) = control s :=
  control_of_engineFrame (engineFrame_advanceCore delta changed s)

theorem control_prologue (i : Instr) (s : State) : control (prologue i s) = control s := by
  unfold prologue
  split
  · exact control_advanceCore _ false s
  · rfl

/-- A control field that an operation does not itself write stays. -/
theorem exec_keeps_control {β : Type} (f : State → β)
    (hf : ∀ u, f (control u) = f u) {i : Instr} {s t : State}
    (hown : ∀ u, f (ownWrite i u) = f u) (he : exec i s = .next t) : f t = f s := by
  have hsame : ∀ {u v}, control u = control v → f u = f v :=
    fun {u v} h => by rw [← hf u, h, hf v]
  refine exec_induction (P := fun t => f t = f s) he (fun _ => hsame rfl) fun _ r => ?_
  calc f (respond r (ownWrite i (prologue i s)))
      = f (ownWrite i (prologue i s)) := hsame rfl
    _ = f (prologue i s) := hown _
    _ = f s := hsame (control_prologue i s)

section OwnWrites

variable {i : Instr} (u : State)

theorem ownWrite_zones_sizes (hload : ∀ k size data zones, i ≠ .tsLoadTrack k size data zones)
    (hclear : i ≠ .tsClear) :
    ((ownWrite i u).speedZone, (ownWrite i u).trackSize) = (u.speedZone, u.trackSize) := by
  cases i with
  | tsLoadTrack k size data zones => exact absurd rfl (hload k size data zones)
  | tsClear => exact absurd rfl hclear
  | advance delta changed =>
    exact congrArg (fun v => (v.speedZone, v.trackSize)) (control_advanceCore delta.toNat changed u)
  | _ => rfl

theorem ownWrite_head (hset : ∀ n, i ≠ .setHalfTrack n) (hmove : ∀ n, i ≠ .moveHead n)
    (hreset : i ≠ .reset) :
    ((ownWrite i u).currentHalfTrack, (ownWrite i u).currentTrackSize) =
      (u.currentHalfTrack, u.currentTrackSize) := by
  cases i with
  | setHalfTrack n => exact absurd rfl (hset n)
  | moveHead n => exact absurd rfl (hmove n)
  | reset => exact absurd rfl hreset
  | advance delta changed =>
    exact congrArg (fun v => (v.currentHalfTrack, v.currentTrackSize))
      (control_advanceCore delta.toNat changed u)
  | _ => rfl

theorem ownWrite_zone (h : ∀ clk v, i ≠ .updateZoneBits clk v) : (ownWrite i u).zone = u.zone := by
  cases i with
  | updateZoneBits clk v => exact absurd rfl (h clk v)
  | advance delta changed => exact advanceCore_zone delta.toNat changed u
  | _ => rfl

theorem ownWrite_motorOn (h : ∀ clk flag, i ≠ .motorControl clk flag) :
    (ownWrite i u).motorOn = u.motorOn := by
  cases i with
  | motorControl clk flag => exact absurd rfl (h clk flag)
  | advance delta changed => exact advanceCore_motorOn delta.toNat changed u
  | _ => rfl

theorem ownWrite_mode_enable (h : ∀ clk v, i ≠ .updatePcr clk v) :
    ((ownWrite i u).readWriteMode, (ownWrite i u).byteReadyEnable) =
      (u.readWriteMode, u.byteReadyEnable) := by
  cases i with
  | updatePcr clk v => exact absurd rfl (h clk v)
  | advance delta changed =>
    exact congrArg (fun v => (v.readWriteMode, v.byteReadyEnable))
      (control_advanceCore delta.toNat changed u)
  | _ => rfl

theorem ownWrite_writeValue (h : ∀ clk value, i ≠ .writeGcr clk value) :
    (ownWrite i u).writeValue = u.writeValue := by
  cases i with
  | writeGcr clk value => exact absurd rfl (h clk value)
  | advance delta changed => exact advanceCore_writeValue delta.toNat changed u
  | _ => rfl

theorem ownWrite_attach (hnote : ∀ clk, i ≠ .noteAttach clk) (hrebase : ∀ clk, i ≠ .clkRebase clk) :
    ((ownWrite i u).attachClk, (ownWrite i u).attachValid) = (u.attachClk, u.attachValid) := by
  cases i with
  | noteAttach clk => exact absurd rfl (hnote clk)
  | clkRebase clk => exact absurd rfl (hrebase clk)
  | advance delta changed =>
    exact congrArg (fun v => (v.attachClk, v.attachValid))
      (control_advanceCore delta.toNat changed u)
  | _ => rfl

theorem ownWrite_detach (hnote : ∀ clk, i ≠ .noteDetach clk) (hrebase : ∀ clk, i ≠ .clkRebase clk) :
    ((ownWrite i u).detachClk, (ownWrite i u).detachValid) = (u.detachClk, u.detachValid) := by
  cases i with
  | noteDetach clk => exact absurd rfl (hnote clk)
  | clkRebase clk => exact absurd rfl (hrebase clk)
  | advance delta changed =>
    exact congrArg (fun v => (v.detachClk, v.detachValid))
      (control_advanceCore delta.toNat changed u)
  | _ => rfl

theorem ownWrite_requests : (ownWrite i u).requests = u.requests := by
  cases i with
  | advance delta changed => exact advanceCore_requests delta.toNat changed u
  | _ => rfl

end OwnWrites

/-- Settles O53, field by field: only the writers' own writes touch them. -/
theorem eachControlFieldHasItsWriters : Obligations.EachControlFieldHasItsWriters := by
  intro i s t he
  refine ⟨fun hload hclear => ?_, fun hset hmove hreset => ?_, fun hzone => ?_, fun hmotor => ?_,
    fun hpcr => ?_, fun hwrite => ?_, fun hnote hrebase => ?_, fun hnote hrebase => ?_, ?_⟩
  · exact Prod.mk.inj (exec_keeps_control (fun u => (u.speedZone, u.trackSize))
      (fun _ => rfl) (fun u => ownWrite_zones_sizes u hload hclear) he)
  · exact Prod.mk.inj (exec_keeps_control (fun u => (u.currentHalfTrack, u.currentTrackSize))
      (fun _ => rfl) (fun u => ownWrite_head u hset hmove hreset) he)
  · exact exec_keeps_control State.zone (fun _ => rfl)
      (fun u => ownWrite_zone u hzone) he
  · exact exec_keeps_control State.motorOn (fun _ => rfl)
      (fun u => ownWrite_motorOn u hmotor) he
  · exact Prod.mk.inj (exec_keeps_control (fun u => (u.readWriteMode, u.byteReadyEnable))
      (fun _ => rfl) (fun u => ownWrite_mode_enable u hpcr) he)
  · exact exec_keeps_control State.writeValue (fun _ => rfl)
      (fun u => ownWrite_writeValue u hwrite) he
  · exact Prod.mk.inj (exec_keeps_control (fun u => (u.attachClk, u.attachValid))
      (fun _ => rfl) (fun u => ownWrite_attach u hnote hrebase) he)
  · exact Prod.mk.inj (exec_keeps_control (fun u => (u.detachClk, u.detachValid))
      (fun _ => rfl) (fun u => ownWrite_detach u hnote hrebase) he)
  · exact exec_keeps_control State.requests (fun _ => rfl)
      (fun u => ownWrite_requests u) he

/-! ## The two flags that are set by the engine and cleared by the host -/

theorem advanceCore_keeps_dirty (delta : Nat) (changed : Bool) {s : State} (h : s.dirty = true) :
    (advanceCore delta changed s).dirty = true :=
  advanceCore_induction (P := fun u => u.dirty = true)
    (fun m u hu => by rw [commit_dirty, hu, Bool.true_or])
    (fun _ _ _ _ hu => hu) (fun _ _ _ hu => hu) delta changed h

theorem prologue_keeps_dirty (i : Instr) {s : State} (h : s.dirty = true) :
    (prologue i s).dirty = true := by
  unfold prologue
  split
  · exact advanceCore_keeps_dirty _ false h
  · exact h

/-- Settles O51: no prologue and no other own write clears `dirty`. -/
theorem dirtyClearedOnlyByHost : Obligations.DirtyClearedOnlyByHost := by
  intro i s t he hs hclearDirty hclear
  refine exec_induction (P := fun t => t.dirty = true) he (fun _ => hs) fun _ r => ?_
  have hp := prologue_keeps_dirty i hs
  cases i with
  | clearDirty => exact absurd rfl hclearDirty
  | tsClear => exact absurd rfl hclear
  | writeByteAt => rfl
  | advance delta changed => exact advanceCore_keeps_dirty _ _ hp
  | _ => exact hp

theorem finishPending_byteReady (s : State) : (finishPending s).byteReady = s.byteReady := by
  unfold finishPending
  split
  · show (commit s.lastMode s).byteReady = s.byteReady
    rw [commit_eq]
  · rfl

/-- The re-arm can only set the flag. -/
theorem commitBytes_keeps_byteReady {s : State} (h : s.byteReady = true) :
    (commitBytes s).byteReady = true := by
  obtain ⟨_, _, _, hloop⟩ :=
    commitLoop_flags ((finishPending s).bitsMoved / 8) (finishPending s)
  unfold commitBytes
  split
  · rw [reArm_byteReady, hloop, finishPending_byteReady, h, Bool.true_or]
  · exact h

theorem advanceCore_keeps_byteReady (delta : Nat) (changed : Bool) {s : State}
    (h : s.byteReady = true) : (advanceCore delta changed s).byteReady = true := by
  unfold advanceCore
  split
  · exact h
  · split
    · exact commitBytes_keeps_byteReady h
    · exact h

theorem prologue_keeps_byteReady (i : Instr) {s : State} (h : s.byteReady = true) :
    (prologue i s).byteReady = true := by
  unfold prologue
  split
  · exact advanceCore_keeps_byteReady _ false h
  · exact h

/-- Settles O52: no prologue and no other own write clears `byte_ready`. -/
theorem byteReadyClearedOnlyBySetByteReady : Obligations.ByteReadyClearedOnlyBySetByteReady := by
  intro i s t he hs hset
  refine exec_induction (P := fun t => t.byteReady = true) he (fun _ => hs) fun _ r => ?_
  have hp := prologue_keeps_byteReady i hs
  cases i with
  | setByteReady flag =>
    cases flag with
    | true => rfl
    | false => exact absurd rfl hset
  | advance delta changed => exact advanceCore_keeps_byteReady _ _ hp
  | _ => exact hp

/-! ## Time and the medium -/

/-- What turns with the disk: the pending bits and fraction, the read latch, the flip flags, and the
clock they stand at. -/
abbrev motion (s : State) : Nat × Nat × Byte × Bool × Mode × Clk :=
  (s.bitsMoved, s.accum, s.gcrRead, s.finishByte, s.lastMode, s.rotationLastClk)

theorem prologue_of_unclocked {i : Instr} {s : State} (h : clockOf i s = none) :
    prologue i s = s := by
  simp only [prologue, h]

theorem motion_ownWrite {i : Instr} {s : State} (hclk : clockOf i s = none)
    (hadvance : ∀ delta changed, i ≠ .advance delta changed) (u : State) :
    motion (ownWrite i u) = motion u := by
  cases i with
  | advance delta changed => exact absurd rfl (hadvance delta changed)
  | clkRebase | updatePcr => cases hclk
  | _ => rfl

theorem ownWrite_rotationLastClk {i : Instr} (h : ∀ clk, i ≠ .clkRebase clk) (u : State) :
    (ownWrite i u).rotationLastClk = u.rotationLastClk := by
  cases i with
  | clkRebase clk => exact absurd rfl (h clk)
  | advance delta changed => exact advanceCore_rotationLastClk delta.toNat changed u
  | _ => rfl

/-- A clocked operation that is served has a clock that did not go back. -/
theorem clock_le_of_served {i : Instr} {s : State} {clk : Clk} (hclk : clockOf i s = some clk)
    (hserved : refusalOf i s = none) : s.rotationLastClk.toNat ≤ clk.toNat := by
  by_contra hback
  have hback : clk.toNat < s.rotationLastClk.toNat := by omega
  cases i with
  | clkRebase c =>
    obtain rfl := Option.some.inj hclk
    simp only [refusalOf, hback, if_true] at hserved
    split at hserved <;> cases hserved
  | tsLoadTrack | tsReadTrack => cases hclk
  | _ => simp [refusalOf, hclk, hback] at hserved

theorem prologue_clock_le {i : Instr} {s : State} (hserved : refusalOf i s = none) :
    s.rotationLastClk.toNat ≤ (prologue i s).rotationLastClk.toNat := by
  cases hclk : clockOf i s with
  | none => rw [prologue_of_unclocked hclk]
  | some clk =>
    simp only [prologue, hclk, syncTo_rotationLastClk]
    exact clock_le_of_served hclk hserved

/-- Settles O54: an operation with no clock has no prologue, and a served one's clock did not go
back. -/
theorem onlyClockedOperationsTurnTheDisk : Obligations.OnlyClockedOperationsTurnTheDisk := by
  refine fun i s t he => ⟨fun hclk hadvance => ?_, fun hrebase => ?_⟩
  · have hmotion : motion t = motion s :=
      exec_induction (P := fun t => motion t = motion s) he (fun _ => rfl) fun _ _ => by
        rw [prologue_of_unclocked hclk]
        exact motion_ownWrite hclk hadvance s
    simpa only [motion, Prod.mk.injEq] using hmotion
  · refine exec_induction (P := fun t => s.rotationLastClk.toNat ≤ t.rotationLastClk.toNat) he
      (fun _ => le_rfl) fun hserved r => ?_
    rw [respond_rotationLastClk, ownWrite_rotationLastClk hrebase]
    exact prologue_clock_le hserved

/-! ## The store outside the current window -/

/-- `u` has the window of `s` and the byte of `s` at `a`. -/
structure SameByte (s : State) (a : Nat) (u : State) : Prop where
  half : u.currentHalfTrack = s.currentHalfTrack
  size : u.currentTrackSize = s.currentTrackSize
  byte : memRead u.gcrData a = memRead s.gcrData a

section Window

variable {s : State} {a : Nat} (ha : a < curBase s ∨ curBase s + s.currentTrackSize ≤ a)

include ha

/-- A byte outside the window is at no offset's place. -/
theorem memRead_trkWrite_outside {u : State} (h : SameByte s a u) (o : Nat) (v : Byte) :
    memRead (trkWrite o v u).gcrData a = memRead s.gcrData a := by
  refine (memRead_trkWrite_ne ?_).trans h.byte
  rw [h.size, curBase_congr h.half]
  rcases Nat.eq_zero_or_pos s.currentTrackSize with hz | hz
  · exact .inl hz
  · have := Nat.mod_lt o hz
    omega

theorem sameByte_commit (m : Mode) {u : State} (h : SameByte s a u) :
    SameByte s a (commit m u) := by
  cases m with
  | read => exact ⟨h.half, h.size, h.byte⟩
  | write => exact ⟨h.half, h.size, memRead_trkWrite_outside ha h u.headOffset u.writeValue⟩

theorem sameByte_advanceCore (delta : Nat) (changed : Bool) {u : State} (h : SameByte s a u) :
    SameByte s a (advanceCore delta changed u) :=
  advanceCore_induction (fun m _ h => sameByte_commit ha m h)
    (fun _ _ _ _ h => ⟨h.half, h.size, h.byte⟩) (fun _ _ _ h => ⟨h.half, h.size, h.byte⟩)
    delta changed h

theorem sameByte_prologue (i : Instr) : SameByte s a (prologue i s) := by
  unfold prologue
  split
  · next clk _ =>
    have h := sameByte_advanceCore ha (clk.toNat - s.rotationLastClk.toNat) false ⟨rfl, rfl, rfl⟩
    exact ⟨h.half, h.size, h.byte⟩
  · exact ⟨rfl, rfl, rfl⟩

end Window

/-- Settles O55: commits and byte writes store inside the window, nothing else but a load or a clear
stores. -/
theorem storesStayInCurrentTrackWindow : Obligations.StoresStayInCurrentTrackWindow := by
  intro i s t a he hload hclear ha
  refine exec_induction (P := fun t => memRead t.gcrData a = memRead s.gcrData a) he (fun _ => rfl)
    fun _ r => ?_
  have hp := sameByte_prologue ha i
  cases i with
  | tsLoadTrack k size data zones => exact absurd rfl (hload k size data zones)
  | tsClear => exact absurd rfl hclear
  | writeByteAt offset value => exact memRead_trkWrite_outside ha hp offset.toNat value
  | advance delta changed => exact (sameByte_advanceCore ha delta.toNat changed hp).byte
  | _ => exact hp.byte

/-! ## Operations that only answer -/

theorem exec_eq_answer {i : Instr} {s t : State} (he : exec i s = .next t)
    (hown : ownWrite i (prologue i s) = s) : t = { s with response := t.response } :=
  exec_induction (P := fun t => t = { s with response := t.response }) he (fun _ => rfl)
    fun _ r => by rw [hown]; rfl

/-- Settles O56: the nine have no clock and no own write. -/
theorem pureReadsChangeNothing : Obligations.PureReadsChangeNothing := by
  rintro i s t he (⟨raw, rfl⟩ | ⟨gcr, rfl⟩ | ⟨track, sector, id1, id2, payload, rfl⟩ |
    ⟨offset, rfl⟩ | ⟨offset, rfl⟩ | rfl | ⟨k, rfl⟩ | ⟨track, sector, rfl⟩ | ⟨offset, rfl⟩) <;>
    exact exec_eq_answer he rfl

/-! ## Power-on -/

/-- Settles O60: the power-on values, and what an empty store reads. -/
theorem powerOnIsIdleOnEmptyStore : Obligations.PowerOnIsIdleOnEmptyStore :=
  ⟨rfl, rfl, rfl, rfl, rfl, rfl, rfl, rfl, rfl, fun k => getD_replicate (k - 1),
    fun _ => ⟨rfl, rfl⟩, fun o => trkRead_of_empty rfl o, rfl, rfl, rfl, rfl, rfl, rfl, rfl, rfl,
    rfl, rfl, rfl, rfl⟩

end Sys2Proof.Machine
end
